-- ==== Sys2Proof/Word.lean ====
section
/-! DEFINITION. The words of the block: registers, bytes, addresses, pin levels (00_scope R8, R10). -/

namespace Sys2Proof

/-- A host register or a command word: 32 bits, bit 0 least significant (00_scope R8, R10). -/
abbrev Word := BitVec 32

/-- One byte: the data unit of a byte transfer and of buffer memory (00_scope R7). -/
abbrev Byte := BitVec 8

/-- A buffer-memory byte address; its arithmetic wraps modulo 2^32 (00_scope R8, 20_memory R52). -/
abbrev Addr := BitVec 32

/-- A pin level or a single bit: `true` is 1 (high), `false` is 0 (low) (00_scope R10). -/
abbrev Level := Bool

end Sys2Proof
end

