-- ==== Sys2Proof/Config.lean ====
section
/-! DEFINITION. What the spec leaves open to the platform (00_scope R9), as constants without a body,
and the two types those constants speak of: the events of the history H and the agents. -/

namespace Sys2Proof

/-- One entry of the pin-event history H (10_state R39): the pin primitives of 00_scope R12, the memory
primitives of 00_scope R13, and the `Reset` of 70_reset R180. -/
inductive Event where
  | clk (l : Level)
  | mosi (l : Level)
  | clkMosi (c d : Level)
  | clkSample (l r : Level)
  | wait
  | memRd (a : Addr) (v : Byte)
  | memWr (a : Addr) (v : Byte)
  | reset
deriving DecidableEq, Repr

/-- Who takes a turn (00_scope R17). The peripheral and the buffer memory answer inside the turn that
asks them; a hardware reset is a turn of its own (60_exceptions R168, 70_reset R181). -/
inductive Agent where
  | sequencer
  | delayUnit
  | host
  | reset
deriving DecidableEq, Repr, Inhabited

/-- `miso_env`: the MISO level at a sample instant, given the history that already contains the clock
change (00_scope R9, R12; 92_eei_decisions D23: "no law"). Open: no body. Log 2. -/
opaque Config.misoEnv : List Event → Level

/-- `bufmem_admits`: which buffer-memory byte addresses the platform admits (00_scope R9). Open. Log 3. -/
opaque Config.bufmemAdmits : Addr → Bool

/-- Whose turn the n-th turn is, where the state's own schedule says nothing: "the agents step in any
interleaving" (60_exceptions R168); it decides, too, when `wait_env` acknowledges (00_scope R9). Open. Log 1. -/
opaque Config.nextAgent : Nat → Agent

/-- A working byte the pseudocode has not assigned yet (10_state R37, 93 I-13 "any value"). Open. Log 12. -/
opaque Config.unassignedByte : Byte

/-- A working bit the pseudocode has not assigned yet. Open. Log 12. -/
opaque Config.unassignedLevel : Level

/-- A working index the pseudocode has not assigned yet. Open. Log 12. -/
opaque Config.unassignedIndex : Nat

end Sys2Proof
end

