-- ==== Sys2Proof/Syntax.lean ====
section
/-! DEFINITION. The commands of the block, one constructor per row of spec/opcode_table.json, the
pseudo-commands of 30_encoding R80 and the assembler lines of 30_encoding R79. -/

namespace Sys2Proof

/-- A command (30_encoding R72). Each operand has the type of exactly the bits its field holds, so every
term is encodable. -/
inductive Instr where
  /-- BUSRESET, no operand (40_bus_reset R90). -/
  | busReset
  /-- XFER_BIT `B`: the bit to transmit (41_bit_transfer R104). -/
  | xferBit (b : Level)
  /-- XFER_BYTE `D`: the byte to transmit (42_byte_transfer R123). -/
  | xferByte (d : Byte)
  /-- XFER_BUF `RD`, `WR`: read buffer present, write buffer present (43_buffer_transfer R142). -/
  | xferBuf (rd wr : Bool)
deriving DecidableEq, Repr

/-- The name of the command's row in the opcode table. -/
def Instr.mnemonic : Instr → String
  | .busReset => "BUSRESET"
  | .xferBit _ => "XFER_BIT"
  | .xferByte _ => "XFER_BYTE"
  | .xferBuf _ _ => "XFER_BUF"

/-- READ = `XFER_BUF rd=1, wr=0` (30_encoding R80). -/
abbrev Instr.read : Instr := .xferBuf true false

/-- WRITE = `XFER_BUF rd=0, wr=1` (30_encoding R80). -/
abbrev Instr.write : Instr := .xferBuf false true

/-- XFER_DUPLEX = `XFER_BUF rd=1, wr=1` (30_encoding R80). -/
abbrev Instr.xferDuplex : Instr := .xferBuf true true

/-- XFER_CLOCKS = `XFER_BUF rd=0, wr=0` (30_encoding R80). -/
abbrev Instr.xferClocks : Instr := .xferBuf false false

/-- One assembler line, its operands numbers as they are written (30_encoding R79, R80). -/
inductive AsmLine where
  | busReset
  | xferBit (b : Nat)
  | xferByte (d : Nat)
  | xferBuf (rd wr : Nat)
  | read
  | write
  | xferDuplex
  | xferClocks
deriving DecidableEq, Repr

end Sys2Proof
end

