-- ==== Sys2Proof/WellFormed.lean ====
section
/-! DEFINITION. Well-formedness. A term of `Instr` is always well-formed, since each operand has the type of
its field's bits. An assembler line is well-formed when its operands are in range: "An operand out of
range is a syntax error and is never encoded" (30_encoding R79). -/

namespace Sys2Proof

/-- The operand ranges of 30_encoding R79: b, r, w in 0..1, d in 0x00..0xFF. -/
def AsmLine.wf : AsmLine → Bool
  | .xferBit b => decide (b < 2)
  | .xferByte d => decide (d < 256)
  | .xferBuf rd wr => decide (rd < 2) && decide (wr < 2)
  | .busReset => true
  | .read => true
  | .write => true
  | .xferDuplex => true
  | .xferClocks => true

/-- The command an assembler line stands for; none for a line that is a syntax error (30_encoding R79, R80). -/
def AsmLine.assemble (l : AsmLine) : Option Instr :=
  if l.wf then
    some (match l with
      | .busReset => .busReset
      | .xferBit b => .xferBit (b == 1)
      | .xferByte d => .xferByte (BitVec.ofNat 8 d)
      | .xferBuf rd wr => .xferBuf (rd == 1) (wr == 1)
      | .read => .read
      | .write => .write
      | .xferDuplex => .xferDuplex
      | .xferClocks => .xferClocks)
  else none

end Sys2Proof
end

