-- ==== Sys2Proof/Decode.lean ====
section
/-! DEFINITION. The decoder of 30_encoding R76, total on every command word and rejecting by name, the
match/mask table of 30_encoding R73, and the encoder written from the layouts of 30_encoding R73. -/

namespace Sys2Proof

/-- The two ways a word is reserved (30_encoding R78). -/
inductive Reserved where
  /-- its OP is 0x0 or 0x5 to 0xF -/
  | opcode
  /-- it has a 1 in a bit that must be 0 for its OP -/
  | mustBeZero
deriving DecidableEq, Repr

/-- What a command word decodes to: `Cmd or Reserved` (30_encoding R76). -/
inductive Decoded where
  | command (i : Instr)
  | reserved (why : Reserved)
deriving DecidableEq, Repr

/-- The slice `w[lo+len-1:lo]` (00_scope R10). -/
def slice (lo len : Nat) (w : Word) : BitVec len := w.extractLsb' lo len

/-- The command if the must-be-zero bits are zero, else the reservation by name. -/
def commandIf (zeros : Bool) (i : Instr) : Decoded :=
  if zeros then .command i else .reserved .mustBeZero

/-- The decoder, case by case as 30_encoding R76 writes it. -/
def decode (w : Word) : Decoded :=
  match (slice 0 4 w).toNat with
  | 1 => commandIf (slice 4 28 w == 0) .busReset
  | 2 => commandIf (slice 9 23 w == 0 && slice 4 4 w == 0) (.xferBit (w.getLsbD 8))
  | 3 => commandIf (slice 16 16 w == 0 && slice 4 4 w == 0) (.xferByte (slice 8 8 w))
  | 4 => commandIf (slice 6 26 w == 0) (.xferBuf (w.getLsbD 4) (w.getLsbD 5))
  | _ => .reserved .opcode

/-- A bit as a 32-bit word: `zext_32` of one bit (00_scope R10). -/
def bitWord (b : Bool) : Word := if b then 1#32 else 0#32

/-- The word of a command, from the layouts of 30_encoding R73. -/
def encode : Instr → Word
  | .busReset => 0x00000001#32
  | .xferBit b => 0x00000002#32 ||| (bitWord b <<< 8)
  | .xferByte d => 0x00000003#32 ||| (d.setWidth 32 <<< 8)
  | .xferBuf rd wr => 0x00000004#32 ||| (bitWord wr <<< 5) ||| (bitWord rd <<< 4)

/-- One row of the match/mask table of 30_encoding R73. -/
structure EncodingRow where
  mnemonic : String
  pattern : Word
  mask : Word
deriving DecidableEq, Repr

/-- The match/mask table of 30_encoding R73. -/
def encodingTable : List EncodingRow :=
  [⟨"BUSRESET", 0x00000001#32, 0xFFFFFFFF#32⟩,
   ⟨"XFER_BIT", 0x00000002#32, 0xFFFFFEFF#32⟩,
   ⟨"XFER_BYTE", 0x00000003#32, 0xFFFF00FF#32⟩,
   ⟨"XFER_BUF", 0x00000004#32, 0xFFFFFFCF#32⟩]

/-- `(w AND mask) = match` (30_encoding R73). -/
def EncodingRow.matches (r : EncodingRow) (w : Word) : Bool := w &&& r.mask == r.pattern

/-- The mnemonic a word decodes to, if it is a command. -/
def Decoded.mnemonic? : Decoded → Option String
  | .command i => some i.mnemonic
  | .reserved _ => none

/-- A decoded command, or nothing for a reserved word. -/
def Decoded.toOption : Decoded → Option Instr
  | .command i => some i
  | .reserved _ => none

/-- The word of an assembler line; a line that is a syntax error is never encoded (30_encoding R79). -/
def AsmLine.encode (l : AsmLine) : Option Word := l.assemble.map Sys2Proof.encode

/-- The command word whose low `nbits` bits are `w`, every bit above them 0. A command is always exactly
one 32-bit word (30_encoding R70) and reaches the decoder whole, so no byte order enters. -/
def tableWord (nbits w : Nat) : Word := BitVec.ofNat 32 (w % 2 ^ nbits)

/-- The instruction the decoder reads from a word numbered as the opcode table numbers its bits. A word with
a 1 above bit 31 is no command word. -/
def decodeTableWord (nbits w : Nat) : Option Instr :=
  if w % 2 ^ nbits < 2 ^ 32 then (decode (tableWord nbits w)).toOption else none

end Sys2Proof
end

