-- ==== Sys2Proof/Machine/State.lean ====
section
/-! DEFINITION. The state of the machine: the block's registers, pins and sequencer (10_state), the history H,
buffer memory, and the collaborators' side of the block's ports as plain data; the state after reset; the
reasons a step can stop. -/

namespace Sys2Proof.Machine

/-- The registers of the 32-byte window (10_state R21). -/
inductive Reg where
  | cfg
  | raddr
  | waddr
  | count
  | cmd
  | rxdata
  | status
  | reserved
deriving DecidableEq, Repr

/-- Where `TransferBit` stands: the action it performs next (41_bit_transfer R101). With CPHA = 0 the order is
drive (a1), wait1 (a2), lead (a3), wait2 (a4), trail (a5); with CPHA = 1 it is wait1 (a1), lead (a2), wait2 (a3),
trail (a4), and `drive` does not occur. -/
inductive BitPos where
  | drive
  | wait1
  | lead
  | wait2
  | trail
deriving DecidableEq, Repr

/-- POS (10_state R36): the position reached in the running command's pseudocode, named by what the next
sequencer step does. -/
inductive Pos where
  /-- BUSRESET's one action (40_bus_reset R90) -/
  | lines
  /-- the MemRead of element k (43_buffer_transfer R141) -/
  | load
  /-- an action of `TransferBit` (41_bit_transfer R101) -/
  | bit (p : BitPos)
  /-- the MemWrite of element k (43_buffer_transfer R141) -/
  | store
  /-- the completion step (10_state R36) -/
  | done
deriving DecidableEq, Repr

/-- The hidden working state (10_state R37) and `r`, the bit `TransferBit` returns (41_bit_transfer R101). -/
structure Work where
  /-- the outgoing working byte -/
  tx : Byte
  /-- the incoming accumulator -/
  rx : Byte
  txmask : Byte
  rxmask : Byte
  /-- the current transmit byte -/
  t : Byte
  /-- the bit index, 0..7 -/
  i : Nat
  /-- the buffer element index -/
  k : BitVec 32
  /-- the bit last sampled -/
  r : Level
deriving DecidableEq, Repr

/-- CUR with its POS and working state: they exist together, while a command is in progress (10_state R36, R37). -/
structure Running where
  cmd : Instr
  pos : Pos
  work : Work
deriving DecidableEq, Repr

/-- A host register write (10_state R31). -/
structure RegWrite where
  offset : Nat
  value : Word
deriving DecidableEq, Repr

/-- One access of the host's program (70_reset R194, 30_encoding R81): a register access at an offset and of a
width in bits, the pseudo-operation SYNC, or an access of its own to a byte of buffer memory (20_memory R60, R61). -/
inductive HostOp where
  | write (offset width : Nat) (value : Word)
  | read (offset width : Nat)
  | sync
  | store (a : Addr) (v : Byte)
  | load (a : Addr)
deriving DecidableEq, Repr

/-- A value a host read returned. -/
inductive ReadBack where
  | reg (offset : Nat) (v : Word)
  | mem (a : Addr) (v : Byte)
deriving DecidableEq, Repr

/-- The addresses from `base` to `base + size - 1`. -/
structure Region where
  base : Addr
  size : Nat
deriving DecidableEq, Repr

/-- The open parameter `bufmem_admits` (00_scope R9) as data: the platform's own unknown choice, or a map of
admitted regions. -/
inductive Admits where
  | platform
  | regions (rs : List Region)
deriving DecidableEq, Repr

/-- Buffer memory: address and byte, in the canonical form of `Memory.wf`. -/
abbrev Memory := List Host.Cell

/-- The collaborators' side (00_scope R17), the model's own fields: logs 1, 2, 3, 13, 20. -/
structure Env where
  /-- which buffer addresses the platform admits -/
  admits : Admits
  /-- the peripheral's next answers; after them `Config.misoEnv` answers -/
  misoIn : List Level
  /-- whose turns come next; after them `Config.nextAgent` says -/
  sched : List Agent
  /-- how many turns have passed -/
  turn : Nat
  /-- the host's remaining program -/
  hostProg : List HostOp
  /-- what the host's reads returned, oldest first -/
  readLog : List ReadBack
deriving DecidableEq, Repr

/-- The state of the machine. -/
structure State where
  /-- CFG (10_state R22) -/
  cfg : Word
  /-- RADDR (10_state R26) -/
  raddr : Word
  /-- WADDR (10_state R26) -/
  waddr : Word
  /-- COUNT (10_state R27) -/
  count : Word
  /-- RXDATA (10_state R28) -/
  rxdata : Word
  /-- STATUS.BUSY (10_state R29) -/
  busy : Bool
  /-- the SCLK output register (10_state R33) -/
  sclk : Level
  /-- the MOSI output register (10_state R33) -/
  mosi : Level
  /-- the WAIT_REQ output (10_state R35) -/
  waitReq : Bool
  /-- CUR, POS and the working state; none while no command is in progress (10_state R36, R37) -/
  cur : Option Running
  /-- the host write held by the stall (10_state R31) -/
  held : Option RegWrite
  /-- the pin-event history H, oldest first (10_state R39) -/
  hist : List Event
  /-- buffer memory (20_memory R50, R51) -/
  mem : Memory
  /-- the collaborators -/
  env : Env
deriving DecidableEq, Repr

/-- The machine right after a hardware reset (70_reset R180), with no program, no scripted answer and no
scripted turn (log 25). H = [Reset] as in 95_test_vectors section 3. -/
def State.reset : State where
  cfg := 0#32
  raddr := 0#32
  waddr := 0#32
  count := 0#32
  rxdata := 0#32
  busy := false
  sclk := false
  mosi := false
  waitReq := false
  cur := none
  held := none
  hist := [.reset]
  mem := []
  env :=
    { admits := .platform
      misoIn := []
      sched := []
      turn := 0
      hostProg := []
      readLog := [] }

/-- Why the sequencer has no step. The block itself raises no exception (60_exceptions R160). -/
inductive Fault where
  /-- A MemRead or MemWrite of an address the platform does not admit "has no step: the sequencer is stuck at that
  action" (60_exceptions R164). Raised by `execXferBuf`. Safe: nothing is claimed of what the platform does; the
  machine's step turns it into the stuck block (log 5). -/
  | notAdmitted (a : Addr)
  /-- The position is none of the running command's. Raised by every meaning. Safe: no run reaches it (log 19). -/
  | noSuchPosition
deriving DecidableEq, Repr

/-- Why the model refuses. -/
inductive Refusal where
  /-- An instruction without a meaning yet. Raised by no arm of `exec` now. Safe. -/
  | notModelled (mnemonic : String)
  /-- A write of a reserved word to CMD: "the model refuses" it (30_encoding R78, 60_exceptions R162). Raised by an accepted CMD
  write. Safe; this outcome is the refusal mark of the run (log 7). -/
  | reservedCommand (why : Reserved) (w : Word)
  /-- A host register access that is not 32 bits wide and 4-byte aligned: "The model refuses" it (10_state R30). Raised
  by the host's turn. Safe (log 8). -/
  | hostAccessShape (offset width : Nat)
  /-- A host access to a buffer of the XFER_BUF in progress: "this spec gives such a run no meaning" (20_memory R61).
  Raised by the host's turn. Safe (log 11). -/
  | bufferRace (a : Addr)
  /-- A host access to a buffer-memory address the platform does not admit (20_memory R51). Raised by the host's
  turn. Safe (log 11). -/
  | hostAddressNotAdmitted (a : Addr)
deriving DecidableEq, Repr

/-- What a turn or a meaning answers. -/
abbrev Out := Host.Outcome State Fault Refusal

end Sys2Proof.Machine
end

