-- ==== Sys2Proof/Machine/Ops.lean ====
section
/-! DEFINITION. The named operations over buffer memory, pins and history: the memory primitives of 00_scope R13
and the pin primitives of 00_scope R12. The block takes no exception (60_exceptions R160, R169), so there is no exception
entry and no return among them; the one event from outside that abandons a command is the hardware reset. -/

namespace Sys2Proof.Machine

/-! ### Buffer memory -/

/-- What a byte that nothing has written reads as (log 6). -/
def Memory.fill : Byte := 0x00#8

/-- The byte at an address. -/
def Memory.lookup : Memory → Nat → Byte
  | [], _ => Memory.fill
  | (b, v) :: m, a => if a = b then v else Memory.lookup m a

/-- Memory with one byte changed, in canonical form. -/
def Memory.put : Memory → Nat → Byte → Memory
  | [], a, v => if v = Memory.fill then [] else [(a, v)]
  | (b, x) :: m, a, v =>
    if a < b then (if v = Memory.fill then (b, x) :: m else (a, v) :: (b, x) :: m)
    else if a = b then (if v = Memory.fill then m else (a, v) :: m)
    else (b, x) :: Memory.put m a v

/-- The canonical form from address `lo` up: addresses rise strictly and lie in the 32-bit space, and no entry
holds the byte an unlisted address reads as. -/
def Memory.wfFrom : Nat → Memory → Bool
  | _, [] => true
  | lo, (a, v) :: m =>
    decide (lo ≤ a) && decide (a < 2 ^ 32) && decide (v ≠ Memory.fill) && Memory.wfFrom (a + 1) m

/-- The canonical form. -/
def Memory.wf (m : Memory) : Bool := Memory.wfFrom 0 m

/-- The byte of buffer memory at an address. -/
def State.byteAt (s : State) (a : Addr) : Byte := Memory.lookup s.mem a.toNat

/-- The state with one byte of buffer memory changed. -/
def State.setByte (s : State) (a : Addr) (v : Byte) : State :=
  { s with mem := Memory.put s.mem a.toNat v }

/-- Whether a region holds an address. -/
def Region.holds (r : Region) (a : Addr) : Bool :=
  decide (r.base.toNat ≤ a.toNat) && decide (a.toNat < r.base.toNat + r.size)

/-- `bufmem_admits` (00_scope R9): the open parameter, or the map the state names. -/
def Admits.allows : Admits → Addr → Bool
  | .platform, a => Config.bufmemAdmits a
  | .regions rs, a => rs.any (fun r => r.holds a)

/-- Whether the platform of this state admits an address. -/
def State.admitted (s : State) (a : Addr) : Bool := s.env.admits.allows a

/-- `MemRead(a, 1)` (00_scope R13): the byte, and H with `MemRd(a, v)`; none where the address is not admitted. -/
def memRead (a : Addr) (s : State) : Option (Byte × State) :=
  if s.admitted a then
    some (s.byteAt a, { s with hist := s.hist ++ [.memRd a (s.byteAt a)] })
  else none

/-- `MemWrite(a, 1, v)` (00_scope R13): the byte stored, and H with `MemWr(a, v)`; none where the address is not
admitted. -/
def memWrite (a : Addr) (v : Byte) (s : State) : Option State :=
  if s.admitted a then
    some { s with mem := Memory.put s.mem a.toNat v, hist := s.hist ++ [.memWr a v] }
  else none

/-! ### Pins -/

/-- `SetClk(l)` (00_scope R12). -/
def setClk (l : Level) (s : State) : State :=
  { s with sclk := l, hist := s.hist ++ [.clk l] }

/-- `SetMosi(l)` (00_scope R12). -/
def setMosi (l : Level) (s : State) : State :=
  { s with mosi := l, hist := s.hist ++ [.mosi l] }

/-- `SetClkMosi(c, d)` (00_scope R12): both outputs in one action. -/
def setClkMosi (c d : Level) (s : State) : State :=
  { s with sclk := c, mosi := d, hist := s.hist ++ [.clkMosi c d] }

/-- The peripheral's answer to a sample taken with the clock just set to `l`: its next scripted answer, else
`miso_env(H ++ [Clk(l)])` (00_scope R12, 41_bit_transfer R105; log 2). -/
def State.misoAnswer (s : State) (l : Level) : Level :=
  match s.env.misoIn with
  | r :: _ => r
  | [] => Config.misoEnv (s.hist ++ [.clk l])

/-- What `SetClkSample(l)` leaves (00_scope R12): SCLK at `l`, H with `ClkSample(l, r)`, the answer used up. -/
def setClkSample (l : Level) (s : State) : State :=
  { s with
    sclk := l
    hist := s.hist ++ [.clkSample l (s.misoAnswer l)]
    env := { s.env with misoIn := s.env.misoIn.tail } }

/-- `WaitHalf` begins: `WAIT_REQ <- 1` (00_scope R12). -/
def raiseWait (s : State) : State := { s with waitReq := true }

/-- What follows a wait of `TransferBit` (41_bit_transfer R101). -/
def BitPos.afterWait : BitPos → BitPos
  | .wait1 => .lead
  | .wait2 => .trail
  | .drive => .drive
  | .lead => .lead
  | .trail => .trail

/-- What follows a wait of a command. -/
def Pos.afterWait : Pos → Pos
  | .bit p => .bit p.afterWait
  | .lines => .lines
  | .load => .load
  | .store => .store
  | .done => .done

/-- A running command past the wait it was held at. -/
def Running.afterWait (run : Running) : Running := { run with pos := run.pos.afterWait }

/-- `WaitHalf` ends, acknowledged: `WAIT_REQ <- 0`, H with `Wait`, the sequencer past the wait (00_scope R12; log 4). -/
def endWait (s : State) : State :=
  { s with
    waitReq := false
    hist := s.hist ++ [.wait]
    cur := s.cur.map Running.afterWait }

/-! ### The sequencer's registers -/

/-- `POS` and the working state moved on (10_state R36). -/
def goto (run : Running) (s : State) : State := { s with cur := some run }

/-- Command issue, in one step: `BUSY <- 1; CUR <- decode(w)` (10_state R32). -/
def issue (run : Running) (s : State) : State := { s with busy := true, cur := some run }

/-- The completion step (10_state R36): RXDATA written where the command has a result, `BUSY <- 0`, `CUR <- none`. -/
def complete (result : Option Word) (s : State) : State :=
  { s with rxdata := result.getD s.rxdata, busy := false, cur := none }

/-- Hardware reset (70_reset R180, R181): every register and pin of the block to its reset value, the command, the
outstanding wait and the held host write dropped, H with `Reset`; buffer memory and the collaborators stay (log 10). -/
def hardwareReset (s : State) : State :=
  { s with
    cfg := State.reset.cfg
    raddr := State.reset.raddr
    waddr := State.reset.waddr
    count := State.reset.count
    rxdata := State.reset.rxdata
    busy := State.reset.busy
    sclk := State.reset.sclk
    mosi := State.reset.mosi
    waitReq := State.reset.waitReq
    cur := State.reset.cur
    held := State.reset.held
    hist := s.hist ++ [.reset] }

end Sys2Proof.Machine
end

