-- ==== Sys2Proof/Machine/Flags.lean ====
section
/-! DEFINITION. The one flag, STATUS.BUSY (10_state R29), and the fields of CFG (10_state R22). There are no
condition codes: "No arithmetic sets or reads any flag". -/

namespace Sys2Proof.Machine

/-- CFG[0], CPOL: the idle clock level (10_state R22, R23). -/
def State.cpol (s : State) : Level := s.cfg.getLsbD 0

/-- CFG[1], CPHA: 1 samples on the trailing edge (10_state R22). -/
def State.cpha (s : State) : Bool := s.cfg.getLsbD 1

/-- CFG[2], LSBF: 1 is LSB-first (10_state R22). -/
def State.lsbf (s : State) : Bool := s.cfg.getLsbD 2

/-- CFG[7:4], WS: the configured word size, as written (10_state R22). -/
def State.ws (s : State) : BitVec 4 := slice 4 4 s.cfg

/-- `idle = CFG.CPOL` (10_state R23). -/
def State.idle (s : State) : Level := s.cpol

/-- `lead = NOT CFG.CPOL` (10_state R23). -/
def State.lead (s : State) : Level := !s.cpol

/-- The word STATUS reads as: `zext_32(BUSY)` (10_state R29). -/
def State.statusWord (s : State) : Word := bitWord s.busy

/-- The SPI mode number 2*CPOL + CPHA (00_scope R18, R19; log 16). No meaning reads it. -/
def State.spiMode (s : State) : Nat := 2 * s.cpol.toNat + s.cpha.toNat

end Sys2Proof.Machine
end

