-- ==== Sys2Proof/Machine/Operands.lean ====
section
/-! DEFINITION. The operands of the commands and of host accesses: the register map (10_state R21), the effective
word size (10_state R24), the masks of the shift register (42_byte_transfer R121) and the element addresses (20_memory
R52). The immediate operands B, D, RD and WR come with the decoded command (30_encoding R74). -/

namespace Sys2Proof.Machine

/-- The effective word size (10_state R24): 1 to 7 as configured, any other value acts as 8. -/
def effWS (ws : BitVec 4) : Nat := if 1 ≤ ws.toNat ∧ ws.toNat ≤ 7 then ws.toNat else 8

/-- `n = EffWS(CFG.WS)`. -/
def State.wordSize (s : State) : Nat := effWS s.ws

/-- `(1 << (n-1))[7:0]` (42_byte_transfer R121). -/
def topMask (n : Nat) : Byte := 1#8 <<< (n - 1)

/-- `zext_32` of a byte (10_state R28). -/
def byteWord (v : Byte) : Word := v.setWidth 32

/-- The register at a byte offset of the window (10_state R21); none outside the 32-byte window. -/
def Reg.ofOffset (offset : Nat) : Option Reg :=
  match offset with
  | 0x00 => some .cfg
  | 0x04 => some .raddr
  | 0x08 => some .waddr
  | 0x0C => some .count
  | 0x10 => some .cmd
  | 0x14 => some .rxdata
  | 0x18 => some .status
  | 0x1C => some .reserved
  | _ => none

/-- The bits of CFG that exist: CPOL, CPHA, LSBF and WS (10_state R22). -/
def cfgMask : Word := 0x000000F7#32

/-- The bits of RXDATA that exist: [7:0] (10_state R21). -/
def rxdataMask : Word := 0x000000FF#32

/-- What a host read of a register returns, "with unused bits 0" (10_state R21, R31). -/
def readReg (r : Reg) (s : State) : Word :=
  match r with
  | .cfg => s.cfg &&& cfgMask
  | .raddr => s.raddr
  | .waddr => s.waddr
  | .count => s.count
  | .cmd => 0#32
  | .rxdata => s.rxdata &&& rxdataMask
  | .status => s.statusWord
  | .reserved => 0#32

/-- An accepted host write to a register other than CMD (10_state R31): the storage registers take the bits the
map names, the read-only and reserved ones take nothing. CMD is no storage. -/
def writeReg (r : Reg) (v : Word) (s : State) : State :=
  match r with
  | .cfg => { s with cfg := v &&& cfgMask }
  | .raddr => { s with raddr := v }
  | .waddr => { s with waddr := v }
  | .count => { s with count := v }
  | .cmd => s
  | .rxdata => s
  | .status => s
  | .reserved => s

/-- The address of element k of the read buffer: `(RADDR + k) mod 2^32` (43_buffer_transfer R141). -/
def State.storeAddr (s : State) (k : BitVec 32) : Addr := s.raddr + k

/-- The address of element k of the write buffer: `(WADDR + k) mod 2^32` (43_buffer_transfer R141). -/
def State.loadAddr (s : State) (k : BitVec 32) : Addr := s.waddr + k

/-- Whether an address is one of `[base, base + COUNT)` modulo 2^32 (20_memory R61). -/
def inBuffer (base count : Word) (a : Addr) : Bool := decide ((a - base).toNat < count.toNat)

end Sys2Proof.Machine
end

