-- ==== Sys2Proof/Machine/Sequencer.lean ====
section
/-! DEFINITION. What the meanings of the commands share: the sequencer's step over a command (10_state R32, R36),
the edge engine `TransferBit` (41_bit_transfer R101) and the shift register `TransferByte` (42_byte_transfer R121),
each one action a step. Variable updates take no step (R121; 92_eei_decisions D28). -/

namespace Sys2Proof.Machine

/-- Working state of which the pseudocode has assigned nothing yet (10_state R37; log 12). -/
def Work.unassigned : Work where
  tx := Config.unassignedByte
  rx := Config.unassignedByte
  txmask := Config.unassignedByte
  rxmask := Config.unassignedByte
  t := Config.unassignedByte
  i := Config.unassignedIndex
  k := BitVec.ofNat 32 Config.unassignedIndex
  r := Config.unassignedLevel

/-- The sequencer's step over command `i` (log 14). With BUSY = 0 the command is issued (10_state R32). While a wait
is held "the block performs no action" (41_bit_transfer R107). With `i` in progress its next action is performed. With
another command in progress `i` is not accepted yet (10_state R31): nothing changes. -/
def sequence (i : Instr) (start : Running) (act : Running → Out) (s : State) : Out :=
  if s.busy = false then .next (issue start s)
  else if s.waitReq then .next s
  else
    match s.cur with
    | some run => if run.cmd = i then act run else .next s
    | none => .next s

/-! ### The edge engine -/

/-- `TransferBit`'s first action (41_bit_transfer R101): with CPHA = 0 it drives MOSI, with CPHA = 1 it waits. -/
def BitPos.first (cpha : Bool) : BitPos := if cpha then .wait1 else .drive

/-- One action of `TransferBit(b)` at position `p` (41_bit_transfer R101), for both phases; `finish` says what the
command does when the bit is over. -/
def bitStep (b : Level) (p : BitPos) (finish : Running → Running) (run : Running) (s : State) : State :=
  match p with
  | .drive => goto { run with pos := .bit .wait1 } (setMosi b s)
  | .wait1 => raiseWait s
  | .lead =>
    if s.cpha then goto { run with pos := .bit .wait2 } (setClkMosi s.lead b s)
    else
      goto { run with pos := .bit .wait2, work := { run.work with r := s.misoAnswer s.lead } }
        (setClkSample s.lead s)
  | .wait2 => raiseWait s
  | .trail =>
    if s.cpha then
      goto (finish { run with work := { run.work with r := s.misoAnswer s.idle } }) (setClkSample s.idle s)
    else goto (finish run) (setClk s.idle s)

/-! ### The shift register -/

/-- `(tx AND txmask) != 0` (42_byte_transfer R121). -/
def Work.txBit (w : Work) : Level := w.tx &&& w.txmask != 0#8

/-- `if r = 1 then rx <- rx OR rxmask` (42_byte_transfer R121). -/
def Work.collect (w : Work) : Work := if w.r then { w with rx := w.rx ||| w.rxmask } else w

/-- Both working bytes shifted one place: left for MSB-first, right for LSB-first (42_byte_transfer R121). -/
def Work.shift (lsbf : Bool) (w : Work) : Work :=
  if lsbf then { w with tx := w.tx >>> 1, rx := w.rx >>> 1 }
  else { w with tx := w.tx <<< 1, rx := w.rx <<< 1 }

/-- The assignments at the start of `TransferByte(d)` (42_byte_transfer R121). -/
def Work.startByte (d : Byte) (s : State) (w : Work) : Work :=
  { w with
    tx := d
    rx := 0x00#8
    txmask := if s.lsbf then 0x01#8 else topMask s.wordSize
    rxmask := if s.lsbf then topMask s.wordSize else 0x01#8
    i := 0 }

/-- The command at the first action of `TransferByte(d)`. -/
def startByte (d : Byte) (s : State) (run : Running) : Running :=
  { run with pos := .bit (BitPos.first s.cpha), work := run.work.startByte d s }

/-- After a bit of `TransferByte` (42_byte_transfer R121): the sampled bit goes into the accumulator; after "every bit
except the last" both bytes shift and the next bit begins; after the last one `finish` says what follows, with the
result in `rx`. -/
def nextBit (s : State) (finish : Running → Running) (run : Running) : Running :=
  let w := run.work.collect
  if w.i + 1 = s.wordSize then finish { run with work := w }
  else
    { run with
      pos := .bit (BitPos.first s.cpha)
      work := { w.shift s.lsbf with i := w.i + 1 } }

/-- The command at its completion step. -/
def toDone (run : Running) : Running := { run with pos := .done }

end Sys2Proof.Machine
end

