-- ==== Sys2Proof/Machine/BitTransfer.lean ====
section
/-! DEFINITION. XFER_BIT (41_bit_transfer). -/

namespace Sys2Proof.Machine

/-- XFER_BIT as issued: at the first action of `TransferBit` (10_state R32, 41_bit_transfer R104). -/
def startXferBit (b : Level) (s : State) : Running :=
  { cmd := .xferBit b, pos := .bit (BitPos.first s.cpha), work := Work.unassigned }

/-- XFER_BIT (41_bit_transfer R104): `TransferBit(B)`, then the completion step with `RXDATA <- zext_32(r)`. -/
def execXferBit (b : Level) (s : State) : Out :=
  sequence (.xferBit b) (startXferBit b s)
    (fun run =>
      match run.pos with
      | .bit p => .next (bitStep b p toDone run s)
      | .done => .next (complete (some (bitWord run.work.r)) s)
      | .lines => .fault .noSuchPosition
      | .load => .fault .noSuchPosition
      | .store => .fault .noSuchPosition)
    s

end Sys2Proof.Machine
end

