-- ==== Sys2Proof/Machine/BufferTransfer.lean ====
section
/-! DEFINITION. XFER_BUF (43_buffer_transfer). -/

namespace Sys2Proof.Machine

/-- The start of an element (43_buffer_transfer R141): its MemRead with a write buffer present, else `t <- 0x00` and
the first action of `TransferByte(t)`. -/
def startElement (wr : Bool) (s : State) (run : Running) : Running :=
  if wr then { run with pos := .load }
  else startByte 0x00#8 s { run with work := { run.work with t := 0x00#8 } }

/-- The end of an element: the next one, or the completion step after element COUNT - 1. -/
def nextElement (wr : Bool) (s : State) (run : Running) : Running :=
  if run.work.k + 1#32 = s.count then toDone run
  else startElement wr s { run with work := { run.work with k := run.work.k + 1#32 } }

/-- After the last pin action of an element: its MemWrite with a read buffer present, else the result is discarded. -/
def endByte (rd wr : Bool) (s : State) (run : Running) : Running :=
  if rd then { run with pos := .store } else nextElement wr s run

/-- XFER_BUF as issued: with COUNT = 0 "the command consists of its completion step alone" (43_buffer_transfer R146),
else at the start of element 0. -/
def startXferBuf (rd wr : Bool) (s : State) : Running :=
  let run : Running :=
    { cmd := .xferBuf rd wr, pos := .done, work := { Work.unassigned with k := 0#32 } }
  if s.count = 0#32 then run else startElement wr s run

/-- The MemRead of element k: `t <- MemRead((WADDR + k) mod 2^32, 1)` (43_buffer_transfer R141); an address that is not
admitted has no step (60_exceptions R164). -/
def loadStep (run : Running) (s : State) : Out :=
  match memRead (s.loadAddr run.work.k) s with
  | some (v, s') => .next (goto (startByte v s { run with work := { run.work with t := v } }) s')
  | none => .fault (.notAdmitted (s.loadAddr run.work.k))

/-- The MemWrite of element k: `MemWrite((RADDR + k) mod 2^32, 1, r)` (43_buffer_transfer R141); an address that is not
admitted has no step (60_exceptions R164). -/
def storeStep (wr : Bool) (run : Running) (s : State) : Out :=
  match memWrite (s.storeAddr run.work.k) run.work.rx s with
  | some s' => .next (goto (nextElement wr s run) s')
  | none => .fault (.notAdmitted (s.storeAddr run.work.k))

/-- XFER_BUF (43_buffer_transfer R141, R142): for each element the MemRead if WR = 1, `TransferByte`, the MemWrite if
RD = 1; then the completion step, RXDATA unchanged. -/
def execXferBuf (rd wr : Bool) (s : State) : Out :=
  sequence (.xferBuf rd wr) (startXferBuf rd wr s)
    (fun run =>
      match run.pos with
      | .load => loadStep run s
      | .bit p => .next (bitStep run.work.txBit p (nextBit s (endByte rd wr s)) run s)
      | .store => storeStep wr run s
      | .done => .next (complete none s)
      | .lines => .fault .noSuchPosition)
    s

end Sys2Proof.Machine
end

