-- ==== Sys2Proof/Machine/BusReset.lean ====
section
/-! DEFINITION. BUSRESET (40_bus_reset). -/

namespace Sys2Proof.Machine

/-- BUSRESET as issued (10_state R32). -/
def startBusReset : Running := { cmd := .busReset, pos := .lines, work := Work.unassigned }

/-- BUSRESET (40_bus_reset R90): one action, `SetClkMosi(CFG.CPOL, 0)`, then the completion step; RXDATA unchanged. -/
def execBusReset (s : State) : Out :=
  sequence .busReset startBusReset
    (fun run =>
      match run.pos with
      | .lines => .next (goto (toDone run) (setClkMosi s.cpol false s))
      | .done => .next (complete none s)
      | .load => .fault .noSuchPosition
      | .bit _ => .fault .noSuchPosition
      | .store => .fault .noSuchPosition)
    s

end Sys2Proof.Machine
end

