-- ==== Sys2Proof/Machine/ByteTransfer.lean ====
section
/-! DEFINITION. XFER_BYTE (42_byte_transfer). -/

namespace Sys2Proof.Machine

/-- XFER_BYTE as issued: at the first action of `TransferByte(D)` (10_state R32, 42_byte_transfer R123). -/
def startXferByte (d : Byte) (s : State) : Running :=
  startByte d s { cmd := .xferByte d, pos := .done, work := Work.unassigned }

/-- XFER_BYTE (42_byte_transfer R123): `TransferByte(D)`, then the completion step with `RXDATA <- zext_32(rx)`. -/
def execXferByte (d : Byte) (s : State) : Out :=
  sequence (.xferByte d) (startXferByte d s)
    (fun run =>
      match run.pos with
      | .bit p => .next (bitStep run.work.txBit p (nextBit s toDone) run s)
      | .done => .next (complete (some (byteWord run.work.rx)) s)
      | .lines => .fault .noSuchPosition
      | .load => .fault .noSuchPosition
      | .store => .fault .noSuchPosition)
    s

end Sys2Proof.Machine
end

