-- ==== Sys2Proof/Machine/Dispatch.lean ====
section
/-! DEFINITION. One arm per command (30_encoding R72). -/

namespace Sys2Proof.Machine

def exec (i : Instr) (s : State) : Host.Outcome State Fault Refusal :=
  match i with
  | .busReset => Sys2Proof.Machine.execBusReset s
  | .xferBit b => Sys2Proof.Machine.execXferBit b s
  | .xferByte d => Sys2Proof.Machine.execXferByte d s
  | .xferBuf rd wr => Sys2Proof.Machine.execXferBuf rd wr s

end Sys2Proof.Machine
end

