-- ==== Sys2Proof/Machine/Agents.lean ====
section
/-! DEFINITION. The turns of the agents (00_scope R17): the sequencer, the delay unit, the host (10_state R30, R31,
R32; 20_memory R61) and the hardware reset (70_reset R181), and whose turn it is. -/

namespace Sys2Proof.Machine

/-! ### The sequencer and the delay unit -/

/-- The sequencer's turn: one step of the command in progress (10_state R36), nothing while there is none (60_exceptions
R176). An address the platform does not admit "has no step: the sequencer is stuck at that action, BUSY stays 1"
(60_exceptions R164): the block stays as it is (log 5). -/
def sequencerTurn (s : State) : Out :=
  match s.cur with
  | none => .next s
  | some run =>
    match exec run.cmd s with
    | .next s' => .next s'
    | .fault (.notAdmitted _) => .next s
    | .fault .noSuchPosition => .fault .noSuchPosition
    | .refused r => .refused r

/-- The delay unit's turn: the acknowledgement of an outstanding wait (00_scope R12, 60_exceptions R165). -/
def delayTurn (s : State) : State := if s.waitReq then endWait s else s

/-! ### The host -/

/-- A write of `w` to CMD, accepted with BUSY = 0 (10_state R32): the decoded command is issued, a reserved word refused
(30_encoding R78). -/
def acceptCommand (w : Word) (s : State) : Out :=
  match decode w with
  | .command i => exec i s
  | .reserved why => .refused (.reservedCommand why w)

/-- An accepted host write (10_state R31). Beyond the window it "does not address the block" (10_state R30; log 9). -/
def acceptWrite (w : RegWrite) (s : State) : Out :=
  match Reg.ofOffset w.offset with
  | some .cmd => acceptCommand w.value s
  | some r => .next (writeReg r w.value s)
  | none => .next s

/-- The access shape the model takes: 32 bits wide, 4-byte aligned (10_state R30). -/
def accessShape (offset width : Nat) : Bool := decide (width = 32) && decide (offset % 4 = 0)

/-- Whether an offset lies in the 32-byte window (10_state R30). -/
def inWindow (offset : Nat) : Bool := decide (offset < 32)

/-- The host's next access is over. -/
def hostAdvance (s : State) : State :=
  { s with env := { s.env with hostProg := s.env.hostProg.tail } }

/-- A host read returned a value. -/
def logRead (v : ReadBack) (s : State) : State :=
  { s with env := { s.env with readLog := s.env.readLog ++ [v] } }

/-- A host register write (10_state R30, R31): refused in another shape, without effect on the block beyond the
window, held while BUSY = 1, else accepted. -/
def hostWrite (offset width : Nat) (v : Word) (s : State) : Out :=
  if accessShape offset width then
    if inWindow offset then
      if s.busy then .next { hostAdvance s with held := some ⟨offset, v⟩ }
      else acceptWrite ⟨offset, v⟩ (hostAdvance s)
    else .next (hostAdvance s)
  else .refused (.hostAccessShape offset width)

/-- A host register read, "accepted in any step, including while BUSY = 1" (10_state R31). -/
def hostRead (offset width : Nat) (s : State) : Out :=
  if accessShape offset width then
    match Reg.ofOffset offset with
    | some r => .next (logRead (.reg offset (readReg r s)) (hostAdvance s))
    | none => .next (hostAdvance s)
  else .refused (.hostAccessShape offset width)

/-- SYNC: "repeats `R STATUS` until the value read has BUSY = 0" (30_encoding R81; log 20). -/
def hostSync (s : State) : Out :=
  let s' := logRead (.reg 0x18 (readReg .status s)) s
  if s.busy then .next s' else .next (hostAdvance s')

/-- Whether a host access to buffer memory races with an XFER_BUF in progress (20_memory R61): a write to either
buffer, a read of the read buffer. -/
def racesBuffers (isWrite : Bool) (a : Addr) (s : State) : Bool :=
  match s.cur with
  | some ⟨.xferBuf _ _, _, _⟩ =>
    s.busy && (inBuffer s.raddr s.count a || (isWrite && inBuffer s.waddr s.count a))
  | some ⟨.busReset, _, _⟩ => false
  | some ⟨.xferBit _, _, _⟩ => false
  | some ⟨.xferByte _, _, _⟩ => false
  | none => false

/-- The host stores a byte into buffer memory (20_memory R60, R61; log 11). -/
def hostStore (a : Addr) (v : Byte) (s : State) : Out :=
  if racesBuffers true a s then .refused (.bufferRace a)
  else if s.admitted a then .next ((hostAdvance s).setByte a v)
  else .refused (.hostAddressNotAdmitted a)

/-- The host reads a byte of buffer memory (20_memory R60, R61; log 11). -/
def hostLoad (a : Addr) (s : State) : Out :=
  if racesBuffers false a s then .refused (.bufferRace a)
  else if s.admitted a then .next (logRead (.mem a (s.byteAt a)) (hostAdvance s))
  else .refused (.hostAddressNotAdmitted a)

/-- The host's turn: its next access; nothing while its write is held, when "the host does not proceed" (10_state R31),
and nothing once its program is over (70_reset R194). -/
def hostTurn (s : State) : Out :=
  if s.held.isSome then .next s
  else
    match s.env.hostProg with
    | [] => .next s
    | .write offset width v :: _ => hostWrite offset width v s
    | .read offset width :: _ => hostRead offset width s
    | .sync :: _ => hostSync s
    | .store a v :: _ => hostStore a v s
    | .load a :: _ => hostLoad a s

/-! ### Whose turn -/

/-- A held host write "is accepted at the first step with BUSY = 0" (10_state R31), whoever that turn was given to; in
every other state the turn is as given. -/
def orAcceptHeld (turn : State → Out) (s : State) : Out :=
  match s.held with
  | none => turn s
  | some w => if s.busy then turn s else acceptWrite w { s with held := none }

/-- The turn of one agent. A hardware reset "takes precedence over every other step" (60_exceptions R168), a held host
write that waits for BUSY = 0 over the other agents' moves. -/
def agentTurn (a : Agent) (s : State) : Out :=
  match a with
  | .reset => .next (hardwareReset s)
  | .sequencer => orAcceptHeld sequencerTurn s
  | .delayUnit => orAcceptHeld (fun s => .next (delayTurn s)) s
  | .host => orAcceptHeld hostTurn s

/-- Whose turn it is: the next of the state's schedule, else `Config.nextAgent` says (60_exceptions R168; log 1). -/
def nextAgent (s : State) : Agent :=
  match s.env.sched with
  | a :: _ => a
  | [] => Config.nextAgent s.env.turn

/-- One turn has been given. -/
def tick (s : State) : State :=
  { s with env := { s.env with sched := s.env.sched.tail, turn := s.env.turn + 1 } }

/-- The turns of a list of agents, one after the other, up to the first stop. -/
def runTurns : List Agent → State → Out
  | [], s => .next s
  | a :: as, s =>
    match agentTurn a s with
    | .next s' => runTurns as s'
    | .fault r => .fault r
    | .refused r => .refused r

/-- The state in which the next step is the host's accepted write of `w` to CMD: the sequencer idle, no write held,
no wait outstanding, the host's next access that write and the next turn the host's (log 13). -/
def offerCommand (w : Word) (s : State) : State :=
  { s with
    busy := false
    waitReq := false
    cur := none
    held := none
    env :=
      { s.env with
        sched := .host :: s.env.sched
        hostProg := .write 0x10 32 w :: s.env.hostProg } }

end Sys2Proof.Machine
end

