-- ==== Sys2Proof/Machine/Step.lean ====
section
/-! DEFINITION. One step of the machine: one turn of the agent whose turn it is (60_exceptions R168). -/

namespace Sys2Proof.Machine

/-- One step. The block fetches no instruction (10_state R36, 20_memory R64): a command comes with an accepted write to CMD,
which runs `exec` of the decoded command, and the sequencer's turns run `exec` of the command in progress. -/
def step (s : State) : Host.Outcome State Fault Refusal := agentTurn (nextAgent s) (tick s)

/-- `s` with a command word offered so that the next step runs it: the host's next access writes it to CMD (log 13). -/
def State.withFetchWord (s : State) (nbits w : Nat) : State := offerCommand (tableWord nbits w) s

end Sys2Proof.Machine
end

