-- ==== Sys2Proof/Machine/Pseudocode.lean ====
section
/-! DEFINITION. The commands' pseudocode run in one go, as the spec prints it: `TransferBit` (41_bit_transfer R101),
`TransferByte` (42_byte_transfer R121), `TransferBuffer` (43_buffer_transfer R141) and the four commands (R90, R104,
R123, R142) over the pin and memory primitives. The machine does not use it: it is what the sequencer's steps are
compared with. -/

namespace Sys2Proof.Machine

/-- `WaitHalf()` from request to acknowledgement, for a run in one go: H with `Wait` (00_scope R12). -/
def waitHalf (s : State) : State := { s with hist := s.hist ++ [.wait] }

/-- `TransferBit(b)` (41_bit_transfer R101). -/
def transferBit (b : Level) (s : State) : Level × State :=
  let idle := s.cpol
  let lead := !s.cpol
  if s.cpha = false then
    let s := setMosi b s
    let s := waitHalf s
    let r := s.misoAnswer lead
    let s := setClkSample lead s
    let s := waitHalf s
    let s := setClk idle s
    (r, s)
  else
    let s := waitHalf s
    let s := setClkMosi lead b s
    let s := waitHalf s
    let r := s.misoAnswer idle
    let s := setClkSample idle s
    (r, s)

/-- The loop of `TransferByte` with `m` bits left (42_byte_transfer R121). -/
def transferBits (lsbf : Bool) (txmask rxmask : Byte) : Nat → Byte → Byte → State → Byte × State
  | 0, _, rx, s => (rx, s)
  | m + 1, tx, rx, s =>
    let (r, s) := transferBit (tx &&& txmask != 0#8) s
    let rx := if r then rx ||| rxmask else rx
    if m = 0 then (rx, s)
    else if lsbf then transferBits lsbf txmask rxmask m (tx >>> 1) (rx >>> 1) s
    else transferBits lsbf txmask rxmask m (tx <<< 1) (rx <<< 1) s

/-- `TransferByte(d)` (42_byte_transfer R121). -/
def transferByte (d : Byte) (s : State) : Byte × State :=
  if s.lsbf then transferBits true 0x01#8 (topMask s.wordSize) s.wordSize d 0x00#8 s
  else transferBits false (topMask s.wordSize) 0x01#8 s.wordSize d 0x00#8 s

/-- One element of `TransferBuffer` (43_buffer_transfer R141); none where an address is not admitted. -/
def transferElement (rd wr : Bool) (k : BitVec 32) (s : State) : Option State :=
  let fetched := if wr then memRead (s.loadAddr k) s else some (0x00#8, s)
  match fetched with
  | none => none
  | some (t, s) =>
    let (r, s) := transferByte t s
    if rd then memWrite (s.storeAddr k) r s else some s

/-- `TransferBuffer(rd, wr)` with `m` elements left, from element `k` (43_buffer_transfer R141). -/
def transferBuffer (rd wr : Bool) : Nat → BitVec 32 → State → Option State
  | 0, _, s => some s
  | m + 1, k, s =>
    match transferElement rd wr k s with
    | none => none
    | some s => transferBuffer rd wr m (k + 1#32) s

/-- A command from issue to completion, run in one go; none where an address it needs is not admitted. -/
def runCommand (i : Instr) (s : State) : Option State :=
  match i with
  | .busReset => some (complete none (setClkMosi s.cpol false s))
  | .xferBit b =>
    let (r, s) := transferBit b s
    some (complete (some (bitWord r)) s)
  | .xferByte d =>
    let (rx, s) := transferByte d s
    some (complete (some (byteWord rx)) s)
  | .xferBuf rd wr => (transferBuffer rd wr s.count.toNat 0#32 s).map (complete none)

/-- The number of primitive actions of a command (70_reset R192): pin, wait and memory actions. -/
def actionCount (i : Instr) (s : State) : Nat :=
  let perBit := if s.cpha then 4 else 5
  match i with
  | .busReset => 1
  | .xferBit _ => perBit
  | .xferByte _ => perBit * s.wordSize
  | .xferBuf rd wr => s.count.toNat * (rd.toNat + perBit * s.wordSize + wr.toNat)

/-- The turns in which the sequencer and a prompt delay unit alternate `m` times: one primitive action a pair. -/
def promptTurns : Nat → List Agent
  | 0 => []
  | m + 1 => .sequencer :: .delayUnit :: promptTurns m

end Sys2Proof.Machine
end

