-- ==== Sys2Proof/Safety.lean ====
section
/-! DEFINITION. The terms the statements use: the invariant of the machine, the end of a run (70_reset R194), and
readings of the history H (edges, pin levels, traces, loopback). -/

namespace Sys2Proof.Machine

/-! ### The invariant -/

/-- The accumulator holds no bit the word size does not have yet (42_byte_transfer R127): with `i` bits collected and
shifted, MSB-first stays below bit `i + 1`, LSB-first below bit `n`. -/
def Work.rxFits (s : State) (w : Work) : Bool :=
  if s.lsbf then decide (w.rx.toNat < 2 ^ s.wordSize) else decide (w.rx.toNat < 2 ^ (w.i + 1))

/-- The shift register inside a byte: index below `n`, masks as assigned at its start (42_byte_transfer R121). -/
def Work.shiftOk (s : State) (w : Work) : Bool :=
  decide (w.i < s.wordSize) &&
    (w.txmask == if s.lsbf then 0x01#8 else topMask s.wordSize) &&
    (w.rxmask == if s.lsbf then topMask s.wordSize else 0x01#8) &&
    w.rxFits s

/-- A finished byte has `[7:n] = 0` (42_byte_transfer R127). -/
def Work.resultFits (s : State) (w : Work) : Bool := decide (w.rx.toNat < 2 ^ s.wordSize)

/-- A position of `TransferBit` that its phase has: `drive` only with CPHA = 0 (41_bit_transfer R101). -/
def BitPos.ofPhase (cpha : Bool) (p : BitPos) : Bool := !(cpha && p == .drive)

/-- The position is one of the running command's, and the working state is what its pseudocode keeps there. -/
def Running.legal (s : State) (run : Running) : Bool :=
  match run.cmd, run.pos with
  | .busReset, .lines => true
  | .busReset, .done => true
  | .xferBit _, .bit p => p.ofPhase s.cpha
  | .xferBit _, .done => true
  | .xferByte _, .bit p => p.ofPhase s.cpha && run.work.shiftOk s
  | .xferByte _, .done => run.work.resultFits s
  | .xferBuf _ wr, .load => wr && decide (run.work.k < s.count)
  | .xferBuf _ _, .bit p => p.ofPhase s.cpha && run.work.shiftOk s && decide (run.work.k < s.count)
  | .xferBuf rd _, .store => rd && run.work.resultFits s && decide (run.work.k < s.count)
  | .xferBuf _ _, .done => true
  | _, _ => false

/-- Whether a position is a `WaitHalf`. -/
def Pos.isWait : Pos → Bool
  | .bit .wait1 => true
  | .bit .wait2 => true
  | _ => false

/-- The invariant: the reserved bits of CFG and RXDATA are 0 (10_state R21, R22), BUSY is 1 exactly while a command is
in progress (10_state R29, R36), WAIT_REQ is 1 only while a `WaitHalf` is held (10_state R35), the position is the running
command's (10_state R36), a held write is one of the window (10_state R30, R31), buffer memory is in canonical form. -/
def State.inv (s : State) : Bool :=
  (s.cfg &&& cfgMask == s.cfg) &&
    (s.rxdata &&& rxdataMask == s.rxdata) &&
    (s.busy == s.cur.isSome) &&
    (!s.waitReq || s.cur.any (fun run => run.pos.isWait)) &&
    s.cur.all (fun run => run.legal s) &&
    s.held.all (fun w => accessShape w.offset 32 && inWindow w.offset) &&
    Memory.wf s.mem

/-- Nothing in progress, no wait outstanding and no host write held: the state a command is issued in. -/
def State.ready (s : State) : Bool := !s.busy && !s.waitReq && s.held.isNone

/-- The end of a run: the host has performed its last access, BUSY = 0, WAIT_REQ = 0 (70_reset R194). -/
def State.ended (s : State) : Bool :=
  s.env.hostProg.isEmpty && s.held.isNone && !s.busy && !s.waitReq

/-! ### Readings of H -/

/-- The levels of SCLK and MOSI after an event, from those before it (00_scope R12, 70_reset R180). -/
def pinsAfter (p : Level × Level) : Event → Level × Level
  | .clk l => (l, p.2)
  | .mosi l => (p.1, l)
  | .clkMosi c d => (c, d)
  | .clkSample l _ => (l, p.2)
  | .wait => p
  | .memRd _ _ => p
  | .memWr _ _ => p
  | .reset => (false, false)

/-- The levels of SCLK and MOSI that a history ends with. -/
def pinsOf (h : List Event) : Level × Level := h.foldl pinsAfter (false, false)

/-- The edges of a trace that starts with SCLK at `c`: each action that changes the level of SCLK, as the level it
changes to (00_scope R16). R16 does not say whether a hardware reset is such an action: a `Reset` that lowers SCLK is counted
here (DESIGN CHOICE, log 26). -/
def edges : Level → List Event → List Level
  | _, [] => []
  | c, e :: tr =>
    let c' := (pinsAfter (c, false) e).1
    if c' = c then edges c' tr else c' :: edges c' tr

/-- Every sample of a trace that starts with MOSI at `m` answered with the MOSI level at that instant: the external
loopback of 41_bit_transfer R112. -/
def mirrors : Level → List Event → Bool
  | _, [] => true
  | m, e :: tr =>
    (match e with
      | .clkSample _ r => r == m
      | _ => true) && mirrors (pinsAfter (false, m) e).2 tr

/-- The trace of one bit (41_bit_transfer R102, R103): `b` driven and `r` sampled. -/
def bitTrace (cpol cpha : Bool) (b r : Level) : List Event :=
  if cpha then [.wait, .clkMosi (!cpol) b, .wait, .clkSample cpol r]
  else [.mosi b, .wait, .clkSample (!cpol) r, .wait, .clk cpol]

/-- The trace of a byte: the traces of its bits, "with nothing between them" (42_byte_transfer R121). -/
def byteTrace (cpol cpha : Bool) (sent got : List Level) : List Event :=
  (List.zipWith (bitTrace cpol cpha) sent got).flatten

/-- The bits of `d` in wire order: MSB-first `d[n-1]` down to `d[0]` (42_byte_transfer R122), LSB-first `d[0]` up to
`d[n-1]` (42_byte_transfer R124). -/
def wireBits (lsbf : Bool) (n : Nat) (d : Byte) : List Level :=
  (List.range n).map (fun j => if lsbf then d.getLsbD j else d.getLsbD (n - 1 - j))

/-- The bytes the MemReads of a trace returned, in order. -/
def readBytes : List Event → List Byte
  | [] => []
  | .memRd _ v :: tr => v :: readBytes tr
  | _ :: tr => readBytes tr

/-- The bytes the MemWrites of a trace stored, in order. -/
def writtenBytes : List Event → List Byte
  | [] => []
  | .memWr _ v :: tr => v :: writtenBytes tr
  | _ :: tr => writtenBytes tr

/-- The memory actions of a trace, in order. -/
def memActions (tr : List Event) : List Event :=
  tr.filter (fun e =>
    match e with
    | .memRd _ _ => true
    | .memWr _ _ => true
    | _ => false)

/-- An event drives MOSI to a level other than 0. -/
def drivesMosiHigh : Event → Bool
  | .mosi l => l
  | .clkMosi _ d => d
  | _ => false

/-- Every element of the buffers a command uses lies at an admitted address. -/
def State.buffersAdmitted (s : State) (rd wr : Bool) : Prop :=
  ∀ k : BitVec 32, k < s.count →
    (rd = true → s.admitted (s.storeAddr k) = true) ∧ (wr = true → s.admitted (s.loadAddr k) = true)

/-- The received bits `got` stand in `r` as the closed forms of 42_byte_transfer R122 (MSB-first: `r[n-1-j] = got_j`)
and R124 (LSB-first: `r[j] = got_j`) place them, and `r[7:n] = 0`. -/
def Received (lsbf : Bool) (n : Nat) (got : List Level) (r : Byte) : Prop :=
  (∀ j (h : j < got.length), r.getLsbD (if lsbf then j else n - 1 - j) = got[j]) ∧
    ∀ m, n ≤ m → r.getLsbD m = false

/-- One element of a buffer transfer: the byte sent, the bits sampled, the byte they make. -/
structure Element where
  t : Byte
  got : List Level
  r : Byte
deriving DecidableEq, Repr

/-- The trace of element `k` (43_buffer_transfer R141): its MemRead if any, its byte, its MemWrite if any. -/
def elementTrace (s : State) (rd wr : Bool) (k : Nat) (e : Element) : List Event :=
  (if wr then [.memRd (s.loadAddr (BitVec.ofNat 32 k)) e.t] else []) ++
    byteTrace s.cpol s.cpha (wireBits s.lsbf s.wordSize e.t) e.got ++
    (if rd then [.memWr (s.storeAddr (BitVec.ofNat 32 k)) e.r] else [])

/-- Buffer memory after the MemWrites of a list of elements, the first of them element `k`. -/
def storeElements (s : State) (rd : Bool) : Nat → List Element → Memory → Memory
  | _, [], m => m
  | k, e :: es, m =>
    storeElements s rd (k + 1) es
      (if rd then Memory.put m (s.storeAddr (BitVec.ofNat 32 k)).toNat e.r else m)

/-! ### Situations -/

/-- A command is in progress at a position where the sequencer can move. -/
def InProgress (s : State) (run : Running) : Prop :=
  s.busy = true ∧ s.waitReq = false ∧ s.cur = some run

/-- The next step is the host's access `op`. -/
def HostOffers (s : State) (op : HostOp) : Prop :=
  nextAgent s = .host ∧ s.held = none ∧ s.env.hostProg.head? = some op

/-- The bit a transfer command transmits at its present bit: XFER_BIT its operand, the others the bit under the
transmit mask (42_byte_transfer R121). -/
def Running.sentBit (run : Running) : Level :=
  match run.cmd with
  | .busReset => false
  | .xferBit b => b
  | .xferByte _ => run.work.txBit
  | .xferBuf _ _ => run.work.txBit

/-- The operand registers of two states agree (10_state R32). -/
def SameOperands (s t : State) : Prop :=
  t.cfg = s.cfg ∧ t.raddr = s.raddr ∧ t.waddr = s.waddr ∧ t.count = s.count

/-- The collaborators of two states agree but for the peripheral's used-up answers. -/
def SameEnv (s t : State) : Prop :=
  t.env.admits = s.env.admits ∧ t.env.sched = s.env.sched ∧ t.env.turn = s.env.turn ∧
    t.env.hostProg = s.env.hostProg ∧ t.env.readLog = s.env.readLog

/-- CFG with WS set to 8. -/
def State.withWS8 (s : State) : State := { s with cfg := (s.cfg &&& 0xFFFFFF0F#32) ||| 0x00000080#32 }

/-- The number of primitive actions of one bit: five with CPHA = 0, four with CPHA = 1 (41_bit_transfer R102, R103). -/
def State.actionsPerBit (s : State) : Nat := if s.cpha then 4 else 5

/-- A sample. -/
def Event.isSample : Event → Bool
  | .clkSample _ _ => true
  | _ => false

end Sys2Proof.Machine
end

