-- ==== Sys2Proof/Certificates/Slice0/Obligations.lean ====
section
/-! DEFINITION. The statements for the provers. Each docstring names the rule of spec/ it formalises. -/

open Sys2Proof Sys2Proof.Machine

/-! ### Encoding -/

/-- The words of 95_test_vectors V-L2-ENC-1 decode as that table says. -/
def Obligations.SpecWordsDecode : Prop :=
  decode 0x00000001#32 = .command .busReset ∧
  decode 0x00000011#32 = .reserved .mustBeZero ∧
  decode 0x00000002#32 = .command (.xferBit false) ∧
  decode 0x00000102#32 = .command (.xferBit true) ∧
  decode 0x00000202#32 = .reserved .mustBeZero ∧
  decode 0x00008703#32 = .command (.xferByte 0x87#8) ∧
  decode 0x0000FF03#32 = .command (.xferByte 0xFF#8) ∧
  decode 0x00010003#32 = .reserved .mustBeZero ∧
  decode 0x00000013#32 = .reserved .mustBeZero ∧
  decode 0x00000004#32 = .command .xferClocks ∧
  decode 0x00000014#32 = .command .read ∧
  decode 0x00000024#32 = .command .write ∧
  decode 0x00000034#32 = .command .xferDuplex ∧
  decode 0x00000044#32 = .reserved .mustBeZero ∧
  decode 0x00000104#32 = .reserved .mustBeZero ∧
  decode 0x00000000#32 = .reserved .opcode ∧
  (∀ op : BitVec 4, 5 ≤ op.toNat → decode (op.setWidth 32) = .reserved .opcode) ∧
  decode 0x80000001#32 = .reserved .mustBeZero

/-- Every command's word decodes to it, with every operand at every value. -/
def Obligations.EncodeThenDecode : Prop :=
  ∀ i : Instr, decode (encode i) = .command i

/-- A word that decodes to a command is that command's one word. -/
def Obligations.DecodeThenEncode : Prop :=
  ∀ (w : Word) (i : Instr), decode w = .command i → encode i = w

/-- 30_encoding R73: the layouts, the match/mask table, and that the rows are pairwise disjoint. -/
def Obligations.DecodeAgreesWithMatchMask : Prop :=
  (∀ w : Word,
    ((decode w).mnemonic? = some "BUSRESET" ↔ w &&& 0xFFFFFFFF#32 = 0x00000001#32) ∧
    ((decode w).mnemonic? = some "XFER_BIT" ↔ w &&& 0xFFFFFEFF#32 = 0x00000002#32) ∧
    ((decode w).mnemonic? = some "XFER_BYTE" ↔ w &&& 0xFFFF00FF#32 = 0x00000003#32) ∧
    ((decode w).mnemonic? = some "XFER_BUF" ↔ w &&& 0xFFFFFFCF#32 = 0x00000004#32)) ∧
  decode 0x00000001#32 = .command .busReset ∧
  (∀ b : Level, decode (0x00000002#32 ||| (bitWord b <<< 8)) = .command (.xferBit b)) ∧
  (∀ d : Byte, decode (0x00000003#32 ||| (d.setWidth 32 <<< 8)) = .command (.xferByte d)) ∧
  (∀ rd wr : Bool,
    decode (0x00000004#32 ||| (bitWord wr <<< 5) ||| (bitWord rd <<< 4)) = .command (.xferBuf rd wr)) ∧
  encodingTable.Pairwise (fun r q => ∀ w : Word, ¬ (r.matches w = true ∧ q.matches w = true))

/-- 30_encoding R78: which words are reserved, and that the model refuses an accepted write of one to CMD. -/
def Obligations.ReservedWordsAreRefused : Prop :=
  (∀ w : Word,
    (decode w = .reserved .opcode ↔ (slice 0 4 w).toNat = 0 ∨ 5 ≤ (slice 0 4 w).toNat) ∧
    (decode w = .reserved .mustBeZero ↔
      ((slice 0 4 w).toNat = 1 ∧ slice 4 28 w ≠ 0) ∨
      ((slice 0 4 w).toNat = 2 ∧ (slice 4 4 w ≠ 0 ∨ slice 9 23 w ≠ 0)) ∨
      ((slice 0 4 w).toNat = 3 ∧ (slice 4 4 w ≠ 0 ∨ slice 16 16 w ≠ 0)) ∨
      ((slice 0 4 w).toNat = 4 ∧ slice 6 26 w ≠ 0))) ∧
  (∀ (s : State) (w : Word) (why : Reserved),
    decode w = .reserved why → HostOffers s (.write 0x10 32 w) → s.busy = false →
    step s = .refused (.reservedCommand why w)) ∧
  (∀ (s : State) (w : Word) (why : Reserved),
    decode w = .reserved why → s.held = some ⟨0x10, w⟩ → s.busy = false → nextAgent s ≠ .reset →
    step s = .refused (.reservedCommand why w))

/-- 30_encoding R79: the word of each assembler line, and that an operand out of range is never encoded. The last four
lines are the pseudo-commands of R80. -/
def Obligations.AssemblerWords : Prop :=
  AsmLine.encode .busReset = some 0x00000001#32 ∧
  (∀ b : Nat, AsmLine.encode (.xferBit b) =
    if b < 2 then some (0x00000002#32 ||| (BitVec.ofNat 32 b <<< 8)) else none) ∧
  (∀ d : Nat, AsmLine.encode (.xferByte d) =
    if d < 256 then some (0x00000003#32 ||| (BitVec.ofNat 32 d <<< 8)) else none) ∧
  (∀ r w : Nat, AsmLine.encode (.xferBuf r w) =
    if r < 2 ∧ w < 2 then
      some (0x00000004#32 ||| (BitVec.ofNat 32 w <<< 5) ||| (BitVec.ofNat 32 r <<< 4))
    else none) ∧
  AsmLine.encode .read = some 0x00000014#32 ∧
  AsmLine.encode .write = some 0x00000024#32 ∧
  AsmLine.encode .xferDuplex = some 0x00000034#32 ∧
  AsmLine.encode .xferClocks = some 0x00000004#32

/-! ### A step runs the decoded command -/

/-- An accepted write to CMD, fresh or held, runs `exec` of the command its word decodes to; around it the step takes
one turn off the schedule and moves the host past its access (or releases the held write). -/
def Obligations.StepRunsAcceptedCommand : Prop :=
  ∀ (s : State) (w : Word) (i : Instr), decode w = .command i → s.busy = false →
    (HostOffers s (.write 0x10 32 w) → step s = exec i (hostAdvance (tick s))) ∧
    (s.held = some ⟨0x10, w⟩ → nextAgent s ≠ .reset → step s = exec i { tick s with held := none })

/-- The sequencer's turn runs `exec` of the command in progress; an address that is not admitted leaves the block as it
is. That step leaves such a block as it is rather than stopping is the model's choice (log 5). -/
def Obligations.StepRunsCommandInProgress : Prop :=
  ∀ (s : State) (run : Running), nextAgent s = .sequencer → s.busy = true → s.cur = some run →
    (∀ t, exec run.cmd (tick s) = .next t → step s = .next t) ∧
    (∀ a, exec run.cmd (tick s) = .fault (.notAdmitted a) → step s = .next (tick s)) ∧
    (exec run.cmd (tick s) = .fault .noSuchPosition → step s = .fault .noSuchPosition)

/-- After `withFetchWord` the next step runs the command the word encodes, on the state with the sequencer idle. That a
word comes to run as a host write offered next is the model's choice (log 13). -/
def Obligations.StepRunsFetchedWord : Prop :=
  ∀ (s : State) (i : Instr),
    step (s.withFetchWord 32 (encode i).toNat) =
      exec i
        { s with
          busy := false
          waitReq := false
          cur := none
          held := none
          env := { s.env with turn := s.env.turn + 1 } }

/-- Running the machine over a scripted schedule is running its turns one after the other. The spec has the agents step
in any interleaving (60_exceptions R168); that State can carry one as a script is the model's choice (log 1), and this
statement ties that script to `step`. -/
def Obligations.ScheduleDrivesStep : Prop :=
  ∀ (turns rest : List Agent) (s u : State),
    runTurns turns s = .next u →
    Host.Core.run Sys2Proof.core turns.length { s with env := { s.env with sched := turns ++ rest } } =
      .next { u with env := { u.env with sched := rest, turn := s.env.turn + turns.length } }

/-! ### Hardware reset -/

/-- 70_reset R180: the values after a hardware reset, from any state and in `State.reset`. -/
def Obligations.HardwareResetValues : Prop :=
  (∀ s : State, nextAgent s = .reset →
    ∃ u, step s = .next u ∧
      u.cfg = 0#32 ∧ u.raddr = 0#32 ∧ u.waddr = 0#32 ∧ u.count = 0#32 ∧ u.rxdata = 0#32 ∧
      readReg .status u = 0#32 ∧ u.busy = false ∧
      u.sclk = false ∧ u.mosi = false ∧ u.waitReq = false ∧ u.cur = none ∧
      u.hist = s.hist ++ [.reset] ∧
      u.cpol = false ∧ u.cpha = false ∧ u.lsbf = false ∧ u.ws = 0#4 ∧ u.wordSize = 8 ∧
      u.sclk = u.cpol) ∧
  State.reset.cfg = 0#32 ∧ State.reset.raddr = 0#32 ∧ State.reset.waddr = 0#32 ∧
  State.reset.count = 0#32 ∧ State.reset.rxdata = 0#32 ∧ readReg .status State.reset = 0#32 ∧
  State.reset.busy = false ∧ State.reset.sclk = false ∧ State.reset.mosi = false ∧
  State.reset.waitReq = false ∧ State.reset.cur = none ∧ State.reset.hist = [.reset]

/-- 70_reset R181: a reset in any step abandons the command at once; no later turn of the sequencer or the delay unit
does anything of it; buffer memory stays; the held write and the wait request are gone. -/
def Obligations.HardwareResetAbandonsCommand : Prop :=
  ∀ s : State, nextAgent s = .reset →
    ∃ u, step s = .next u ∧
      u.cur = none ∧ u.busy = false ∧ u.waitReq = false ∧ u.held = none ∧
      u.rxdata = 0#32 ∧ u.cfg = 0#32 ∧ u.raddr = 0#32 ∧ u.waddr = 0#32 ∧ u.count = 0#32 ∧
      u.sclk = false ∧ u.mosi = false ∧
      u.mem = s.mem ∧ u.hist = s.hist ++ [.reset] ∧
      ∀ turns : List Agent, (∀ a ∈ turns, a = .sequencer ∨ a = .delayUnit) → runTurns turns u = .next u

/-! ### The host -/

/-- An accepted register write (10_state R31, R22): the storage registers take the bits the map names, CFG all but
bit 3 and [31:8], and the read-only and reserved registers take nothing; nothing else of the block changes. -/
def Obligations.AcceptedRegisterWrites : Prop :=
  ∀ (s : State) (offset : Nat) (v : Word), HostOffers s (.write offset 32 v) → s.busy = false →
    (offset = 0x00 →
      ∃ u, step s = .next u ∧ u = { hostAdvance (tick s) with cfg := v &&& 0x000000F7#32 } ∧
        readReg .cfg u = v &&& 0x000000F7#32 ∧
        u.cpol = v.getLsbD 0 ∧ u.cpha = v.getLsbD 1 ∧ u.lsbf = v.getLsbD 2 ∧ u.ws = slice 4 4 v) ∧
    (offset = 0x04 → step s = .next { hostAdvance (tick s) with raddr := v }) ∧
    (offset = 0x08 → step s = .next { hostAdvance (tick s) with waddr := v }) ∧
    (offset = 0x0C → step s = .next { hostAdvance (tick s) with count := v }) ∧
    (offset = 0x14 ∨ offset = 0x18 ∨ offset = 0x1C → step s = .next (hostAdvance (tick s)))

/-- The write stall (10_state R31): while BUSY = 1 a host write is held and the host does not proceed, whatever
turns without a reset pass; the held write is accepted at the first step with BUSY = 0. -/
def Obligations.HostWriteStallsWhileBusy : Prop :=
  (∀ (s : State) (offset : Nat) (v : Word), HostOffers s (.write offset 32 v) → s.busy = true →
    offset % 4 = 0 → offset < 32 →
    step s = .next { hostAdvance (tick s) with held := some ⟨offset, v⟩ }) ∧
  (∀ (s t : State) (w : RegWrite), s.held = some w → s.busy = true → nextAgent s ≠ .reset → step s = .next t →
    t.held = some w ∧ t.env.hostProg = s.env.hostProg ∧ t.env.readLog = s.env.readLog ∧ SameOperands s t) ∧
  (∀ (s : State) (w : RegWrite), s.held = some w → s.busy = false → nextAgent s ≠ .reset →
    step s = acceptWrite w { tick s with held := none })

/-- A host read is accepted in any step, BUSY or not, and returns what the register map says, unused bits 0; the block
does not change (10_state R21, R31). -/
def Obligations.RegisterReadsAnyTime : Prop :=
  ∀ (s : State) (offset : Nat), HostOffers s (.read offset 32) → offset % 4 = 0 → offset < 32 →
    ∃ v : Word, step s = .next (logRead (.reg offset v) (hostAdvance (tick s))) ∧
      (offset = 0x00 → v = s.cfg &&& 0x000000F7#32) ∧
      (offset = 0x04 → v = s.raddr) ∧
      (offset = 0x08 → v = s.waddr) ∧
      (offset = 0x0C → v = s.count) ∧
      (offset = 0x10 → v = 0#32) ∧
      (offset = 0x14 → v = s.rxdata &&& 0x000000FF#32) ∧
      (offset = 0x18 → v = if s.busy then 1#32 else 0#32) ∧
      (offset = 0x1C → v = 0#32)

/-- A host read and a sequencer step never conflict (60_exceptions R168): in either order the block ends the same, and the read
returns the register's value at its own point of the interleaving. -/
def Obligations.HostReadCommutesWithSequencer : Prop :=
  ∀ (s t : State) (offset : Nat) (r : Reg),
    s.held = none → s.env.hostProg.head? = some (.read offset 32) → offset % 4 = 0 →
    Reg.ofOffset offset = some r → agentTurn .sequencer s = .next t →
    agentTurn .host s = .next (logRead (.reg offset (readReg r s)) (hostAdvance s)) ∧
    agentTurn .sequencer (logRead (.reg offset (readReg r s)) (hostAdvance s)) =
      .next (logRead (.reg offset (readReg r s)) (hostAdvance t)) ∧
    agentTurn .host t = .next (logRead (.reg offset (readReg r t)) (hostAdvance t))

/-- 10_state R30: an access of another width or off a 4-byte boundary is refused; an aligned 32-bit access beyond the
window does not address the block. Two clauses are the model's choice: that a bad shape is refused beyond the window too
(log 8), and that the host proceeds after a well-shaped access beyond it (log 9). -/
def Obligations.HostAccessShapeRefused : Prop :=
  ∀ (s : State) (offset width : Nat) (v : Word),
    (width ≠ 32 ∨ offset % 4 ≠ 0 →
      (HostOffers s (.write offset width v) → step s = .refused (.hostAccessShape offset width)) ∧
      (HostOffers s (.read offset width) → step s = .refused (.hostAccessShape offset width))) ∧
    (width = 32 ∧ offset % 4 = 0 ∧ 32 ≤ offset →
      (HostOffers s (.write offset width v) → step s = .next (hostAdvance (tick s))) ∧
      (HostOffers s (.read offset width) → step s = .next (hostAdvance (tick s))))

/-- While an XFER_BUF is in progress the host neither writes its buffers nor reads its read buffer (20_memory R61): the
model refuses such a move by name, and gives the host every other access to an admitted address. The refusal by name
stands for the move the spec does not give the host (log 11). -/
def Obligations.HostBufferRaceRefused : Prop :=
  ∀ (s : State) (rd wr : Bool) (pos : Pos) (w : Work) (a : Addr) (v : Byte),
    s.busy = true → s.cur = some ⟨.xferBuf rd wr, pos, w⟩ →
    (HostOffers s (.store a v) →
      ((∃ k : BitVec 32, k < s.count ∧ (a = s.raddr + k ∨ a = s.waddr + k)) →
        step s = .refused (.bufferRace a)) ∧
      ((∀ k : BitVec 32, k < s.count → a ≠ s.raddr + k ∧ a ≠ s.waddr + k) → s.admitted a = true →
        step s = .next ((hostAdvance (tick s)).setByte a v))) ∧
    (HostOffers s (.load a) →
      ((∃ k : BitVec 32, k < s.count ∧ a = s.raddr + k) → step s = .refused (.bufferRace a)) ∧
      ((∀ k : BitVec 32, k < s.count → a ≠ s.raddr + k) → s.admitted a = true →
        step s = .next (logRead (.mem a (s.byteAt a)) (hostAdvance (tick s)))))

/-! ### Configuration, issue, flag, result -/

/-- 10_state R24: the effective word size. -/
def Obligations.EffectiveWordSizes : Prop :=
  ∀ ws : BitVec 4,
    (1 ≤ ws.toNat → ws.toNat ≤ 7 → effWS ws = ws.toNat) ∧
    (ws.toNat = 0 ∨ 8 ≤ ws.toNat → effWS ws = 8) ∧
    1 ≤ effWS ws ∧ effWS ws ≤ 8

/-- 10_state R32: an accepted write of a command word sets BUSY and CUR in one step and puts the sequencer at the
command's first action; a reserved word is refused; the operand registers cannot change while BUSY = 1. -/
def Obligations.CommandIssue : Prop :=
  (∀ (s : State) (w : Word) (i : Instr), HostOffers s (.write 0x10 32 w) → s.busy = false →
    decode w = .command i →
    ∃ run, step s = .next { hostAdvance (tick s) with busy := true, cur := some run } ∧ run.cmd = i ∧
      (i = .busReset → run.pos = .lines) ∧
      (∀ b, i = .xferBit b → run.pos = .bit (if s.cpha then .wait1 else .drive)) ∧
      (∀ d, i = .xferByte d → run.pos = .bit (if s.cpha then .wait1 else .drive) ∧
        run.work.tx = d ∧ run.work.rx = 0#8 ∧ run.work.i = 0 ∧
        run.work.txmask = (if s.lsbf then 0x01#8 else 1#8 <<< (s.wordSize - 1)) ∧
        run.work.rxmask = (if s.lsbf then 1#8 <<< (s.wordSize - 1) else 0x01#8)) ∧
      (∀ rd wr, i = .xferBuf rd wr → run.work.k = 0#32 ∧
        (s.count = 0#32 → run.pos = .done) ∧
        (s.count ≠ 0#32 → wr = true → run.pos = .load) ∧
        (s.count ≠ 0#32 → wr = false → run.pos = .bit (if s.cpha then .wait1 else .drive) ∧
          run.work.t = 0#8 ∧ run.work.tx = 0#8 ∧ run.work.rx = 0#8 ∧ run.work.i = 0))) ∧
  (∀ (s : State) (w : Word) (why : Reserved), HostOffers s (.write 0x10 32 w) → s.busy = false →
    decode w = .reserved why → step s = .refused (.reservedCommand why w)) ∧
  (∀ s t : State, s.busy = true → nextAgent s ≠ .reset → step s = .next t → SameOperands s t)

/-- 10_state R29: BUSY is set by the step that accepts a CMD write and cleared by the completion step, and by nothing else but
a hardware reset; STATUS reads as `zext_32(BUSY)`. -/
def Obligations.BusyFlag : Prop :=
  (∀ (i : Instr) (s : State), s.busy = false → ∃ t, exec i s = .next t ∧ t.busy = true) ∧
  (∀ (i : Instr) (s t : State), s.busy = true → exec i s = .next t →
    (t.busy = false ↔ ∃ run, InProgress s run ∧ run.cmd = i ∧ run.pos = .done)) ∧
  (∀ s t : State, step s = .next t → nextAgent s ≠ .reset → s.busy = true → t.busy = false →
    nextAgent s = .sequencer ∧ ∃ run, InProgress s run ∧ run.pos = .done) ∧
  (∀ s t : State, s.cur = none → step s = .next t → s.busy = false → t.busy = true →
    ∃ w : Word, s.held = some ⟨0x10, w⟩ ∨ HostOffers s (.write 0x10 32 w)) ∧
  (∀ s : State, readReg .status s = if s.busy then 1#32 else 0#32)

/-- 10_state R28: the completion step of XFER_BIT writes `zext_32(r)` and that of XFER_BYTE `zext_32(rx)`; BUSRESET and
XFER_BUF do not write RXDATA; no other step of a command does, so a read while BUSY = 1 returns the previous value. -/
def Obligations.RxdataWrittenOnlyAtCompletion : Prop :=
  (∀ (s : State) (b : Level) (w : Work), InProgress s ⟨.xferBit b, .done, w⟩ →
    exec (.xferBit b) s =
      .next { s with rxdata := if w.r then 1#32 else 0#32, busy := false, cur := none }) ∧
  (∀ (s : State) (d : Byte) (w : Work), InProgress s ⟨.xferByte d, .done, w⟩ →
    exec (.xferByte d) s = .next { s with rxdata := w.rx.setWidth 32, busy := false, cur := none }) ∧
  (∀ (s : State) (w : Work), InProgress s ⟨.busReset, .done, w⟩ →
    exec .busReset s = .next { s with busy := false, cur := none }) ∧
  (∀ (s : State) (rd wr : Bool) (w : Work), InProgress s ⟨.xferBuf rd wr, .done, w⟩ →
    exec (.xferBuf rd wr) s = .next { s with busy := false, cur := none }) ∧
  (∀ (i : Instr) (s t : State), exec i s = .next t → t.busy = true → t.rxdata = s.rxdata) ∧
  (∀ s t : State, step s = .next t → nextAgent s ≠ .reset → s.busy = true → t.busy = true →
    readReg .rxdata t = readReg .rxdata s)

/-- 10_state R25: no command writes CFG; CFG changes only through a host write, accepted only with BUSY = 0 (or by a
hardware reset, 70_reset R180). -/
def Obligations.CfgChangesOnlyByHostWrite : Prop :=
  (∀ (i : Instr) (s t : State), exec i s = .next t → t.cfg = s.cfg) ∧
  (∀ s t : State, step s = .next t → t.cfg ≠ s.cfg →
    nextAgent s = .reset ∨
    (s.busy = false ∧ ∃ v : Word, t.cfg = v &&& 0x000000F7#32 ∧
      (s.held = some ⟨0x00, v⟩ ∨ HostOffers s (.write 0x00 32 v))))

/-! ### BUSRESET -/

/-- 40_bus_reset R90: issue, the one action `SetClkMosi(CFG.CPOL, 0)`, the completion step; RXDATA and everything else
unchanged, no wait, no sample; the action is an edge only if SCLK was not at CFG.CPOL. -/
def Obligations.BusResetRuns : Prop :=
  decode 0x00000001#32 = .command .busReset ∧
  ∀ s : State, s.ready = true →
    ∃ t t' u,
      exec .busReset s = .next t ∧ t.busy = true ∧
      exec .busReset t = .next t' ∧
      t' = { t with
        sclk := s.cpol, mosi := false, hist := s.hist ++ [.clkMosi s.cpol false], cur := t'.cur } ∧
      exec .busReset t' = .next u ∧
      u = { s with
        sclk := s.cpol
        mosi := false
        hist := s.hist ++ [.clkMosi s.cpol false]
        busy := false
        cur := none } ∧
      edges s.sclk [.clkMosi s.cpol false] = if s.sclk = s.cpol then [] else [s.cpol]

/-- 40_bus_reset R91: a second BUSRESET writes the same levels, makes no edge and leaves the same state but for H. -/
def Obligations.BusResetTwice : Prop :=
  ∀ s : State, s.ready = true →
    ∃ t u t' u',
      exec .busReset s = .next t ∧ runTurns (promptTurns 2) t = .next u ∧
      u.sclk = u.cpol ∧ u.mosi = false ∧
      exec .busReset u = .next t' ∧ runTurns (promptTurns 2) t' = .next u' ∧
      u'.hist = u.hist ++ [.clkMosi u.cpol false] ∧ edges u.sclk [.clkMosi u.cpol false] = [] ∧
      u' = { u with hist := u'.hist }

/-! ### The edge engine -/

/-- With CPHA = 0 the actions of a bit, in every transfer command, are exactly a1 to a5 of 41_bit_transfer R101, as R102
lists them: after the trailing edge the bit is over, and what follows is the next bit's a1, a memory action or the completion
step, after XFER_BIT always the last. That a wait is two turns, with `Wait` appended by the acknowledging one, is the model's
reading (log 4). -/
def Obligations.LeadingSampleActions : Prop :=
  ∀ (s : State) (run : Running), InProgress s run → run.cmd ≠ .busReset → s.cpha = false →
    (run.pos = .bit .drive →
      exec run.cmd s = .next { s with
        mosi := run.sentBit
        hist := s.hist ++ [.mosi run.sentBit]
        cur := some { run with pos := .bit .wait1 } }) ∧
    (run.pos = .bit .wait1 →
      exec run.cmd s = .next { s with waitReq := true } ∧
      agentTurn .delayUnit { s with waitReq := true } = .next { s with
        hist := s.hist ++ [.wait], cur := some { run with pos := .bit .lead } }) ∧
    (run.pos = .bit .lead →
      exec run.cmd s = .next { s with
        sclk := !s.cpol
        hist := s.hist ++ [.clkSample (!s.cpol) (s.misoAnswer (!s.cpol))]
        cur := some { run with pos := .bit .wait2, work := { run.work with r := s.misoAnswer (!s.cpol) } }
        env := { s.env with misoIn := s.env.misoIn.tail } }) ∧
    (run.pos = .bit .wait2 →
      exec run.cmd s = .next { s with waitReq := true } ∧
      agentTurn .delayUnit { s with waitReq := true } = .next { s with
        hist := s.hist ++ [.wait], cur := some { run with pos := .bit .trail } }) ∧
    (run.pos = .bit .trail →
      ∃ run' : Running, run'.cmd = run.cmd ∧
        exec run.cmd s = .next { s with
          sclk := s.cpol, hist := s.hist ++ [.clk s.cpol], cur := some run' } ∧
        (run'.pos = .bit .drive ∨ run'.pos = .load ∨ run'.pos = .store ∨ run'.pos = .done) ∧
        (∀ b, run.cmd = .xferBit b → run'.pos = .done))

/-- With CPHA = 1 the actions of a bit, in every transfer command, are exactly a1 to a4 of 41_bit_transfer R101, as R103
lists them: after the trailing edge the bit is over, and what follows is the next bit's a1, a memory action or the completion
step, after XFER_BIT always the last. That a wait is two turns, with `Wait` appended by the acknowledging one, is the model's
reading (log 4). -/
def Obligations.TrailingSampleActions : Prop :=
  ∀ (s : State) (run : Running), InProgress s run → run.cmd ≠ .busReset → s.cpha = true →
    (run.pos = .bit .wait1 →
      exec run.cmd s = .next { s with waitReq := true } ∧
      agentTurn .delayUnit { s with waitReq := true } = .next { s with
        hist := s.hist ++ [.wait], cur := some { run with pos := .bit .lead } }) ∧
    (run.pos = .bit .lead →
      exec run.cmd s = .next { s with
        sclk := !s.cpol
        mosi := run.sentBit
        hist := s.hist ++ [.clkMosi (!s.cpol) run.sentBit]
        cur := some { run with pos := .bit .wait2 } }) ∧
    (run.pos = .bit .wait2 →
      exec run.cmd s = .next { s with waitReq := true } ∧
      agentTurn .delayUnit { s with waitReq := true } = .next { s with
        hist := s.hist ++ [.wait], cur := some { run with pos := .bit .trail } }) ∧
    (run.pos = .bit .trail →
      ∃ run' : Running, run'.cmd = run.cmd ∧
        exec run.cmd s = .next { s with
          sclk := s.cpol
          hist := s.hist ++ [.clkSample s.cpol (s.misoAnswer s.cpol)]
          cur := some run'
          env := { s.env with misoIn := s.env.misoIn.tail } } ∧
        (run'.pos = .bit .wait1 ∨ run'.pos = .load ∨ run'.pos = .store ∨ run'.pos = .done) ∧
        (∀ b, run.cmd = .xferBit b → run'.pos = .done))

/-- A wait holds the block until it is acknowledged (41_bit_transfer R107, 60_exceptions R165): whatever turns of the
sequencer and the host pass, the block performs no action and WAIT_REQ stays 1. -/
def Obligations.WaitHoldsUntilAcknowledged : Prop :=
  (∀ (i : Instr) (s : State), s.busy = true → s.waitReq = true → exec i s = .next s) ∧
  (∀ (turns : List Agent) (s u : State), s.busy = true → s.waitReq = true →
    (∀ a ∈ turns, a = .sequencer ∨ a = .host) → runTurns turns s = .next u →
    u.waitReq = true ∧ u.busy = true ∧ u.cur = s.cur ∧ u.hist = s.hist ∧ u.sclk = s.sclk ∧ u.mosi = s.mosi ∧
      u.rxdata = s.rxdata)

/-- 41_bit_transfer R105: for both phases the sampled value is `miso_env`'s answer given the history that already
contains the clock change. -/
def Obligations.SampleInstant : Prop :=
  ∀ (s t : State) (run : Running), InProgress s run → run.cmd ≠ .busReset → s.env.misoIn = [] →
    exec run.cmd s = .next t →
    (s.cpha = false → run.pos = .bit .lead →
      t.hist = s.hist ++ [.clkSample (!s.cpol) (Config.misoEnv (s.hist ++ [.clk (!s.cpol)]))] ∧
      ∃ run', t.cur = some run' ∧ run'.work.r = Config.misoEnv (s.hist ++ [.clk (!s.cpol)])) ∧
    (s.cpha = true → run.pos = .bit .trail →
      t.hist = s.hist ++ [.clkSample s.cpol (Config.misoEnv (s.hist ++ [.clk s.cpol]))] ∧
      ∃ run', t.cur = some run' ∧ run'.work.r = Config.misoEnv (s.hist ++ [.clk s.cpol]))

/-- 41_bit_transfer R106: with CPHA = 1 the leading-edge action is `ClkMosi(lead, b)`, which sets both pins; no step drives
MOSI without the clock, MOSI never changes except in an event that sets both, and SCLK never leaves the idle level except in
such an event. -/
def Obligations.LeadingEdgeDrivesBothAtOnce : Prop :=
  ∀ s t : State, s.inv = true → s.cpha = true → nextAgent s ≠ .reset → step s = .next t →
    (∀ run, InProgress s run → run.pos = .bit .lead → nextAgent s = .sequencer →
      t.hist = s.hist ++ [.clkMosi (!s.cpol) run.sentBit] ∧ t.sclk = (!s.cpol) ∧ t.mosi = run.sentBit) ∧
    (∀ l, t.hist ≠ s.hist ++ [.mosi l]) ∧
    (t.mosi ≠ s.mosi → t.hist = s.hist ++ [.clkMosi t.sclk t.mosi]) ∧
    (s.sclk = s.cpol → t.sclk ≠ s.sclk → t.hist = s.hist ++ [.clkMosi t.sclk t.mosi])

/-- 41_bit_transfer R104: XFER_BIT drives and samples one clock cycle, ends with SCLK at CFG.CPOL, MOSI at the bit
sent and RXDATA the bit sampled; CFG.WS and CFG.LSBF play no part, and nothing else changes; from the leading level the
leading-level write makes no edge. -/
def Obligations.XferBitRuns : Prop :=
  (∀ b : Level, decode (0x00000002#32 ||| (bitWord b <<< 8)) = .command (.xferBit b)) ∧
  ∀ (s : State) (b : Level), s.ready = true →
    ∃ (r : Level) (t u : State),
      r = (if s.cpha then
          State.misoAnswer { s with hist := s.hist ++ [.wait, .clkMosi (!s.cpol) b, .wait] } s.cpol
        else State.misoAnswer { s with hist := s.hist ++ [.mosi b, .wait] } (!s.cpol)) ∧
      exec (.xferBit b) s = .next t ∧ t.busy = true ∧
      runTurns (promptTurns (s.actionsPerBit + 1)) t = .next u ∧
      u = { s with
        sclk := s.cpol
        mosi := b
        rxdata := if r then 1#32 else 0#32
        busy := false
        cur := none
        hist := s.hist ++ (if s.cpha then [.wait, .clkMosi (!s.cpol) b, .wait, .clkSample s.cpol r]
          else [.mosi b, .wait, .clkSample (!s.cpol) r, .wait, .clk s.cpol])
        env := { s.env with misoIn := s.env.misoIn.tail } } ∧
      (s.sclk ≠ s.cpol → edges s.sclk (bitTrace s.cpol s.cpha b r) = [s.cpol])

/-- 41_bit_transfer R110 and R111: from SCLK = CFG.CPOL a bit makes exactly two edges, away from idle and back; from the
leading level exactly one, the trailing one. Data-out changes one wait before the leading edge (CPHA = 0) or in the same action
(CPHA = 1), and the returned bit is `miso_env`'s answer at the sample instant of R105. -/
def Obligations.BitEdges : Prop :=
  ∀ (s : State) (b : Level), s.ready = true →
    ∃ (t u : State) (tr : List Event) (r : Level),
      exec (.xferBit b) s = .next t ∧ runTurns (promptTurns (s.actionsPerBit + 1)) t = .next u ∧
      u.hist = s.hist ++ tr ∧
      (s.sclk = s.cpol → edges s.sclk tr = [!s.cpol, s.cpol]) ∧
      (s.sclk ≠ s.cpol → s.sclk = !s.cpol ∧ edges s.sclk tr = [s.cpol]) ∧
      (s.cpha = false → tr = [.mosi b, .wait, .clkSample (!s.cpol) r, .wait, .clk s.cpol]) ∧
      (s.cpha = true → tr = [.wait, .clkMosi (!s.cpol) b, .wait, .clkSample s.cpol r]) ∧
      (s.env.misoIn = [] → s.cpha = false →
        r = Config.misoEnv (s.hist ++ [.mosi b, .wait, .clk (!s.cpol)])) ∧
      (s.env.misoIn = [] → s.cpha = true →
        r = Config.misoEnv (s.hist ++ [.wait, .clkMosi (!s.cpol) b, .wait, .clk s.cpol])) ∧
      u.rxdata = if r then 1#32 else 0#32

/-- 41_bit_transfer R112: with every sample answered by the MOSI level at that instant, the bit returned is the bit sent,
in all four modes. -/
def Obligations.BitLoopback : Prop :=
  ∀ (s : State) (b : Level), s.ready = true →
    ∃ (t u : State) (tr : List Event),
      exec (.xferBit b) s = .next t ∧ runTurns (promptTurns (s.actionsPerBit + 1)) t = .next u ∧
      u.hist = s.hist ++ tr ∧ (mirrors s.mosi tr = true → u.rxdata = if b then 1#32 else 0#32)

/-! ### The shift register -/

/-- 42_byte_transfer R122: MSB-first, bit `d[n-1-j]` is sent at call j and the bit it returns stands at
`result[n-1-j]`; `result[7:n] = 0`. The command ends with SCLK at CFG.CPOL and MOSI at the last bit sent, and changes nothing
else. -/
def Obligations.ByteMsbFirst : Prop :=
  ∀ (s : State) (d : Byte), s.ready = true → s.lsbf = false →
    ∃ (got : List Level) (t u : State),
      got.length = s.wordSize ∧
      exec (.xferByte d) s = .next t ∧ t.busy = true ∧
      runTurns (promptTurns (s.actionsPerBit * s.wordSize + 1)) t = .next u ∧
      u.hist = s.hist ++
        byteTrace s.cpol s.cpha ((List.range s.wordSize).map (fun j => d.getLsbD (s.wordSize - 1 - j))) got ∧
      (∀ j (h : j < got.length), u.rxdata.getLsbD (s.wordSize - 1 - j) = got[j]) ∧
      (∀ m, s.wordSize ≤ m → u.rxdata.getLsbD m = false) ∧
      u = { s with
        sclk := s.cpol
        mosi := d.getLsbD 0
        rxdata := u.rxdata
        busy := false
        cur := none
        hist := u.hist
        env := { s.env with misoIn := s.env.misoIn.drop s.wordSize } }

/-- 42_byte_transfer R124: LSB-first, bit `d[j]` is sent at call j and the bit it returns stands at `result[j]`;
`result[7:n] = 0`. -/
def Obligations.ByteLsbFirst : Prop :=
  ∀ (s : State) (d : Byte), s.ready = true → s.lsbf = true →
    ∃ (got : List Level) (t u : State),
      got.length = s.wordSize ∧
      exec (.xferByte d) s = .next t ∧ t.busy = true ∧
      runTurns (promptTurns (s.actionsPerBit * s.wordSize + 1)) t = .next u ∧
      u.hist = s.hist ++ byteTrace s.cpol s.cpha ((List.range s.wordSize).map (fun j => d.getLsbD j)) got ∧
      (∀ j (h : j < got.length), u.rxdata.getLsbD j = got[j]) ∧
      (∀ m, s.wordSize ≤ m → u.rxdata.getLsbD m = false) ∧
      u = { s with
        sclk := s.cpol
        mosi := d.getLsbD (s.wordSize - 1)
        rxdata := u.rxdata
        busy := false
        cur := none
        hist := u.hist
        env := { s.env with misoIn := s.env.misoIn.drop s.wordSize } }

/-- 42_byte_transfer R125: n bit transfers, 2n waits, n samples, 2n edges from idle, 5n or 4n pin actions. -/
def Obligations.ByteCounts : Prop :=
  ∀ (s : State) (d : Byte), s.ready = true →
    ∃ (t u : State) (tr : List Event),
      exec (.xferByte d) s = .next t ∧
      runTurns (promptTurns (s.actionsPerBit * s.wordSize + 1)) t = .next u ∧
      u.hist = s.hist ++ tr ∧
      tr.count .wait = 2 * s.wordSize ∧
      tr.countP Event.isSample = s.wordSize ∧
      (s.sclk = s.cpol → (edges s.sclk tr).length = 2 * s.wordSize) ∧
      tr.length = (if s.cpha then 4 else 5) * s.wordSize

/-- 42_byte_transfer R126: with CFG.WS = 0 or 8..15 the transfer is exactly the one with WS = 8. -/
def Obligations.WordSizeClamp : Prop :=
  ∀ (s : State) (d : Byte), s.ready = true → (s.ws.toNat = 0 ∨ 8 ≤ s.ws.toNat) →
    s.wordSize = 8 ∧ s.withWS8.ws.toNat = 8 ∧
    ∃ t u t' : State,
      exec (.xferByte d) s = .next t ∧ runTurns (promptTurns (s.actionsPerBit * 8 + 1)) t = .next u ∧
      u.busy = false ∧
      exec (.xferByte d) s.withWS8 = .next t' ∧
      runTurns (promptTurns (s.actionsPerBit * 8 + 1)) t' = .next u.withWS8

/-- 42_byte_transfer R127: two bytes that agree below bit n are transferred alike, pins and all, and `result[7:n] = 0`. -/
def Obligations.HighBitsNeverReachAPin : Prop :=
  ∀ (s : State) (d d' : Byte), s.ready = true →
    (∀ j, j < s.wordSize → d.getLsbD j = d'.getLsbD j) →
    ∃ t t' u : State,
      exec (.xferByte d) s = .next t ∧ exec (.xferByte d') s = .next t' ∧
      runTurns (promptTurns (s.actionsPerBit * s.wordSize + 1)) t = .next u ∧
      runTurns (promptTurns (s.actionsPerBit * s.wordSize + 1)) t' = .next u ∧
      u.busy = false ∧ ∀ m, s.wordSize ≤ m → u.rxdata.getLsbD m = false

/-- 42_byte_transfer R128: under loopback `TransferByte(d)` returns `zext_8(d[n-1:0])`, for every n, both orders and all
four modes. -/
def Obligations.ByteLoopback : Prop :=
  ∀ (s : State) (d : Byte), s.ready = true →
    ∃ (t u : State) (tr : List Event),
      exec (.xferByte d) s = .next t ∧
      runTurns (promptTurns (s.actionsPerBit * s.wordSize + 1)) t = .next u ∧
      u.hist = s.hist ++ tr ∧
      (mirrors s.mosi tr = true →
        ∀ m, u.rxdata.getLsbD m = (decide (m < s.wordSize) && d.getLsbD m))

/-! ### The transaction sequencer -/

/-- The memory actions of element k (43_buffer_transfer R141, R148): at the load position an XFER_BUF reads the byte at
`(WADDR + k) mod 2^32` and begins its transfer; at the store position it stores the received byte at `(RADDR + k) mod 2^32` and
changes no other byte. -/
def Obligations.BufferMemorySteps : Prop :=
  ∀ (s : State) (rd wr : Bool) (w : Work),
    ((s.waddr + w.k).toNat = (s.waddr.toNat + w.k.toNat) % 2 ^ 32) ∧
    ((s.raddr + w.k).toNat = (s.raddr.toNat + w.k.toNat) % 2 ^ 32) ∧
    (InProgress s ⟨.xferBuf rd wr, .load, w⟩ → s.admitted (s.waddr + w.k) = true →
      ∃ run' : Running,
        exec (.xferBuf rd wr) s = .next { s with
          hist := s.hist ++ [.memRd (s.waddr + w.k) (s.byteAt (s.waddr + w.k))], cur := some run' } ∧
        run'.cmd = .xferBuf rd wr ∧ run'.pos = .bit (if s.cpha then .wait1 else .drive) ∧
        run'.work.t = s.byteAt (s.waddr + w.k) ∧ run'.work.tx = s.byteAt (s.waddr + w.k) ∧
        run'.work.rx = 0#8 ∧ run'.work.i = 0 ∧ run'.work.k = w.k) ∧
    (InProgress s ⟨.xferBuf rd wr, .store, w⟩ → s.admitted (s.raddr + w.k) = true →
      ∃ (run' : Running) (t : State),
        exec (.xferBuf rd wr) s = .next t ∧
        t = { s with
          hist := s.hist ++ [.memWr (s.raddr + w.k) w.rx], mem := t.mem, cur := some run' } ∧
        run'.cmd = .xferBuf rd wr ∧
        (w.k + 1#32 = s.count → run'.pos = .done) ∧
        (w.k + 1#32 ≠ s.count → run'.work.k = w.k + 1#32 ∧
          run'.pos = if wr then .load else .bit (if s.cpha then .wait1 else .drive)) ∧
        (∀ a : Addr, a ≠ s.raddr + w.k → t.byteAt a = s.byteAt a) ∧
        (Memory.wf s.mem = true → t.byteAt (s.raddr + w.k) = w.rx ∧ Memory.wf t.mem = true))

/-- 60_exceptions R164: a MemRead or MemWrite of an address that is not admitted has no step; whatever turns without a reset
pass, the sequencer is stuck at that action, BUSY stays 1, and a held host write stays held. -/
def Obligations.UnadmittedAddressSticks : Prop :=
  ∀ (s : State) (rd wr : Bool) (pos : Pos) (w : Work) (a : Addr), InProgress s ⟨.xferBuf rd wr, pos, w⟩ →
    (pos = .load ∧ a = s.waddr + w.k ∨ pos = .store ∧ a = s.raddr + w.k) → s.admitted a = false →
    exec (.xferBuf rd wr) s = .fault (.notAdmitted a) ∧
    ∀ (turns : List Agent) (u : State), (∀ g ∈ turns, g ≠ .reset) → runTurns turns s = .next u →
      u.busy = true ∧ u.cur = s.cur ∧ u.hist = s.hist ∧ SameOperands s u ∧
        ∀ h, s.held = some h → u.held = some h

/-- 43_buffer_transfer R141: XFER_BUF transfers its COUNT elements one after the other, each its MemRead (WR = 1), its byte,
its MemWrite (RD = 1), with nothing between them; element k sends the byte memory holds at `(WADDR + k) mod 2^32` after the
MemWrites of the elements before it, or 0; the bits received make the byte stored. RXDATA and the registers are unchanged. -/
def Obligations.XferBufRuns : Prop :=
  ∀ (s : State) (rd wr : Bool), s.ready = true → s.buffersAdmitted rd wr →
    ∃ (els : List Element) (t u : State),
      els.length = s.count.toNat ∧
      exec (.xferBuf rd wr) s = .next t ∧ t.busy = true ∧
      runTurns (promptTurns
        (s.count.toNat * (rd.toNat + s.actionsPerBit * s.wordSize + wr.toNat) + 1)) t = .next u ∧
      u.hist = s.hist ++ (els.mapIdx (elementTrace s rd wr)).flatten ∧
      u.mem = storeElements s rd 0 els s.mem ∧
      (∀ k (h : k < els.length),
        els[k].got.length = s.wordSize ∧ Received s.lsbf s.wordSize els[k].got els[k].r ∧
        els[k].t =
          if wr then
            Memory.lookup (storeElements s rd 0 (els.take k) s.mem) (s.waddr + BitVec.ofNat 32 k).toNat
          else 0x00#8) ∧
      (s.count ≠ 0#32 → u.sclk = s.cpol) ∧
      u = { s with
        sclk := u.sclk
        mosi := u.mosi
        busy := false
        cur := none
        hist := u.hist
        mem := u.mem
        env := { s.env with misoIn := s.env.misoIn.drop (s.count.toNat * s.wordSize) } }

/-- 43_buffer_transfer R144: in the read-only form every bit sent is 0: MOSI is 0 after the first bit's drive action and
stays 0 to the end. -/
def Obligations.ReadOnlySendsZeros : Prop :=
  ∀ s : State, s.ready = true → s.buffersAdmitted true false →
    ∃ (t u : State) (tr : List Event),
      exec .read s = .next t ∧ runTurns (promptTurns (actionCount .read s + 1)) t = .next u ∧
      u.busy = false ∧ u.hist = s.hist ++ tr ∧
      (∀ e ∈ tr, drivesMosiHigh e = false) ∧ readBytes tr = [] ∧
      (s.count ≠ 0#32 → u.mosi = false)

/-- 43_buffer_transfer R145: with both buffers absent the block performs COUNT byte transfers of 0x00, discards the
results and makes no memory access, whatever addresses are admitted. -/
def Obligations.ClockOnlyTransfer : Prop :=
  ∀ s : State, s.ready = true →
    ∃ (t u : State) (got : List Level),
      exec .xferClocks s = .next t ∧
      runTurns (promptTurns (s.count.toNat * (s.actionsPerBit * s.wordSize) + 1)) t = .next u ∧
      got.length = s.count.toNat * s.wordSize ∧
      u.hist = s.hist ++
        byteTrace s.cpol s.cpha (List.replicate (s.count.toNat * s.wordSize) false) got ∧
      u.mem = s.mem ∧ u.rxdata = s.rxdata ∧ u.busy = false ∧ SameOperands s u

/-- 43_buffer_transfer R146: with COUNT = 0 the command is its completion step alone. -/
def Obligations.CountZero : Prop :=
  ∀ (s : State) (rd wr : Bool), s.ready = true → s.count = 0#32 →
    ∃ t : State,
      exec (.xferBuf rd wr) s = .next t ∧
      exec (.xferBuf rd wr) t = .next { s with busy := false, cur := none }

/-- Overlapping buffers (43_buffer_transfer R147), full duplex. With RADDR = WADDR it is an in-place exchange; with
RADDR = WADDR + m element k >= m sends the byte received by element k - m; with WADDR = RADDR + m every element sends
the original content. The last clause assumes `m + COUNT <= 2^32`: beyond that the write buffer wraps onto addresses already
stored to, which R147 does not consider (log 23). -/
def Obligations.OverlappingBuffers : Prop :=
  ∀ s : State, s.ready = true → s.buffersAdmitted true true → Memory.wf s.mem = true →
    ∃ (t u : State) (tr : List Event),
      exec .xferDuplex s = .next t ∧ runTurns (promptTurns (actionCount .xferDuplex s + 1)) t = .next u ∧
      u.busy = false ∧ u.hist = s.hist ++ tr ∧
      (readBytes tr).length = s.count.toNat ∧ (writtenBytes tr).length = s.count.toNat ∧
      (s.raddr = s.waddr → ∀ k, k < s.count.toNat →
        (readBytes tr)[k]? = some (s.byteAt (s.waddr + BitVec.ofNat 32 k)) ∧
        (writtenBytes tr)[k]? = some (u.byteAt (s.waddr + BitVec.ofNat 32 k))) ∧
      (∀ m, 1 ≤ m → m < s.count.toNat → s.raddr = s.waddr + BitVec.ofNat 32 m →
        ∀ k, m ≤ k → k < s.count.toNat → (readBytes tr)[k]? = (writtenBytes tr)[k - m]?) ∧
      (∀ m, 1 ≤ m → m < s.count.toNat → m + s.count.toNat ≤ 2 ^ 32 →
        s.waddr = s.raddr + BitVec.ofNat 32 m →
        ∀ k, k < s.count.toNat → (readBytes tr)[k]? = some (s.byteAt (s.waddr + BitVec.ofNat 32 k)))

/-- 43_buffer_transfer R149: COUNT * n bit transfers, 2 * COUNT * n waits, COUNT * WR memory reads, COUNT * RD memory
writes. -/
def Obligations.BufferCounts : Prop :=
  ∀ (s : State) (rd wr : Bool), s.ready = true → s.buffersAdmitted rd wr →
    ∃ (t u : State) (tr : List Event),
      exec (.xferBuf rd wr) s = .next t ∧
      runTurns (promptTurns (actionCount (.xferBuf rd wr) s + 1)) t = .next u ∧
      u.busy = false ∧ u.hist = s.hist ++ tr ∧
      tr.countP Event.isSample = s.count.toNat * s.wordSize ∧
      tr.count .wait = 2 * s.count.toNat * s.wordSize ∧
      (readBytes tr).length = s.count.toNat * wr.toNat ∧
      (writtenBytes tr).length = s.count.toNat * rd.toNat

/-! ### Whole commands -/

/-- The sequencer's steps are the pseudocode: run by alternate turns of the sequencer and the delay unit, a command is still busy
after exactly its actions (70_reset R192) and has, one turn later, the state its pseudocode gives in one go. -/
def Obligations.SequencerRunsPseudocode : Prop :=
  ∀ (i : Instr) (s f : State), s.ready = true → runCommand i s = some f →
    ∃ t t' : State,
      exec i s = .next t ∧
      runTurns (promptTurns (actionCount i s)) t = .next t' ∧ t'.busy = true ∧
      runTurns (promptTurns (actionCount i s + 1)) t = .next f ∧
      f.busy = false ∧ f.cur = none ∧ f.waitReq = false

/-- The same in every interleaving of the sequencer's and the delay unit's turns: if the command is over, the state is
the one its pseudocode gives (20_memory R59, 60_exceptions R168). -/
def Obligations.EveryInterleavingRunsPseudocode : Prop :=
  ∀ (i : Instr) (s f : State) (turns : List Agent), s.ready = true → runCommand i s = some f →
    (∀ a ∈ turns, a = .sequencer ∨ a = .delayUnit) →
    ∃ t u : State, exec i s = .next t ∧ runTurns turns t = .next u ∧ (u.busy = false → u = f)

/-! ### Invariants and frames -/

/-- The invariant holds at reset. -/
def Obligations.InvariantAtReset : Prop :=
  State.reset.inv = true ∧ State.reset.ready = true ∧ State.reset.ended = true ∧
    pinsOf State.reset.hist = (State.reset.sclk, State.reset.mosi)

/-- Every step keeps the invariant. -/
def Obligations.InvariantKeptByStep : Prop :=
  ∀ s t : State, s.inv = true → step s = .next t → t.inv = true

/-- SCLK and MOSI hold the levels the pin primitives in H wrote last, through every step (10_state R33, R39). -/
def Obligations.PinsFollowHistory : Prop :=
  ∀ s t : State, pinsOf s.hist = (s.sclk, s.mosi) → step s = .next t → pinsOf t.hist = (t.sclk, t.mosi)

/-- A step appends at most one event to H and takes none away, and without an event no pin changes (00_scope R12, R15). -/
def Obligations.HistoryGrowsByAtMostOneEvent : Prop :=
  ∀ s t : State, step s = .next t →
    (t.hist = s.hist ∧ t.sclk = s.sclk ∧ t.mosi = s.mosi) ∨ ∃ e : Event, t.hist = s.hist ++ [e]

/-- The frame of BUSRESET, XFER_BIT and XFER_BYTE: the operand registers, the held write, the collaborators and every byte of
memory are unchanged; RXDATA but in a completion step of the last two; the pins but with an event; BUSRESET requests no wait. -/
def Obligations.RegisterCommandsFrame : Prop :=
  ∀ (i : Instr) (s t : State), (∀ rd wr, i ≠ .xferBuf rd wr) → exec i s = .next t →
    SameOperands s t ∧ t.held = s.held ∧ SameEnv s t ∧
    (∀ a : Addr, t.byteAt a = s.byteAt a) ∧
    (t.rxdata ≠ s.rxdata → i ≠ .busReset ∧ s.busy = true ∧ t.busy = false) ∧
    (t.hist = s.hist → t.sclk = s.sclk ∧ t.mosi = s.mosi ∧ t.env = s.env) ∧
    (i = .busReset → t.waitReq = s.waitReq ∧ t.env = s.env)

/-- The frame of XFER_BUF: the operand registers, RXDATA, the held write and the collaborators are unchanged; every byte of
memory but the one a store position stores to, at `(RADDR + k) mod 2^32`. -/
def Obligations.XferBufFrame : Prop :=
  ∀ (rd wr : Bool) (s t : State), exec (.xferBuf rd wr) s = .next t →
    SameOperands s t ∧ t.held = s.held ∧ SameEnv s t ∧ t.rxdata = s.rxdata ∧
    (t.hist = s.hist → t.sclk = s.sclk ∧ t.mosi = s.mosi ∧ t.env = s.env ∧ t.mem = s.mem) ∧
    (∀ w : Work, InProgress s ⟨.xferBuf rd wr, .store, w⟩ →
      ∀ a : Addr, a ≠ s.storeAddr w.k → t.byteAt a = s.byteAt a) ∧
    ((∀ w : Work, ¬ InProgress s ⟨.xferBuf rd wr, .store, w⟩) → ∀ a : Addr, t.byteAt a = s.byteAt a)

/-- From a state that meets the invariant no step faults: every defined command, in every CFG state, is at most held
(60_exceptions R160). -/
def Obligations.StepNeverFaults : Prop :=
  ∀ s : State, s.inv = true → ∀ f : Fault, step s ≠ .fault f

/-- 60_exceptions R176: with BUSY = 0 the block performs no action and holds SCLK and MOSI, and no event other than a host
write or a hardware reset changes its state. -/
def Obligations.IdleBlockIsQuiescent : Prop :=
  ∀ s t : State, s.busy = false → s.waitReq = false → s.cur = none → nextAgent s ≠ .reset → step s = .next t →
    (t.hist = s.hist ∧ t.sclk = s.sclk ∧ t.mosi = s.mosi ∧ t.waitReq = false) ∧
    ((∃ w, s.held = some w) ∨ (∃ offset v, HostOffers s (.write offset 32 v)) ∨
      (SameOperands s t ∧ t.rxdata = s.rxdata ∧ t.busy = false ∧ t.cur = none ∧ t.held = none))

/-- The end of a run (70_reset R194): once the host has performed its last access, with BUSY = 0 and WAIT_REQ = 0, every
step but a hardware reset only lets its turn pass. That it stays so is the model's choice: the spec does not say what
happens after the host's last access (log 21). -/
def Obligations.EndedRunStays : Prop :=
  ∀ s : State, s.ended = true → s.cur = none → nextAgent s ≠ .reset → step s = .next (tick s)
end

