-- ==== Sys2Proof/Laws/State.lean ====
section
/-! SUPPORT. One lemma per field per update of the state, each true by rfl, so that no proof unfolds an update. -/

namespace Sys2Proof.Machine

variable (s : State)

/-! ### setClk -/

@[simp] theorem setClk_cfg (l : Level) : (setClk l s).cfg = s.cfg := rfl
@[simp] theorem setClk_raddr (l : Level) : (setClk l s).raddr = s.raddr := rfl
@[simp] theorem setClk_waddr (l : Level) : (setClk l s).waddr = s.waddr := rfl
@[simp] theorem setClk_count (l : Level) : (setClk l s).count = s.count := rfl
@[simp] theorem setClk_rxdata (l : Level) : (setClk l s).rxdata = s.rxdata := rfl
@[simp] theorem setClk_busy (l : Level) : (setClk l s).busy = s.busy := rfl
@[simp] theorem setClk_sclk (l : Level) : (setClk l s).sclk = l := rfl
@[simp] theorem setClk_mosi (l : Level) : (setClk l s).mosi = s.mosi := rfl
@[simp] theorem setClk_waitReq (l : Level) : (setClk l s).waitReq = s.waitReq := rfl
@[simp] theorem setClk_cur (l : Level) : (setClk l s).cur = s.cur := rfl
@[simp] theorem setClk_held (l : Level) : (setClk l s).held = s.held := rfl
@[simp] theorem setClk_hist (l : Level) : (setClk l s).hist = s.hist ++ [.clk l] := rfl
@[simp] theorem setClk_mem (l : Level) : (setClk l s).mem = s.mem := rfl
@[simp] theorem setClk_env (l : Level) : (setClk l s).env = s.env := rfl

/-! ### setMosi -/

@[simp] theorem setMosi_cfg (l : Level) : (setMosi l s).cfg = s.cfg := rfl
@[simp] theorem setMosi_raddr (l : Level) : (setMosi l s).raddr = s.raddr := rfl
@[simp] theorem setMosi_waddr (l : Level) : (setMosi l s).waddr = s.waddr := rfl
@[simp] theorem setMosi_count (l : Level) : (setMosi l s).count = s.count := rfl
@[simp] theorem setMosi_rxdata (l : Level) : (setMosi l s).rxdata = s.rxdata := rfl
@[simp] theorem setMosi_busy (l : Level) : (setMosi l s).busy = s.busy := rfl
@[simp] theorem setMosi_sclk (l : Level) : (setMosi l s).sclk = s.sclk := rfl
@[simp] theorem setMosi_mosi (l : Level) : (setMosi l s).mosi = l := rfl
@[simp] theorem setMosi_waitReq (l : Level) : (setMosi l s).waitReq = s.waitReq := rfl
@[simp] theorem setMosi_cur (l : Level) : (setMosi l s).cur = s.cur := rfl
@[simp] theorem setMosi_held (l : Level) : (setMosi l s).held = s.held := rfl
@[simp] theorem setMosi_hist (l : Level) : (setMosi l s).hist = s.hist ++ [.mosi l] := rfl
@[simp] theorem setMosi_mem (l : Level) : (setMosi l s).mem = s.mem := rfl
@[simp] theorem setMosi_env (l : Level) : (setMosi l s).env = s.env := rfl

/-! ### setClkMosi -/

@[simp] theorem setClkMosi_cfg (c d : Level) : (setClkMosi c d s).cfg = s.cfg := rfl
@[simp] theorem setClkMosi_raddr (c d : Level) : (setClkMosi c d s).raddr = s.raddr := rfl
@[simp] theorem setClkMosi_waddr (c d : Level) : (setClkMosi c d s).waddr = s.waddr := rfl
@[simp] theorem setClkMosi_count (c d : Level) : (setClkMosi c d s).count = s.count := rfl
@[simp] theorem setClkMosi_rxdata (c d : Level) : (setClkMosi c d s).rxdata = s.rxdata := rfl
@[simp] theorem setClkMosi_busy (c d : Level) : (setClkMosi c d s).busy = s.busy := rfl
@[simp] theorem setClkMosi_sclk (c d : Level) : (setClkMosi c d s).sclk = c := rfl
@[simp] theorem setClkMosi_mosi (c d : Level) : (setClkMosi c d s).mosi = d := rfl
@[simp] theorem setClkMosi_waitReq (c d : Level) : (setClkMosi c d s).waitReq = s.waitReq := rfl
@[simp] theorem setClkMosi_cur (c d : Level) : (setClkMosi c d s).cur = s.cur := rfl
@[simp] theorem setClkMosi_held (c d : Level) : (setClkMosi c d s).held = s.held := rfl
@[simp] theorem setClkMosi_hist (c d : Level) : (setClkMosi c d s).hist = s.hist ++ [.clkMosi c d] := rfl
@[simp] theorem setClkMosi_mem (c d : Level) : (setClkMosi c d s).mem = s.mem := rfl
@[simp] theorem setClkMosi_env (c d : Level) : (setClkMosi c d s).env = s.env := rfl

/-! ### setClkSample -/

@[simp] theorem setClkSample_cfg (l : Level) : (setClkSample l s).cfg = s.cfg := rfl
@[simp] theorem setClkSample_raddr (l : Level) : (setClkSample l s).raddr = s.raddr := rfl
@[simp] theorem setClkSample_waddr (l : Level) : (setClkSample l s).waddr = s.waddr := rfl
@[simp] theorem setClkSample_count (l : Level) : (setClkSample l s).count = s.count := rfl
@[simp] theorem setClkSample_rxdata (l : Level) : (setClkSample l s).rxdata = s.rxdata := rfl
@[simp] theorem setClkSample_busy (l : Level) : (setClkSample l s).busy = s.busy := rfl
@[simp] theorem setClkSample_sclk (l : Level) : (setClkSample l s).sclk = l := rfl
@[simp] theorem setClkSample_mosi (l : Level) : (setClkSample l s).mosi = s.mosi := rfl
@[simp] theorem setClkSample_waitReq (l : Level) : (setClkSample l s).waitReq = s.waitReq := rfl
@[simp] theorem setClkSample_cur (l : Level) : (setClkSample l s).cur = s.cur := rfl
@[simp] theorem setClkSample_held (l : Level) : (setClkSample l s).held = s.held := rfl
@[simp] theorem setClkSample_hist (l : Level) : (setClkSample l s).hist = s.hist ++ [.clkSample l (s.misoAnswer l)] := rfl
@[simp] theorem setClkSample_mem (l : Level) : (setClkSample l s).mem = s.mem := rfl
@[simp] theorem setClkSample_env (l : Level) : (setClkSample l s).env = { s.env with misoIn := s.env.misoIn.tail } := rfl

/-! ### raiseWait -/

@[simp] theorem raiseWait_cfg : (raiseWait s).cfg = s.cfg := rfl
@[simp] theorem raiseWait_raddr : (raiseWait s).raddr = s.raddr := rfl
@[simp] theorem raiseWait_waddr : (raiseWait s).waddr = s.waddr := rfl
@[simp] theorem raiseWait_count : (raiseWait s).count = s.count := rfl
@[simp] theorem raiseWait_rxdata : (raiseWait s).rxdata = s.rxdata := rfl
@[simp] theorem raiseWait_busy : (raiseWait s).busy = s.busy := rfl
@[simp] theorem raiseWait_sclk : (raiseWait s).sclk = s.sclk := rfl
@[simp] theorem raiseWait_mosi : (raiseWait s).mosi = s.mosi := rfl
@[simp] theorem raiseWait_waitReq : (raiseWait s).waitReq = true := rfl
@[simp] theorem raiseWait_cur : (raiseWait s).cur = s.cur := rfl
@[simp] theorem raiseWait_held : (raiseWait s).held = s.held := rfl
@[simp] theorem raiseWait_hist : (raiseWait s).hist = s.hist := rfl
@[simp] theorem raiseWait_mem : (raiseWait s).mem = s.mem := rfl
@[simp] theorem raiseWait_env : (raiseWait s).env = s.env := rfl

/-! ### endWait -/

@[simp] theorem endWait_cfg : (endWait s).cfg = s.cfg := rfl
@[simp] theorem endWait_raddr : (endWait s).raddr = s.raddr := rfl
@[simp] theorem endWait_waddr : (endWait s).waddr = s.waddr := rfl
@[simp] theorem endWait_count : (endWait s).count = s.count := rfl
@[simp] theorem endWait_rxdata : (endWait s).rxdata = s.rxdata := rfl
@[simp] theorem endWait_busy : (endWait s).busy = s.busy := rfl
@[simp] theorem endWait_sclk : (endWait s).sclk = s.sclk := rfl
@[simp] theorem endWait_mosi : (endWait s).mosi = s.mosi := rfl
@[simp] theorem endWait_waitReq : (endWait s).waitReq = false := rfl
@[simp] theorem endWait_cur : (endWait s).cur = s.cur.map Running.afterWait := rfl
@[simp] theorem endWait_held : (endWait s).held = s.held := rfl
@[simp] theorem endWait_hist : (endWait s).hist = s.hist ++ [.wait] := rfl
@[simp] theorem endWait_mem : (endWait s).mem = s.mem := rfl
@[simp] theorem endWait_env : (endWait s).env = s.env := rfl

/-! ### waitHalf -/

@[simp] theorem waitHalf_cfg : (waitHalf s).cfg = s.cfg := rfl
@[simp] theorem waitHalf_raddr : (waitHalf s).raddr = s.raddr := rfl
@[simp] theorem waitHalf_waddr : (waitHalf s).waddr = s.waddr := rfl
@[simp] theorem waitHalf_count : (waitHalf s).count = s.count := rfl
@[simp] theorem waitHalf_rxdata : (waitHalf s).rxdata = s.rxdata := rfl
@[simp] theorem waitHalf_busy : (waitHalf s).busy = s.busy := rfl
@[simp] theorem waitHalf_sclk : (waitHalf s).sclk = s.sclk := rfl
@[simp] theorem waitHalf_mosi : (waitHalf s).mosi = s.mosi := rfl
@[simp] theorem waitHalf_waitReq : (waitHalf s).waitReq = s.waitReq := rfl
@[simp] theorem waitHalf_cur : (waitHalf s).cur = s.cur := rfl
@[simp] theorem waitHalf_held : (waitHalf s).held = s.held := rfl
@[simp] theorem waitHalf_hist : (waitHalf s).hist = s.hist ++ [.wait] := rfl
@[simp] theorem waitHalf_mem : (waitHalf s).mem = s.mem := rfl
@[simp] theorem waitHalf_env : (waitHalf s).env = s.env := rfl

/-! ### goto -/

@[simp] theorem goto_cfg (run : Running) : (goto run s).cfg = s.cfg := rfl
@[simp] theorem goto_raddr (run : Running) : (goto run s).raddr = s.raddr := rfl
@[simp] theorem goto_waddr (run : Running) : (goto run s).waddr = s.waddr := rfl
@[simp] theorem goto_count (run : Running) : (goto run s).count = s.count := rfl
@[simp] theorem goto_rxdata (run : Running) : (goto run s).rxdata = s.rxdata := rfl
@[simp] theorem goto_busy (run : Running) : (goto run s).busy = s.busy := rfl
@[simp] theorem goto_sclk (run : Running) : (goto run s).sclk = s.sclk := rfl
@[simp] theorem goto_mosi (run : Running) : (goto run s).mosi = s.mosi := rfl
@[simp] theorem goto_waitReq (run : Running) : (goto run s).waitReq = s.waitReq := rfl
@[simp] theorem goto_cur (run : Running) : (goto run s).cur = some run := rfl
@[simp] theorem goto_held (run : Running) : (goto run s).held = s.held := rfl
@[simp] theorem goto_hist (run : Running) : (goto run s).hist = s.hist := rfl
@[simp] theorem goto_mem (run : Running) : (goto run s).mem = s.mem := rfl
@[simp] theorem goto_env (run : Running) : (goto run s).env = s.env := rfl

/-! ### issue -/

@[simp] theorem issue_cfg (run : Running) : (issue run s).cfg = s.cfg := rfl
@[simp] theorem issue_raddr (run : Running) : (issue run s).raddr = s.raddr := rfl
@[simp] theorem issue_waddr (run : Running) : (issue run s).waddr = s.waddr := rfl
@[simp] theorem issue_count (run : Running) : (issue run s).count = s.count := rfl
@[simp] theorem issue_rxdata (run : Running) : (issue run s).rxdata = s.rxdata := rfl
@[simp] theorem issue_busy (run : Running) : (issue run s).busy = true := rfl
@[simp] theorem issue_sclk (run : Running) : (issue run s).sclk = s.sclk := rfl
@[simp] theorem issue_mosi (run : Running) : (issue run s).mosi = s.mosi := rfl
@[simp] theorem issue_waitReq (run : Running) : (issue run s).waitReq = s.waitReq := rfl
@[simp] theorem issue_cur (run : Running) : (issue run s).cur = some run := rfl
@[simp] theorem issue_held (run : Running) : (issue run s).held = s.held := rfl
@[simp] theorem issue_hist (run : Running) : (issue run s).hist = s.hist := rfl
@[simp] theorem issue_mem (run : Running) : (issue run s).mem = s.mem := rfl
@[simp] theorem issue_env (run : Running) : (issue run s).env = s.env := rfl

/-! ### complete -/

@[simp] theorem complete_cfg (r : Option Word) : (complete r s).cfg = s.cfg := rfl
@[simp] theorem complete_raddr (r : Option Word) : (complete r s).raddr = s.raddr := rfl
@[simp] theorem complete_waddr (r : Option Word) : (complete r s).waddr = s.waddr := rfl
@[simp] theorem complete_count (r : Option Word) : (complete r s).count = s.count := rfl
@[simp] theorem complete_rxdata (r : Option Word) : (complete r s).rxdata = r.getD s.rxdata := rfl
@[simp] theorem complete_busy (r : Option Word) : (complete r s).busy = false := rfl
@[simp] theorem complete_sclk (r : Option Word) : (complete r s).sclk = s.sclk := rfl
@[simp] theorem complete_mosi (r : Option Word) : (complete r s).mosi = s.mosi := rfl
@[simp] theorem complete_waitReq (r : Option Word) : (complete r s).waitReq = s.waitReq := rfl
@[simp] theorem complete_cur (r : Option Word) : (complete r s).cur = none := rfl
@[simp] theorem complete_held (r : Option Word) : (complete r s).held = s.held := rfl
@[simp] theorem complete_hist (r : Option Word) : (complete r s).hist = s.hist := rfl
@[simp] theorem complete_mem (r : Option Word) : (complete r s).mem = s.mem := rfl
@[simp] theorem complete_env (r : Option Word) : (complete r s).env = s.env := rfl

/-! ### setByte -/

@[simp] theorem setByte_cfg (a : Addr) (v : Byte) : (s.setByte a v).cfg = s.cfg := rfl
@[simp] theorem setByte_raddr (a : Addr) (v : Byte) : (s.setByte a v).raddr = s.raddr := rfl
@[simp] theorem setByte_waddr (a : Addr) (v : Byte) : (s.setByte a v).waddr = s.waddr := rfl
@[simp] theorem setByte_count (a : Addr) (v : Byte) : (s.setByte a v).count = s.count := rfl
@[simp] theorem setByte_rxdata (a : Addr) (v : Byte) : (s.setByte a v).rxdata = s.rxdata := rfl
@[simp] theorem setByte_busy (a : Addr) (v : Byte) : (s.setByte a v).busy = s.busy := rfl
@[simp] theorem setByte_sclk (a : Addr) (v : Byte) : (s.setByte a v).sclk = s.sclk := rfl
@[simp] theorem setByte_mosi (a : Addr) (v : Byte) : (s.setByte a v).mosi = s.mosi := rfl
@[simp] theorem setByte_waitReq (a : Addr) (v : Byte) : (s.setByte a v).waitReq = s.waitReq := rfl
@[simp] theorem setByte_cur (a : Addr) (v : Byte) : (s.setByte a v).cur = s.cur := rfl
@[simp] theorem setByte_held (a : Addr) (v : Byte) : (s.setByte a v).held = s.held := rfl
@[simp] theorem setByte_hist (a : Addr) (v : Byte) : (s.setByte a v).hist = s.hist := rfl
@[simp] theorem setByte_mem (a : Addr) (v : Byte) : (s.setByte a v).mem = Memory.put s.mem a.toNat v := rfl
@[simp] theorem setByte_env (a : Addr) (v : Byte) : (s.setByte a v).env = s.env := rfl

/-! ### tick -/

@[simp] theorem tick_cfg : (tick s).cfg = s.cfg := rfl
@[simp] theorem tick_raddr : (tick s).raddr = s.raddr := rfl
@[simp] theorem tick_waddr : (tick s).waddr = s.waddr := rfl
@[simp] theorem tick_count : (tick s).count = s.count := rfl
@[simp] theorem tick_rxdata : (tick s).rxdata = s.rxdata := rfl
@[simp] theorem tick_busy : (tick s).busy = s.busy := rfl
@[simp] theorem tick_sclk : (tick s).sclk = s.sclk := rfl
@[simp] theorem tick_mosi : (tick s).mosi = s.mosi := rfl
@[simp] theorem tick_waitReq : (tick s).waitReq = s.waitReq := rfl
@[simp] theorem tick_cur : (tick s).cur = s.cur := rfl
@[simp] theorem tick_held : (tick s).held = s.held := rfl
@[simp] theorem tick_hist : (tick s).hist = s.hist := rfl
@[simp] theorem tick_mem : (tick s).mem = s.mem := rfl
@[simp] theorem tick_env : (tick s).env = { s.env with sched := s.env.sched.tail, turn := s.env.turn + 1 } := rfl

/-! ### hostAdvance -/

@[simp] theorem hostAdvance_cfg : (hostAdvance s).cfg = s.cfg := rfl
@[simp] theorem hostAdvance_raddr : (hostAdvance s).raddr = s.raddr := rfl
@[simp] theorem hostAdvance_waddr : (hostAdvance s).waddr = s.waddr := rfl
@[simp] theorem hostAdvance_count : (hostAdvance s).count = s.count := rfl
@[simp] theorem hostAdvance_rxdata : (hostAdvance s).rxdata = s.rxdata := rfl
@[simp] theorem hostAdvance_busy : (hostAdvance s).busy = s.busy := rfl
@[simp] theorem hostAdvance_sclk : (hostAdvance s).sclk = s.sclk := rfl
@[simp] theorem hostAdvance_mosi : (hostAdvance s).mosi = s.mosi := rfl
@[simp] theorem hostAdvance_waitReq : (hostAdvance s).waitReq = s.waitReq := rfl
@[simp] theorem hostAdvance_cur : (hostAdvance s).cur = s.cur := rfl
@[simp] theorem hostAdvance_held : (hostAdvance s).held = s.held := rfl
@[simp] theorem hostAdvance_hist : (hostAdvance s).hist = s.hist := rfl
@[simp] theorem hostAdvance_mem : (hostAdvance s).mem = s.mem := rfl
@[simp] theorem hostAdvance_env : (hostAdvance s).env = { s.env with hostProg := s.env.hostProg.tail } := rfl

/-! ### logRead -/

@[simp] theorem logRead_cfg (v : ReadBack) : (logRead v s).cfg = s.cfg := rfl
@[simp] theorem logRead_raddr (v : ReadBack) : (logRead v s).raddr = s.raddr := rfl
@[simp] theorem logRead_waddr (v : ReadBack) : (logRead v s).waddr = s.waddr := rfl
@[simp] theorem logRead_count (v : ReadBack) : (logRead v s).count = s.count := rfl
@[simp] theorem logRead_rxdata (v : ReadBack) : (logRead v s).rxdata = s.rxdata := rfl
@[simp] theorem logRead_busy (v : ReadBack) : (logRead v s).busy = s.busy := rfl
@[simp] theorem logRead_sclk (v : ReadBack) : (logRead v s).sclk = s.sclk := rfl
@[simp] theorem logRead_mosi (v : ReadBack) : (logRead v s).mosi = s.mosi := rfl
@[simp] theorem logRead_waitReq (v : ReadBack) : (logRead v s).waitReq = s.waitReq := rfl
@[simp] theorem logRead_cur (v : ReadBack) : (logRead v s).cur = s.cur := rfl
@[simp] theorem logRead_held (v : ReadBack) : (logRead v s).held = s.held := rfl
@[simp] theorem logRead_hist (v : ReadBack) : (logRead v s).hist = s.hist := rfl
@[simp] theorem logRead_mem (v : ReadBack) : (logRead v s).mem = s.mem := rfl
@[simp] theorem logRead_env (v : ReadBack) : (logRead v s).env = { s.env with readLog := s.env.readLog ++ [v] } := rfl

/-! ### hardwareReset -/

@[simp] theorem hardwareReset_cfg : (hardwareReset s).cfg = 0#32 := rfl
@[simp] theorem hardwareReset_raddr : (hardwareReset s).raddr = 0#32 := rfl
@[simp] theorem hardwareReset_waddr : (hardwareReset s).waddr = 0#32 := rfl
@[simp] theorem hardwareReset_count : (hardwareReset s).count = 0#32 := rfl
@[simp] theorem hardwareReset_rxdata : (hardwareReset s).rxdata = 0#32 := rfl
@[simp] theorem hardwareReset_busy : (hardwareReset s).busy = false := rfl
@[simp] theorem hardwareReset_sclk : (hardwareReset s).sclk = false := rfl
@[simp] theorem hardwareReset_mosi : (hardwareReset s).mosi = false := rfl
@[simp] theorem hardwareReset_waitReq : (hardwareReset s).waitReq = false := rfl
@[simp] theorem hardwareReset_cur : (hardwareReset s).cur = none := rfl
@[simp] theorem hardwareReset_held : (hardwareReset s).held = none := rfl
@[simp] theorem hardwareReset_hist : (hardwareReset s).hist = s.hist ++ [.reset] := rfl
@[simp] theorem hardwareReset_mem : (hardwareReset s).mem = s.mem := rfl
@[simp] theorem hardwareReset_env : (hardwareReset s).env = s.env := rfl

/-! ### The fields of CFG depend on CFG alone -/

section Fields

variable {s} {t : State}

theorem cpol_of_cfg (h : t.cfg = s.cfg) : t.cpol = s.cpol := by simp [State.cpol, h]
theorem cpha_of_cfg (h : t.cfg = s.cfg) : t.cpha = s.cpha := by simp [State.cpha, h]
theorem lsbf_of_cfg (h : t.cfg = s.cfg) : t.lsbf = s.lsbf := by simp [State.lsbf, h]
theorem wordSize_of_cfg (h : t.cfg = s.cfg) : t.wordSize = s.wordSize := by
  simp [State.wordSize, State.ws, h]

end Fields

end Sys2Proof.Machine
end

