-- ==== Sys2Proof/Laws/Memory.lean ====
section
/-! SUPPORT. The laws of buffer memory: a read after a write, and that every operation keeps the canonical form. -/

namespace Sys2Proof.Machine

/-- A write leaves every other address alone. -/
theorem lookup_put_other (m : Memory) {a c : Nat} (v : Byte) (h : c ≠ a) :
    Memory.lookup (Memory.put m a v) c = Memory.lookup m c := by
  induction m with
  | nil => by_cases hv : v = Memory.fill <;> simp [Memory.put, Memory.lookup, hv, h]
  | cons e m ih =>
    obtain ⟨b, x⟩ := e
    simp only [Memory.put]
    split_ifs with h1 h2 h3 h4
    · rfl
    · simp [Memory.lookup, h]
    · subst h3; simp [Memory.lookup, h]
    · subst h3; simp [Memory.lookup, h]
    · simp [Memory.lookup, ih]

theorem wfFrom_mono {lo lo' : Nat} {m : Memory} (h : lo' ≤ lo) (w : Memory.wfFrom lo m = true) :
    Memory.wfFrom lo' m = true := by
  cases m with
  | nil => rfl
  | cons e m =>
    obtain ⟨b, x⟩ := e
    simp only [Memory.wfFrom, Bool.and_eq_true, decide_eq_true_eq] at w ⊢
    exact ⟨⟨⟨by omega, w.1.1.2⟩, w.1.2⟩, w.2⟩

/-- Below the first listed address everything reads as an unlisted byte. -/
theorem lookup_below {lo : Nat} {m : Memory} (w : Memory.wfFrom lo m = true) {a : Nat} (h : a < lo) :
    Memory.lookup m a = Memory.fill := by
  induction m generalizing lo with
  | nil => rfl
  | cons e m ih =>
    obtain ⟨b, x⟩ := e
    simp only [Memory.wfFrom, Bool.and_eq_true, decide_eq_true_eq] at w
    rw [Memory.lookup, if_neg (by omega)]
    exact ih w.2 (by omega)

/-- A read after a write to the same address gives the byte written. -/
theorem lookup_put_same {lo : Nat} {m : Memory} (w : Memory.wfFrom lo m = true) (a : Nat) (v : Byte) :
    Memory.lookup (Memory.put m a v) a = v := by
  induction m generalizing lo with
  | nil => by_cases hv : v = Memory.fill <;> simp [Memory.put, Memory.lookup, hv]
  | cons e m ih =>
    obtain ⟨b, x⟩ := e
    simp only [Memory.wfFrom, Bool.and_eq_true, decide_eq_true_eq] at w
    simp only [Memory.put]
    split_ifs with h1 h2 h3 h4
    · rw [Memory.lookup, if_neg (by omega), h2]
      exact lookup_below w.2 (by omega)
    · simp [Memory.lookup]
    · rw [h4]; exact lookup_below w.2 (by omega)
    · simp [Memory.lookup]
    · rw [Memory.lookup, if_neg h3]; exact ih w.2

/-- A write keeps the canonical form above any bound below its address. -/
theorem wfFrom_put {lo : Nat} {m : Memory} (w : Memory.wfFrom lo m = true) {a : Nat} (v : Byte)
    (hlo : lo ≤ a) (ha : a < 2 ^ 32) : Memory.wfFrom lo (Memory.put m a v) = true := by
  induction m generalizing lo with
  | nil =>
    by_cases hv : v = Memory.fill
    · simp [Memory.put, Memory.wfFrom, hv]
    · simp only [Memory.put, Memory.wfFrom, if_neg hv, Bool.and_eq_true, decide_eq_true_eq]
      exact ⟨⟨⟨hlo, ha⟩, hv⟩, trivial⟩
  | cons e m ih =>
    obtain ⟨b, x⟩ := e
    have w' := w
    simp only [Memory.wfFrom, Bool.and_eq_true, decide_eq_true_eq] at w'
    simp only [Memory.put]
    split_ifs with h1 h2 h3 h4
    · exact w
    · simp only [Memory.wfFrom, Bool.and_eq_true, decide_eq_true_eq]
      exact ⟨⟨⟨hlo, ha⟩, h2⟩, ⟨⟨by omega, w'.1.1.2⟩, w'.1.2⟩, w'.2⟩
    · exact wfFrom_mono (by omega) w'.2
    · simp only [Memory.wfFrom, Bool.and_eq_true, decide_eq_true_eq]
      exact ⟨⟨⟨hlo, ha⟩, h4⟩, by rw [h3]; exact w'.2⟩
    · simp only [Memory.wfFrom, Bool.and_eq_true, decide_eq_true_eq]
      exact ⟨w'.1, ih w'.2 (by omega)⟩

/-- Storing a byte keeps buffer memory in canonical form. -/
theorem wf_put {m : Memory} (w : Memory.wf m = true) (a : Addr) (v : Byte) :
    Memory.wf (Memory.put m a.toNat v) = true :=
  wfFrom_put w v (Nat.zero_le _) a.isLt

theorem reset_mem_wf : Memory.wf State.reset.mem = true := rfl

/-- Two canonical memories that read alike everywhere are equal data. -/
theorem wf_ext {lo : Nat} {m n : Memory} (wm : Memory.wfFrom lo m = true) (wn : Memory.wfFrom lo n = true)
    (h : ∀ a, Memory.lookup m a = Memory.lookup n a) : m = n := by
  induction m generalizing lo n with
  | nil =>
    cases n with
    | nil => rfl
    | cons e n =>
      obtain ⟨b, x⟩ := e
      simp only [Memory.wfFrom, Bool.and_eq_true, decide_eq_true_eq] at wn
      have := h b
      simp only [Memory.lookup, if_pos] at this
      exact absurd this.symm wn.1.2
  | cons e m ih =>
    obtain ⟨b, x⟩ := e
    cases n with
    | nil =>
      simp only [Memory.wfFrom, Bool.and_eq_true, decide_eq_true_eq] at wm
      have := h b
      simp only [Memory.lookup, if_pos] at this
      exact absurd this wm.1.2
    | cons e' n =>
      obtain ⟨c, y⟩ := e'
      simp only [Memory.wfFrom, Bool.and_eq_true, decide_eq_true_eq] at wm wn
      have hbc : b = c := by
        rcases Nat.lt_trichotomy b c with hlt | heq | hgt
        · have := h b
          rw [Memory.lookup, if_pos rfl, Memory.lookup, if_neg (by omega), lookup_below wn.2 (by omega)] at this
          exact absurd this wm.1.2
        · exact heq
        · have := h c
          rw [Memory.lookup, if_neg (by omega), lookup_below wm.2 (by omega), Memory.lookup, if_pos rfl] at this
          exact absurd this.symm wn.1.2
      subst hbc
      have hxy : x = y := by simpa [Memory.lookup] using h b
      subst hxy
      have : m = n := ih wm.2 wn.2 (fun a => by
        by_cases hab : a = b
        · subst hab
          rw [lookup_below wm.2 (by omega), lookup_below wn.2 (by omega)]
        · simpa [Memory.lookup, hab] using h a)
      rw [this]

/-- `MemRead` that has a step: the byte, and H with one event more. -/
theorem memRead_eq_some {a : Addr} {s s' : State} {v : Byte} :
    memRead a s = some (v, s') ↔
      s.admitted a = true ∧ v = s.byteAt a ∧ s' = { s with hist := s.hist ++ [.memRd a v] } := by
  unfold memRead
  split_ifs with h
  · simp only [h, Option.some.injEq, Prod.mk.injEq, true_and]
    constructor
    · rintro ⟨rfl, rfl⟩; exact ⟨rfl, rfl⟩
    · rintro ⟨rfl, rfl⟩; exact ⟨rfl, rfl⟩
  · simp [h]

/-- `MemWrite` that has a step: the byte stored, and H with one event more. -/
theorem memWrite_eq_some {a : Addr} {s s' : State} {v : Byte} :
    memWrite a v s = some s' ↔
      s.admitted a = true ∧
        s' = { s with mem := Memory.put s.mem a.toNat v, hist := s.hist ++ [.memWr a v] } := by
  unfold memWrite
  split_ifs with h
  · simp only [h, Option.some.injEq, true_and]
    exact eq_comm
  · simp [h]

theorem memRead_eq_none {a : Addr} {s : State} : memRead a s = none ↔ s.admitted a = false := by
  unfold memRead; split_ifs with h <;> simp [h]

theorem memWrite_eq_none {a : Addr} {v : Byte} {s : State} : memWrite a v s = none ↔ s.admitted a = false := by
  unfold memWrite; split_ifs with h <;> simp [h]

end Sys2Proof.Machine
end

