-- ==== Sys2Proof/Laws/Exec.lean ====
section
/-! SUPPORT. What one step of a command can do, said once: the sequencer's step over a command, one action of
`TransferBit`, and the inversion of `exec`. -/

namespace Sys2Proof.Machine

/-! ### The sequencer's step over a command -/

section Sequence

variable {i : Instr} {start run : Running} {act : Running → Out} {s t : State}

/-- With BUSY = 0 the command is issued. -/
theorem sequence_idle (h : s.busy = false) : sequence i start act s = .next (issue start s) := by
  simp [sequence, h]

/-- While a wait is held nothing happens. -/
theorem sequence_waiting (hb : s.busy = true) (hw : s.waitReq = true) : sequence i start act s = .next s := by
  simp [sequence, hb, hw]

/-- The command in progress performs its next action. -/
theorem sequence_running (hb : s.busy = true) (hw : s.waitReq = false) (hc : s.cur = some run)
    (hi : run.cmd = i) : sequence i start act s = act run := by
  simp [sequence, hb, hw, hc, hi]

/-- While another command is in progress nothing happens. -/
theorem sequence_other (hb : s.busy = true) (hw : s.waitReq = false) (hc : s.cur = some run)
    (hi : run.cmd ≠ i) : sequence i start act s = .next s := by
  simp [sequence, hb, hw, hc, hi]

/-- Everything the sequencer's step over a command can be. -/
theorem sequence_cases :
    (s.busy = false ∧ sequence i start act s = .next (issue start s)) ∨
    (s.busy = true ∧ sequence i start act s = .next s) ∨
    (∃ run, s.busy = true ∧ s.waitReq = false ∧ s.cur = some run ∧ run.cmd = i ∧
      sequence i start act s = act run) := by
  cases hb : s.busy with
  | false => exact .inl ⟨rfl, sequence_idle hb⟩
  | true =>
    cases hw : s.waitReq with
    | true => exact .inr (.inl ⟨rfl, sequence_waiting hb hw⟩)
    | false =>
      cases hc : s.cur with
      | none => exact .inr (.inl ⟨rfl, by simp [sequence, hb, hw, hc]⟩)
      | some run =>
        by_cases hi : run.cmd = i
        · exact .inr (.inr ⟨run, rfl, rfl, rfl, hi, sequence_running hb hw hc hi⟩)
        · exact .inr (.inl ⟨rfl, sequence_other hb hw hc hi⟩)

end Sequence

/-! ### Primitive actions -/

/-- One primitive action of the block (00_scope R12, R13), apart from the wait. -/
inductive Primitive (s : State) : State → Prop where
  | clk (l : Level) : Primitive s (setClk l s)
  | mosi (l : Level) : Primitive s (setMosi l s)
  | clkMosi (c d : Level) : Primitive s (setClkMosi c d s)
  | clkSample (l : Level) : Primitive s (setClkSample l s)
  | memRd (a : Addr) : s.admitted a = true →
      Primitive s { s with hist := s.hist ++ [.memRd a (s.byteAt a)] }
  | memWr (a : Addr) (v : Byte) : s.admitted a = true →
      Primitive s { s with mem := Memory.put s.mem a.toNat v, hist := s.hist ++ [.memWr a v] }

/-- What a step of the command in progress does: request a wait, perform one primitive action and move on, or
complete. -/
inductive Acts (s : State) (run : Running) : State → Prop where
  | wait : run.pos.isWait = true → Acts s run (raiseWait s)
  | action {s' : State} (run' : Running) : Primitive s s' → run'.cmd = run.cmd → Acts s run (goto run' s')
  | complete (result : Option Word) : run.pos = .done → Acts s run (complete result s)

/-- One action of `TransferBit` requests a wait or performs one pin action. -/
theorem bitStep_acts {b : Level} {p : BitPos} {fin : Running → Running} {run : Running} {s : State}
    (hp : run.pos = .bit p) (hf : ∀ r : Running, (fin r).cmd = r.cmd) :
    Acts s run (bitStep b p fin run s) := by
  cases p with
  | drive => exact .action _ (.mosi b) rfl
  | wait1 => exact .wait (by rw [hp]; rfl)
  | wait2 => exact .wait (by rw [hp]; rfl)
  | lead =>
    unfold bitStep
    split_ifs
    · exact .action _ (.clkMosi _ _) rfl
    · exact .action _ (.clkSample _) rfl
  | trail =>
    unfold bitStep
    split_ifs
    · exact .action _ (.clkSample _) (by simp [hf])
    · exact .action _ (.clk _) (by simp [hf])

@[simp] theorem toDone_cmd (r : Running) : (toDone r).cmd = r.cmd := rfl

@[simp] theorem startByte_cmd (d : Byte) (s : State) (r : Running) : (startByte d s r).cmd = r.cmd := rfl

@[simp] theorem startElement_cmd (wr : Bool) (s : State) (r : Running) : (startElement wr s r).cmd = r.cmd := by
  unfold startElement; split_ifs <;> rfl

@[simp] theorem nextElement_cmd (wr : Bool) (s : State) (r : Running) : (nextElement wr s r).cmd = r.cmd := by
  unfold nextElement; split_ifs <;> simp

@[simp] theorem endByte_cmd (rd wr : Bool) (s : State) (r : Running) : (endByte rd wr s r).cmd = r.cmd := by
  unfold endByte; split_ifs <;> simp

theorem nextBit_cmd {s : State} {fin : Running → Running} (hf : ∀ r : Running, (fin r).cmd = r.cmd)
    (r : Running) : (nextBit s fin r).cmd = r.cmd := by
  simp only [nextBit]; split_ifs <;> simp [hf]

/-! ### exec -/

/-- The running state a command is issued with. -/
def startOf (i : Instr) (s : State) : Running :=
  match i with
  | .busReset => startBusReset
  | .xferBit b => startXferBit b s
  | .xferByte d => startXferByte d s
  | .xferBuf rd wr => startXferBuf rd wr s

theorem startOf_cmd (i : Instr) (s : State) : (startOf i s).cmd = i := by
  cases i with
  | busReset => rfl
  | xferBit b => rfl
  | xferByte d => rfl
  | xferBuf rd wr => simp only [startOf, startXferBuf]; split_ifs <;> simp

/-- With BUSY = 0 every command is issued. -/
theorem exec_idle {i : Instr} {s : State} (h : s.busy = false) : exec i s = .next (issue (startOf i s) s) := by
  cases i <;> exact sequence_idle h

/-- While a wait is held no command does anything. -/
theorem exec_waiting {i : Instr} {s : State} (hb : s.busy = true) (hw : s.waitReq = true) :
    exec i s = .next s := by
  cases i <;> exact sequence_waiting hb hw

section Running

variable {s : State} {w : Work} {p : BitPos}

theorem exec_busReset_lines (hb : s.busy = true) (hw : s.waitReq = false)
    (hc : s.cur = some ⟨.busReset, .lines, w⟩) :
    exec .busReset s = .next (goto ⟨.busReset, .done, w⟩ (setClkMosi s.cpol false s)) :=
  sequence_running hb hw hc rfl

theorem exec_busReset_done (hb : s.busy = true) (hw : s.waitReq = false)
    (hc : s.cur = some ⟨.busReset, .done, w⟩) : exec .busReset s = .next (complete none s) :=
  sequence_running hb hw hc rfl

theorem exec_xferBit_bit {b : Level} (hb : s.busy = true) (hw : s.waitReq = false)
    (hc : s.cur = some ⟨.xferBit b, .bit p, w⟩) :
    exec (.xferBit b) s = .next (bitStep b p toDone ⟨.xferBit b, .bit p, w⟩ s) :=
  sequence_running hb hw hc rfl

theorem exec_xferBit_done {b : Level} (hb : s.busy = true) (hw : s.waitReq = false)
    (hc : s.cur = some ⟨.xferBit b, .done, w⟩) :
    exec (.xferBit b) s = .next (complete (some (bitWord w.r)) s) :=
  sequence_running hb hw hc rfl

theorem exec_xferByte_bit {d : Byte} (hb : s.busy = true) (hw : s.waitReq = false)
    (hc : s.cur = some ⟨.xferByte d, .bit p, w⟩) :
    exec (.xferByte d) s = .next (bitStep w.txBit p (nextBit s toDone) ⟨.xferByte d, .bit p, w⟩ s) :=
  sequence_running hb hw hc rfl

theorem exec_xferByte_done {d : Byte} (hb : s.busy = true) (hw : s.waitReq = false)
    (hc : s.cur = some ⟨.xferByte d, .done, w⟩) :
    exec (.xferByte d) s = .next (complete (some (byteWord w.rx)) s) :=
  sequence_running hb hw hc rfl

theorem exec_xferBuf_load {rd wr : Bool} (hb : s.busy = true) (hw : s.waitReq = false)
    (hc : s.cur = some ⟨.xferBuf rd wr, .load, w⟩) :
    exec (.xferBuf rd wr) s = loadStep ⟨.xferBuf rd wr, .load, w⟩ s :=
  sequence_running hb hw hc rfl

theorem exec_xferBuf_bit {rd wr : Bool} (hb : s.busy = true) (hw : s.waitReq = false)
    (hc : s.cur = some ⟨.xferBuf rd wr, .bit p, w⟩) :
    exec (.xferBuf rd wr) s =
      .next (bitStep w.txBit p (nextBit s (endByte rd wr s)) ⟨.xferBuf rd wr, .bit p, w⟩ s) :=
  sequence_running hb hw hc rfl

theorem exec_xferBuf_store {rd wr : Bool} (hb : s.busy = true) (hw : s.waitReq = false)
    (hc : s.cur = some ⟨.xferBuf rd wr, .store, w⟩) :
    exec (.xferBuf rd wr) s = storeStep wr ⟨.xferBuf rd wr, .store, w⟩ s :=
  sequence_running hb hw hc rfl

theorem exec_xferBuf_done {rd wr : Bool} (hb : s.busy = true) (hw : s.waitReq = false)
    (hc : s.cur = some ⟨.xferBuf rd wr, .done, w⟩) : exec (.xferBuf rd wr) s = .next (complete none s) :=
  sequence_running hb hw hc rfl

end Running

/-! ### Between two bits -/

/-- Where a command stands once a bit is over: at the next bit's first action, a memory action or its completion step. -/
def Pos.betweenBits (cpha : Bool) (p : Pos) : Prop :=
  p = .bit (BitPos.first cpha) ∨ p = .load ∨ p = .store ∨ p = .done

theorem startElement_between (wr : Bool) (s : State) (r : Running) :
    (startElement wr s r).pos.betweenBits s.cpha := by
  unfold startElement
  split_ifs
  · exact .inr (.inl rfl)
  · exact .inl rfl

theorem nextElement_between (wr : Bool) (s : State) (r : Running) :
    (nextElement wr s r).pos.betweenBits s.cpha := by
  unfold nextElement
  split_ifs
  · exact .inr (.inr (.inr rfl))
  · exact startElement_between _ _ _

theorem endByte_between (rd wr : Bool) (s : State) (r : Running) :
    (endByte rd wr s r).pos.betweenBits s.cpha := by
  unfold endByte
  split_ifs
  · exact .inr (.inr (.inl rfl))
  · exact nextElement_between _ _ _

theorem nextBit_between {s : State} {fin : Running → Running} (hf : ∀ r, (fin r).pos.betweenBits s.cpha)
    (r : Running) : (nextBit s fin r).pos.betweenBits s.cpha := by
  simp only [nextBit]
  split_ifs
  · exact hf _
  · exact .inl rfl

/-- The step of a transfer command at a position of `TransferBit`: the action there, on the bit the command sends. -/
theorem exec_bit {s : State} {run : Running} {p : BitPos} (h : InProgress s run) (hc : run.cmd ≠ .busReset)
    (hp : run.pos = .bit p) :
    ∃ fin : Running → Running, (∀ r : Running, (fin r).cmd = r.cmd) ∧
      (∀ r, (fin r).pos.betweenBits s.cpha) ∧ (∀ b r, run.cmd = .xferBit b → (fin r).pos = .done) ∧
      exec run.cmd s = .next (bitStep run.sentBit p fin run s) := by
  obtain ⟨hb, hw, hcur⟩ := h
  obtain ⟨cmd, pos, w⟩ := run
  dsimp only at hc hp
  subst hp
  have hd : ∀ r, (toDone r).pos.betweenBits s.cpha := fun _ => .inr (.inr (.inr rfl))
  cases cmd with
  | busReset => exact absurd rfl hc
  | xferBit b => exact ⟨toDone, toDone_cmd, hd, fun _ _ _ => rfl, exec_xferBit_bit hb hw hcur⟩
  | xferByte d =>
    exact ⟨nextBit s toDone, nextBit_cmd toDone_cmd, nextBit_between hd, nofun, exec_xferByte_bit hb hw hcur⟩
  | xferBuf rd wr =>
    exact ⟨nextBit s (endByte rd wr s), nextBit_cmd (endByte_cmd rd wr s),
      nextBit_between (endByte_between rd wr s), nofun, exec_xferBuf_bit hb hw hcur⟩

/-! ### The memory actions -/

theorem loadStep_cases (run : Running) (s : State) :
    (s.admitted (s.loadAddr run.work.k) = true ∧
      loadStep run s = .next (goto
        (startByte (s.byteAt (s.loadAddr run.work.k)) s
          { run with work := { run.work with t := s.byteAt (s.loadAddr run.work.k) } })
        { s with hist := s.hist ++ [.memRd (s.loadAddr run.work.k) (s.byteAt (s.loadAddr run.work.k))] })) ∨
    (s.admitted (s.loadAddr run.work.k) = false ∧
      loadStep run s = .fault (.notAdmitted (s.loadAddr run.work.k))) := by
  unfold loadStep memRead
  by_cases h : s.admitted (s.loadAddr run.work.k) = true <;> simp [h]

theorem storeStep_cases (wr : Bool) (run : Running) (s : State) :
    (s.admitted (s.storeAddr run.work.k) = true ∧
      storeStep wr run s = .next (goto (nextElement wr s run)
        { s with
          mem := Memory.put s.mem (s.storeAddr run.work.k).toNat run.work.rx
          hist := s.hist ++ [.memWr (s.storeAddr run.work.k) run.work.rx] })) ∨
    (s.admitted (s.storeAddr run.work.k) = false ∧
      storeStep wr run s = .fault (.notAdmitted (s.storeAddr run.work.k))) := by
  unfold storeStep memWrite
  by_cases h : s.admitted (s.storeAddr run.work.k) = true <;> simp [h]

/-- Everything a command's step can answer. -/
theorem exec_cases (i : Instr) (s : State) :
    (s.busy = false ∧ exec i s = .next (issue (startOf i s) s)) ∨
    (s.busy = true ∧ exec i s = .next s) ∨
    (∃ run, s.busy = true ∧ s.waitReq = false ∧ s.cur = some run ∧ run.cmd = i ∧
      ((∃ t, exec i s = .next t ∧ Acts s run t) ∨ ∃ f, exec i s = .fault f)) := by
  cases i with
  | busReset =>
    refine (sequence_cases (i := .busReset)).imp id (Or.imp id ?_)
    rintro ⟨⟨cmd, pos, w⟩, hb, hw, hc, hi, he⟩
    refine ⟨_, hb, hw, hc, hi, ?_⟩
    dsimp only at hi
    subst hi
    cases pos with
    | lines => exact .inl ⟨_, he, .action _ (.clkMosi _ _) rfl⟩
    | done => exact .inl ⟨_, he, .complete _ rfl⟩
    | load => exact .inr ⟨_, he⟩
    | bit p => exact .inr ⟨_, he⟩
    | store => exact .inr ⟨_, he⟩
  | xferBit b =>
    refine (sequence_cases (i := .xferBit b)).imp id (Or.imp id ?_)
    rintro ⟨⟨cmd, pos, w⟩, hb, hw, hc, hi, he⟩
    refine ⟨_, hb, hw, hc, hi, ?_⟩
    dsimp only at hi
    subst hi
    cases pos with
    | bit p => exact .inl ⟨_, he, bitStep_acts rfl toDone_cmd⟩
    | done => exact .inl ⟨_, he, .complete _ rfl⟩
    | lines => exact .inr ⟨_, he⟩
    | load => exact .inr ⟨_, he⟩
    | store => exact .inr ⟨_, he⟩
  | xferByte d =>
    refine (sequence_cases (i := .xferByte d)).imp id (Or.imp id ?_)
    rintro ⟨⟨cmd, pos, w⟩, hb, hw, hc, hi, he⟩
    refine ⟨_, hb, hw, hc, hi, ?_⟩
    dsimp only at hi
    subst hi
    cases pos with
    | bit p => exact .inl ⟨_, he, bitStep_acts rfl (nextBit_cmd toDone_cmd)⟩
    | done => exact .inl ⟨_, he, .complete _ rfl⟩
    | lines => exact .inr ⟨_, he⟩
    | load => exact .inr ⟨_, he⟩
    | store => exact .inr ⟨_, he⟩
  | xferBuf rd wr =>
    refine (sequence_cases (i := .xferBuf rd wr)).imp id (Or.imp id ?_)
    rintro ⟨⟨cmd, pos, w⟩, hb, hw, hc, hi, he⟩
    refine ⟨_, hb, hw, hc, hi, ?_⟩
    dsimp only at hi
    subst hi
    cases pos with
    | load =>
      dsimp only at he
      rcases loadStep_cases ⟨.xferBuf rd wr, .load, w⟩ s with ⟨ha, hl⟩ | ⟨_, hl⟩
      · exact .inl ⟨_, he.trans hl, .action _ (.memRd _ ha) rfl⟩
      · exact .inr ⟨_, he.trans hl⟩
    | bit p => exact .inl ⟨_, he, bitStep_acts rfl (nextBit_cmd (endByte_cmd rd wr s))⟩
    | store =>
      dsimp only at he
      rcases storeStep_cases wr ⟨.xferBuf rd wr, .store, w⟩ s with ⟨ha, hl⟩ | ⟨_, hl⟩
      · exact .inl ⟨_, he.trans hl, .action _ (.memWr _ _ ha) (nextElement_cmd _ _ _)⟩
      · exact .inr ⟨_, he.trans hl⟩
    | done => exact .inl ⟨_, he, .complete _ rfl⟩
    | lines => exact .inr ⟨_, he⟩

/-- Inversion: what a next state of a command is. -/
theorem exec_next_cases {i : Instr} {s t : State} (h : exec i s = .next t) :
    (s.busy = false ∧ t = issue (startOf i s) s) ∨ (s.busy = true ∧ t = s) ∨
    (∃ run, s.busy = true ∧ s.waitReq = false ∧ s.cur = some run ∧ run.cmd = i ∧ Acts s run t) := by
  rcases exec_cases i s with ⟨hb, he⟩ | ⟨hb, he⟩ | ⟨run, hb, hw, hc, hi, ⟨t', he, ha⟩ | ⟨f, he⟩⟩
  · rw [he] at h; cases h; exact .inl ⟨hb, rfl⟩
  · rw [he] at h; cases h; exact .inr (.inl ⟨hb, rfl⟩)
  · rw [he] at h; cases h; exact .inr (.inr ⟨run, hb, hw, hc, hi, ha⟩)
  · rw [he] at h; cases h

/-- No command is refused. -/
theorem exec_not_refused (i : Instr) (s : State) (r : Refusal) : exec i s ≠ .refused r := by
  rcases exec_cases i s with ⟨_, he⟩ | ⟨_, he⟩ | ⟨run, _, _, _, _, ⟨t', he, _⟩ | ⟨f, he⟩⟩ <;> rw [he] <;> simp

end Sys2Proof.Machine
end

