-- ==== Sys2Proof/Laws/Step.lean ====
section
/-! SUPPORT. What one turn can do, said once: the inversion of an accepted host write, of each agent's turn, and of
the machine's step. -/

namespace Sys2Proof.Machine

variable {s t : State}

theorem ofOffset_cmd {offset : Nat} : Reg.ofOffset offset = some .cmd ↔ offset = 0x10 := by
  constructor
  · intro h
    unfold Reg.ofOffset at h
    split at h <;> simp_all
  · rintro rfl; rfl

theorem ofOffset_cfg {offset : Nat} : Reg.ofOffset offset = some .cfg ↔ offset = 0x00 := by
  constructor
  · intro h
    unfold Reg.ofOffset at h
    split at h <;> simp_all
  · rintro rfl; rfl

/-- What an accepted host write can leave. -/
theorem acceptWrite_next {w : RegWrite} (h : acceptWrite w s = .next t) :
    (∃ i, w.offset = 0x10 ∧ decode w.value = .command i ∧ exec i s = .next t) ∨
    (∃ r, Reg.ofOffset w.offset = some r ∧ r ≠ .cmd ∧ t = writeReg r w.value s) ∨ t = s := by
  unfold acceptWrite at h
  split at h
  · rename_i hr
    unfold acceptCommand at h
    split at h
    · exact .inl ⟨_, ofOffset_cmd.mp hr, by assumption, h⟩
    · cases h
  · rename_i r hne hr
    cases h
    exact .inr (.inl ⟨r, hr, hne, rfl⟩)
  · cases h; exact .inr (.inr rfl)

/-- An accepted host write to CMD runs the command its word decodes to. -/
theorem acceptWrite_command {w : Word} {i : Instr} (h : decode w = .command i) :
    acceptWrite ⟨0x10, w⟩ s = exec i s := by
  simp [acceptWrite, Reg.ofOffset, acceptCommand, h]

/-- An accepted host write of a reserved word to CMD is refused. -/
theorem acceptWrite_reserved {w : Word} {why : Reserved} (h : decode w = .reserved why) :
    acceptWrite ⟨0x10, w⟩ s = .refused (.reservedCommand why w) := by
  simp [acceptWrite, Reg.ofOffset, acceptCommand, h]

/-! ### The held write -/

theorem orAcceptHeld_none {turn : State → Out} (h : s.held = none) : orAcceptHeld turn s = turn s := by
  simp [orAcceptHeld, h]

theorem orAcceptHeld_busy {turn : State → Out} (h : s.busy = true) : orAcceptHeld turn s = turn s := by
  unfold orAcceptHeld; split <;> simp [h]

theorem orAcceptHeld_accept {turn : State → Out} {w : RegWrite} (h : s.held = some w) (hb : s.busy = false) :
    orAcceptHeld turn s = acceptWrite w { s with held := none } := by
  simp [orAcceptHeld, h, hb]

/-! ### Turns -/

/-- Everything the turn of an agent can leave. -/
inductive Turn (s : State) : Agent → State → Prop where
  /-- a hardware reset -/
  | reset : Turn s .reset (hardwareReset s)
  /-- nothing -/
  | rest (a : Agent) : Turn s a s
  /-- the sequencer's step of the command in progress -/
  | command {t : State} (run : Running) : (s.held = none ∨ s.busy = true) → s.cur = some run →
      exec run.cmd s = .next t → Turn s .sequencer t
  /-- the acknowledgement of a wait -/
  | acknowledge : s.waitReq = true → Turn s .delayUnit (endWait s)
  /-- the held write accepted -/
  | acceptHeld {t : State} (a : Agent) (w : RegWrite) : a ≠ .reset → s.held = some w → s.busy = false →
      acceptWrite w { s with held := none } = .next t → Turn s a t
  /-- a fresh host write accepted -/
  | acceptFresh {t : State} (w : RegWrite) : s.held = none → s.busy = false →
      s.env.hostProg.head? = some (.write w.offset 32 w.value) → inWindow w.offset = true →
      acceptWrite w (hostAdvance s) = .next t → Turn s .host t
  /-- a host write held -/
  | hold (w : RegWrite) : s.held = none → s.busy = true →
      s.env.hostProg.head? = some (.write w.offset 32 w.value) →
      accessShape w.offset 32 = true → inWindow w.offset = true →
      Turn s .host { hostAdvance s with held := some w }
  /-- a host access that leaves the block and its memory alone -/
  | look (prog : List HostOp) (log : List ReadBack) : s.held = none →
      (∀ w : RegWrite, s.env.hostProg.head? = some (.write w.offset 32 w.value) → inWindow w.offset = false) →
      Turn s .host { s with env := { s.env with hostProg := prog, readLog := log } }
  /-- a host store into buffer memory -/
  | store (a : Addr) (v : Byte) : s.held = none → racesBuffers true a s = false → s.admitted a = true →
      Turn s .host ((hostAdvance s).setByte a v)

theorem sequencerTurn_next (hh : s.held = none ∨ s.busy = true) (h : sequencerTurn s = .next t) :
    Turn s .sequencer t := by
  unfold sequencerTurn at h
  split at h
  · cases h; exact .rest _
  · rename_i run hc
    split at h
    · cases h; exact .command run hh hc (by assumption)
    · cases h; exact .rest _
    · cases h
    · cases h

theorem hostTurn_next (h : hostTurn s = .next t) : Turn s .host t := by
  unfold hostTurn at h
  split_ifs at h with hheld
  · cases h; exact .rest _
  · have hn : s.held = none := by simpa using hheld
    split at h
    · cases h; exact .rest _
    · rename_i offset width v rest hp
      unfold hostWrite at h
      split_ifs at h with hs hw hb
      · cases h
        have h32 : width = 32 := by simp [accessShape] at hs; exact hs.1
        subst h32
        exact .hold ⟨offset, v⟩ hn hb (by simp [hp]) hs hw
      · have h32 : width = 32 := by simp [accessShape] at hs; exact hs.1
        subst h32
        exact .acceptFresh ⟨offset, v⟩ hn (by simpa using hb) (by simp [hp]) hw h
      · cases h
        exact .look _ _ hn (by
          intro w hw'
          simp only [hp, List.head?_cons, Option.some.injEq, HostOp.write.injEq] at hw'
          rw [← hw'.1]; simpa using hw)
    · rename_i offset width rest hp
      unfold hostRead at h
      split_ifs at h
      split at h <;> cases h <;> exact .look _ _ hn (by simp [hp])
    · rename_i rest hp
      unfold hostSync at h
      dsimp only at h
      split_ifs at h <;> cases h <;> exact .look _ _ hn (by simp [hp])
    · rename_i a v rest hp
      unfold hostStore at h
      split_ifs at h with hr ha
      cases h
      exact .store a v hn (by simpa using hr) ha
    · rename_i a rest hp
      unfold hostLoad at h
      split_ifs at h with hr ha
      cases h
      exact .look _ _ hn (by simp [hp])

/-- Inversion: what a turn can leave. -/
theorem agentTurn_next {a : Agent} (h : agentTurn a s = .next t) : Turn s a t := by
  by_cases hacc : ∃ w, s.held = some w ∧ s.busy = false
  · obtain ⟨w, hw, hb⟩ := hacc
    cases a with
    | reset => cases h; exact .reset
    | sequencer => exact .acceptHeld _ w (by simp) hw hb (by rwa [agentTurn, orAcceptHeld_accept hw hb] at h)
    | delayUnit => exact .acceptHeld _ w (by simp) hw hb (by rwa [agentTurn, orAcceptHeld_accept hw hb] at h)
    | host => exact .acceptHeld _ w (by simp) hw hb (by rwa [agentTurn, orAcceptHeld_accept hw hb] at h)
  · have hh : s.held = none ∨ s.busy = true := by
      rcases hheld : s.held with _ | w
      · exact .inl rfl
      · refine .inr ?_
        by_contra hb
        exact hacc ⟨w, hheld, by simpa using hb⟩
    have key : ∀ turn : State → Out, orAcceptHeld turn s = turn s := fun turn => by
      rcases hh with h1 | h1
      · exact orAcceptHeld_none h1
      · exact orAcceptHeld_busy h1
    cases a with
    | reset => cases h; exact .reset
    | sequencer => rw [agentTurn, key] at h; exact sequencerTurn_next hh h
    | delayUnit =>
      rw [agentTurn, key] at h
      cases h
      unfold delayTurn
      split_ifs with hw
      · exact .acknowledge hw
      · exact .rest _
    | host => rw [agentTurn, key] at h; exact hostTurn_next h

theorem step_next (h : step s = .next t) : Turn (tick s) (nextAgent s) t := agentTurn_next h

/-- The acknowledgement of a wait the command in progress has just requested. -/
theorem delayUnit_acknowledges {s : State} {run : Running} {p : BitPos} (h : InProgress s run)
    (hp : run.pos = .bit p) :
    agentTurn .delayUnit { s with waitReq := true } = .next { s with
      hist := s.hist ++ [.wait], cur := some { run with pos := .bit p.afterWait } } := by
  obtain ⟨hb, hw, hc⟩ := h
  rw [agentTurn, orAcceptHeld_busy (s := { s with waitReq := true }) hb]
  simp only [delayTurn, if_true, endWait, hc, Option.map, Running.afterWait, Pos.afterWait, hw, hp]

theorem tick_admitted (s : State) (a : Addr) : (tick s).admitted a = s.admitted a := rfl

end Sys2Proof.Machine
end

