-- ==== Sys2Proof/Laws/Invariant.lean ====
section
/-! SUPPORT. The invariant of Safety.lean in parts, and that a command, its issue and an accepted host write keep it. -/

namespace Sys2Proof.Machine

/-- The parts of the invariant. -/
structure InvParts (s : State) : Prop where
  cfg : s.cfg &&& cfgMask = s.cfg
  rxdata : s.rxdata &&& rxdataMask = s.rxdata
  busy : s.busy = s.cur.isSome
  wait : s.waitReq = true → ∃ run, s.cur = some run ∧ run.pos.isWait = true
  legal : ∀ run, s.cur = some run → run.legal s = true
  held : ∀ w, s.held = some w → accessShape w.offset 32 = true ∧ inWindow w.offset = true
  mem : Memory.wf s.mem = true

theorem inv_iff (s : State) : s.inv = true ↔ InvParts s := by
  constructor
  · intro h
    simp only [State.inv, Bool.and_eq_true, beq_iff_eq] at h
    obtain ⟨⟨⟨⟨⟨⟨h1, h2⟩, h3⟩, h4⟩, h5⟩, h6⟩, h7⟩ := h
    refine ⟨h1, h2, h3, ?_, ?_, ?_, h7⟩
    · intro hw
      cases hc : s.cur with
      | none => simp [hw, hc] at h4
      | some run => exact ⟨run, rfl, by simpa [hw, hc] using h4⟩
    · intro run hc; simpa [hc] using h5
    · intro w hw; simpa [hw] using h6
  · rintro ⟨h1, h2, h3, h4, h5, h6, h7⟩
    simp only [State.inv, Bool.and_eq_true, beq_iff_eq]
    refine ⟨⟨⟨⟨⟨⟨h1, h2⟩, h3⟩, ?_⟩, ?_⟩, ?_⟩, h7⟩
    · cases hw : s.waitReq with
      | false => simp
      | true =>
        obtain ⟨run, hc, hp⟩ := h4 hw
        simp [hc, hp]
    · cases hc : s.cur with
      | none => simp
      | some run => simpa using h5 run hc
    · cases hh : s.held with
      | none => simp
      | some w => simpa using h6 w hh

/-- Whether a position is legal depends on CFG and COUNT alone. -/
theorem legal_congr {s t : State} (run : Running) (h1 : t.cfg = s.cfg) (h2 : t.count = s.count) :
    run.legal t = run.legal s := by
  unfold Running.legal Work.shiftOk Work.rxFits Work.resultFits
  simp only [cpha_of_cfg h1, lsbf_of_cfg h1, wordSize_of_cfg h1, h2]

theorem wordSize_pos (s : State) : 1 ≤ s.wordSize ∧ s.wordSize ≤ 8 := by
  unfold State.wordSize effWS; split_ifs <;> omega

theorem first_ofPhase (c : Bool) : (BitPos.first c).ofPhase c = true := by cases c <;> rfl

theorem startByte_shiftOk (d : Byte) (s : State) (w : Work) : (w.startByte d s).shiftOk s = true := by
  have := wordSize_pos s
  have h0 : 0 < s.wordSize := this.1
  simp [Work.shiftOk, Work.startByte, Work.rxFits, h0]

theorem topMask_toNat {n : Nat} (h1 : 1 ≤ n) (h2 : n ≤ 8) : (topMask n).toNat = 2 ^ (n - 1) := by
  interval_cases n <;> rfl

theorem collect_fields (w : Work) : w.collect.i = w.i ∧ w.collect.tx = w.tx ∧ w.collect.txmask = w.txmask ∧
    w.collect.rxmask = w.rxmask ∧ w.collect.k = w.k := by
  unfold Work.collect; split_ifs <;> simp

theorem collect_rxFits {s : State} {w : Work} (h : w.shiftOk s = true) : w.collect.shiftOk s = true := by
  have hn := wordSize_pos s
  simp only [Work.shiftOk, Work.rxFits, Bool.and_eq_true, decide_eq_true_eq, beq_iff_eq] at h ⊢
  obtain ⟨f1, f2, f3, f4, f5⟩ := collect_fields w
  rw [f1, f3, f4]
  refine ⟨h.1, ?_⟩
  obtain ⟨⟨⟨hi, -⟩, hm⟩, hr⟩ := h
  unfold Work.collect
  cases hl : s.lsbf
  · simp only [hl, Bool.false_eq_true, if_false, decide_eq_true_eq] at hr hm ⊢
    split_ifs
    · rw [BitVec.toNat_or, hm]
      refine Nat.or_lt_two_pow hr ?_
      simp
    · exact hr
  · simp only [hl, if_true, decide_eq_true_eq] at hr hm ⊢
    split_ifs
    · rw [BitVec.toNat_or, hm, topMask_toNat hn.1 hn.2]
      exact Nat.or_lt_two_pow hr (Nat.pow_lt_pow_right (by omega) (by omega))
    · exact hr

theorem shiftOk_result {s : State} {w : Work} (h : w.shiftOk s = true) : w.resultFits s = true := by
  simp only [Work.shiftOk, Work.rxFits, Work.resultFits, Bool.and_eq_true, decide_eq_true_eq, beq_iff_eq] at h ⊢
  obtain ⟨⟨⟨hi, -⟩, hm⟩, hr⟩ := h
  split_ifs at hr
  · simpa using hr
  · simp only [decide_eq_true_eq] at hr
    exact lt_of_lt_of_le hr (Nat.pow_le_pow_right (by omega) (by omega))

theorem shift_shiftOk {s : State} {w : Work} (h : w.shiftOk s = true) (hne : w.i + 1 ≠ s.wordSize) :
    ({ w.shift s.lsbf with i := w.i + 1 } : Work).shiftOk s = true := by
  have hn := wordSize_pos s
  simp only [Work.shiftOk, Work.rxFits, Bool.and_eq_true, decide_eq_true_eq, beq_iff_eq] at h ⊢
  obtain ⟨⟨⟨hi, ht⟩, hm⟩, hr⟩ := h
  unfold Work.shift
  cases hl : s.lsbf
  · simp only [hl, Bool.false_eq_true, if_false, decide_eq_true_eq] at hr hm ht ⊢
    refine ⟨⟨⟨by omega, ht⟩, hm⟩, ?_⟩
    rw [BitVec.toNat_shiftLeft]
    refine lt_of_le_of_lt (Nat.mod_le _ _) ?_
    rw [Nat.shiftLeft_eq, pow_succ 2 (w.i + 1)]
    omega
  · simp only [hl, if_true, decide_eq_true_eq] at hr hm ht ⊢
    refine ⟨⟨⟨by omega, ht⟩, hm⟩, ?_⟩
    rw [BitVec.toNat_ushiftRight, Nat.shiftRight_eq_div_pow]
    exact lt_of_le_of_lt (Nat.div_le_self _ _) hr

theorem startElement_legal (rd wr : Bool) (s : State) (r : Running) (hc : r.cmd = .xferBuf rd wr)
    (hk : r.work.k < s.count) : (startElement wr s r).legal s = true := by
  obtain ⟨cmd, pos, w⟩ := r
  dsimp only at hc; subst hc
  unfold startElement
  split_ifs with h
  · simp only [Running.legal, h, Bool.true_and, decide_eq_true_eq]; exact hk
  · simp only [Running.legal, startByte, first_ofPhase, startByte_shiftOk, Bool.true_and]
    exact decide_eq_true hk

theorem nextElement_legal (rd wr : Bool) (s : State) (r : Running) (hc : r.cmd = .xferBuf rd wr)
    (hk : r.work.k < s.count) : (nextElement wr s r).legal s = true := by
  unfold nextElement
  split_ifs with h
  · obtain ⟨cmd, pos, w⟩ := r
    dsimp only at hc; subst hc; rfl
  · exact startElement_legal rd wr s _ hc (by
      dsimp only
      have : r.work.k.toNat < s.count.toNat := hk
      have h2 := s.count.isLt
      rw [BitVec.lt_def, BitVec.toNat_add]
      have h3 : (1#32).toNat = 1 := rfl
      rw [h3]
      rcases Nat.lt_or_ge (r.work.k.toNat + 1) s.count.toNat with h4 | h4
      · rw [Nat.mod_eq_of_lt (by omega)]; exact h4
      · exfalso; apply h
        apply BitVec.eq_of_toNat_eq
        rw [BitVec.toNat_add, h3, Nat.mod_eq_of_lt (by omega)]; omega)

theorem endByte_legal (rd wr : Bool) (s : State) (r : Running) (hc : r.cmd = .xferBuf rd wr)
    (hk : r.work.k < s.count) (hr : r.work.resultFits s = true) : (endByte rd wr s r).legal s = true := by
  unfold endByte
  split_ifs with h
  · obtain ⟨cmd, pos, w⟩ := r
    dsimp only at hc; subst hc
    simp only [Running.legal, h, hr, Bool.true_and, decide_eq_true_eq]; exact hk
  · exact nextElement_legal rd wr s r hc hk

theorem startOf_legal (i : Instr) (s : State) : (startOf i s).legal s = true := by
  cases i with
  | busReset => rfl
  | xferBit b => exact first_ofPhase _
  | xferByte d =>
    simp only [startOf, startXferByte, startByte, Running.legal, first_ofPhase, startByte_shiftOk, Bool.and_self]
  | xferBuf rd wr =>
    simp only [startOf, startXferBuf]
    split_ifs with h
    · rfl
    · refine startElement_legal rd wr s _ rfl ?_
      rw [BitVec.lt_def]
      have : s.count.toNat ≠ 0 := fun h0 => h (BitVec.eq_of_toNat_eq (by simpa using h0))
      show 0 < _
      omega

/-- After a bit of a byte the position is legal again, if what `finish` says after the last bit is. -/
theorem nextBit_legal {s : State} {fin : Running → Running} {run : Running}
    (hph : run.cmd = .busReset → False) (hb : ∀ b, run.cmd ≠ .xferBit b)
    (h : run.work.shiftOk s = true) (hk : ∀ rd wr, run.cmd = .xferBuf rd wr → run.work.k < s.count)
    (hf : ∀ w : Work, w.resultFits s = true → w.k = run.work.k → (fin { run with work := w }).legal s = true) :
    (nextBit s fin run).legal s = true := by
  simp only [nextBit]
  have hcol := collect_rxFits h
  have hck := (collect_fields run.work).2.2.2.2
  split_ifs with hlast
  · exact hf _ (shiftOk_result hcol) hck
  · have hs := shift_shiftOk hcol (by simpa [collect_fields] using hlast)
    obtain ⟨cmd, pos, w⟩ := run
    dsimp only at *
    have hk' : (w.collect.shift s.lsbf).k = w.k := by
      unfold Work.shift; split_ifs <;> simp [hck]
    cases cmd with
    | busReset => exact absurd rfl hph
    | xferBit b => exact absurd rfl (hb b)
    | xferByte d => simp only [Running.legal, first_ofPhase, hs, Bool.and_self]
    | xferBuf rd wr =>
      simp only [Running.legal, first_ofPhase, hs, Bool.true_and]
      exact decide_eq_true (by rw [hk']; exact hk rd wr rfl)

/-- The invariant is kept where only the sequencer's position moves and a primitive action is performed. -/
theorem inv_goto {s s' : State} (h : InvParts s) (hb : s.busy = true) (hw : s.waitReq = false) {run' : Running}
    (hcfg : s'.cfg = s.cfg) (hcount : s'.count = s.count) (hrx : s'.rxdata = s.rxdata) (hbs : s'.busy = s.busy)
    (hws : s'.waitReq = s.waitReq) (hh : s'.held = s.held) (hm : Memory.wf s'.mem = true)
    (hl : run'.legal s = true) : InvParts (goto run' s') where
  cfg := by simpa [hcfg] using h.cfg
  rxdata := by simpa [hrx] using h.rxdata
  busy := by simp [hbs, hb]
  wait := by simp [hws, hw]
  legal := by
    intro run hrun
    have : run' = run := by simpa using hrun
    subst this
    rw [legal_congr (s := s) _ (by simp [hcfg]) (by simp [hcount])]; exact hl
  held := by simpa [hh] using h.held
  mem := by simpa using hm

theorem inv_raise {s : State} (h : InvParts s) {run : Running} (hc : s.cur = some run)
    (hp : run.pos.isWait = true) : InvParts (raiseWait s) :=
  ⟨h.cfg, h.rxdata, h.busy, fun _ => ⟨run, hc, hp⟩,
    fun r hr => (legal_congr r rfl rfl).trans (h.legal r hr), h.held, h.mem⟩

theorem bitStep_inv {s : State} (h : InvParts s) (hb : s.busy = true) (hw : s.waitReq = false)
    {cmd : Instr} {p : BitPos} {w : Work} (hc : s.cur = some ⟨cmd, .bit p, w⟩) {b : Level} {fin : Running → Running}
    (hmid : ∀ p' r, p' ≠ .drive → (Running.mk cmd (.bit p') { w with r := r }).legal s = true)
    (hfin : ∀ r, (fin ⟨cmd, .bit p, { w with r := r }⟩).legal s = true) :
    InvParts (bitStep b p fin ⟨cmd, .bit p, w⟩ s) := by
  cases p with
  | drive => exact inv_goto h hb hw rfl rfl rfl rfl rfl rfl h.mem (hmid .wait1 w.r (by simp))
  | wait1 => exact inv_raise h hc rfl
  | wait2 => exact inv_raise h hc rfl
  | lead =>
    unfold bitStep
    split_ifs
    · exact inv_goto h hb hw rfl rfl rfl rfl rfl rfl h.mem (hmid .wait2 w.r (by simp))
    · exact inv_goto h hb hw rfl rfl rfl rfl rfl rfl h.mem (hmid .wait2 _ (by simp))
  | trail =>
    unfold bitStep
    split_ifs
    · exact inv_goto h hb hw rfl rfl rfl rfl rfl rfl h.mem (hfin _)
    · exact inv_goto h hb hw rfl rfl rfl rfl rfl rfl h.mem (hfin w.r)

theorem inv_complete {s : State} (h : InvParts s) (hw : s.waitReq = false) (r : Option Word)
    (hr : ∀ v, r = some v → v &&& rxdataMask = v) : InvParts (complete r s) where
  cfg := h.cfg
  rxdata := by
    cases r with
    | none => exact h.rxdata
    | some v => exact hr v rfl
  busy := rfl
  wait := by simp [hw]
  legal := by simp
  held := h.held
  mem := h.mem

theorem ofPhase_of_ne {c : Bool} {p : BitPos} (h : p ≠ .drive) : p.ofPhase c = true := by
  cases p <;> simp_all [BitPos.ofPhase]

theorem shiftOk_r {s : State} {w : Work} (h : w.shiftOk s = true) (r : Level) :
    ({ w with r := r } : Work).shiftOk s = true := h

theorem exec_keeps_inv {i : Instr} {s t : State} (h : InvParts s) (he : exec i s = .next t) : InvParts t := by
  rcases exec_next_cases he with ⟨hb, rfl⟩ | ⟨-, rfl⟩ | ⟨⟨cmd, pos, w⟩, hb, hw, hc, hi, -⟩
  · have hcur : s.cur = none := by simpa [hb] using h.busy.symm
    refine ⟨h.cfg, h.rxdata, rfl, ?_, ?_, h.held, h.mem⟩
    · intro hw
      obtain ⟨run, hr, -⟩ := h.wait hw
      rw [hcur] at hr; cases hr
    · intro r hr
      cases hr
      exact (legal_congr _ rfl rfl).trans (startOf_legal i s)
  · exact h
  · dsimp only at hi
    subst hi
    have hl := h.legal _ hc
    cases cmd with
    | busReset =>
      cases pos with
      | lines =>
        rw [exec_busReset_lines hb hw hc] at he; cases he
        exact inv_goto h hb hw rfl rfl rfl rfl rfl rfl h.mem rfl
      | done => rw [exec_busReset_done hb hw hc] at he; cases he; exact inv_complete h hw _ (by simp)
      | load => cases hl
      | bit p => cases hl
      | store => cases hl
    | xferBit b =>
      cases pos with
      | bit p =>
        rw [exec_xferBit_bit hb hw hc] at he; cases he
        exact bitStep_inv h hb hw hc (fun p' r hp => ofPhase_of_ne hp) (fun r => rfl)
      | done =>
        rw [exec_xferBit_done hb hw hc] at he; cases he
        refine inv_complete h hw _ ?_
        rintro v ⟨⟩
        cases w.r <;> rfl
      | lines => cases hl
      | load => cases hl
      | store => cases hl
    | xferByte d =>
      cases pos with
      | bit p =>
        rw [exec_xferByte_bit hb hw hc] at he; cases he
        simp only [Running.legal, Bool.and_eq_true] at hl
        refine bitStep_inv h hb hw hc (fun p' r hp => ?_) (fun r => ?_)
        · simp only [Running.legal, ofPhase_of_ne hp, shiftOk_r hl.2, Bool.and_self]
        · refine nextBit_legal (by simp) (by simp) (shiftOk_r hl.2 r) (by simp) (fun w' hw' _ => hw')
      | done =>
        rw [exec_xferByte_done hb hw hc] at he; cases he
        refine inv_complete h hw _ ?_
        rintro v ⟨⟩
        simp only [byteWord, rxdataMask]
        generalize w.rx = x
        revert x; decide +kernel
      | lines => cases hl
      | load => cases hl
      | store => cases hl
    | xferBuf rd wr =>
      cases pos with
      | load =>
        rw [exec_xferBuf_load hb hw hc] at he
        simp only [Running.legal, Bool.and_eq_true, decide_eq_true_eq] at hl
        rcases loadStep_cases ⟨.xferBuf rd wr, .load, w⟩ s with ⟨-, e⟩ | ⟨-, e⟩ <;> rw [e] at he <;> cases he
        refine inv_goto h hb hw rfl rfl rfl rfl rfl rfl h.mem ?_
        simp only [startByte, Running.legal, first_ofPhase, startByte_shiftOk, Bool.true_and]
        exact decide_eq_true hl.2
      | bit p =>
        rw [exec_xferBuf_bit hb hw hc] at he; cases he
        simp only [Running.legal, Bool.and_eq_true, decide_eq_true_eq] at hl
        refine bitStep_inv h hb hw hc (fun p' r hp => ?_) (fun r => ?_)
        · simp only [Running.legal, ofPhase_of_ne hp, shiftOk_r hl.1.2, Bool.and_self, Bool.true_and,
            decide_eq_true_eq]
          exact hl.2
        · refine nextBit_legal (by simp) (by simp) (shiftOk_r hl.1.2 r) (fun _ _ _ => hl.2) (fun w' hw' hk => ?_)
          exact endByte_legal rd wr s _ rfl (by dsimp only at hk ⊢; rw [hk]; exact hl.2) hw'
      | store =>
        rw [exec_xferBuf_store hb hw hc] at he
        simp only [Running.legal, Bool.and_eq_true, decide_eq_true_eq] at hl
        rcases storeStep_cases wr ⟨.xferBuf rd wr, .store, w⟩ s with ⟨-, e⟩ | ⟨-, e⟩ <;> rw [e] at he <;> cases he
        exact inv_goto h hb hw rfl rfl rfl rfl rfl rfl (wf_put h.mem _ _)
          (nextElement_legal rd wr s _ rfl hl.2)
      | done => rw [exec_xferBuf_done hb hw hc] at he; cases he; exact inv_complete h hw _ (by simp)
      | lines => cases hl

theorem inv_env {s : State} (h : InvParts s) (e : Env) : InvParts { s with env := e } :=
  ⟨h.cfg, h.rxdata, h.busy, h.wait, fun r hr => (legal_congr r rfl rfl).trans (h.legal r hr), h.held, h.mem⟩

theorem acceptWrite_inv {s t : State} {w : RegWrite} (h : InvParts s) (hb : s.busy = false)
    (he : acceptWrite w s = .next t) : InvParts t := by
  have hcur : s.cur = none := by simpa [hb] using h.busy.symm
  have hw : s.waitReq = false := by
    cases hw : s.waitReq with
    | false => rfl
    | true => obtain ⟨run, hr, -⟩ := h.wait hw; rw [hcur] at hr; cases hr
  rcases acceptWrite_next he with ⟨i, -, -, he⟩ | ⟨r, -, hr, rfl⟩ | rfl
  · exact exec_keeps_inv h he
  · cases r with
    | cmd => exact absurd rfl hr
    | cfg => exact ⟨by simp [writeReg, BitVec.and_assoc], h.rxdata, h.busy, by simp [writeReg, hw], by simp [writeReg, hcur], h.held, h.mem⟩
    | raddr => exact ⟨h.cfg, h.rxdata, h.busy, by simp [writeReg, hw], by simp [writeReg, hcur], h.held, h.mem⟩
    | waddr => exact ⟨h.cfg, h.rxdata, h.busy, by simp [writeReg, hw], by simp [writeReg, hcur], h.held, h.mem⟩
    | count => exact ⟨h.cfg, h.rxdata, h.busy, by simp [writeReg, hw], by simp [writeReg, hcur], h.held, h.mem⟩
    | rxdata => exact h
    | status => exact h
    | reserved => exact h
  · exact h

end Sys2Proof.Machine
end

