-- ==== Sys2Proof/Laws/PerInstr.lean ====
section
/-! SUPPORT. Statements about every command, as syntax. -/

namespace Sys2Proof.Laws

/-- The command's word lies in the command's own row of the match/mask table (30_encoding R73), and in no row of
another mnemonic. -/
def TableRow.Statement (i : Instr) : Prop :=
  ∀ r ∈ encodingTable, r.matches (encode i) = decide (r.mnemonic = i.mnemonic)

theorem TableRow.busReset : TableRow.Statement .busReset := by
  unfold TableRow.Statement
  decide

theorem TableRow.xferBit (b : Level) : TableRow.Statement (.xferBit b) := by
  unfold TableRow.Statement
  revert b
  decide

theorem TableRow.xferByte (d : Byte) : TableRow.Statement (.xferByte d) := by
  unfold TableRow.Statement
  revert d
  decide +kernel

theorem TableRow.xferBuf (rd wr : Bool) : TableRow.Statement (.xferBuf rd wr) := by
  unfold TableRow.Statement
  revert rd wr
  decide

end Sys2Proof.Laws
end

