-- ==== Sys2Proof/Laws/Run.lean ====
section
/-! SUPPORT. Runs by alternate turns of the sequencer and a prompt delay unit: one pair of turns, one bit, one byte,
each against its pseudocode. -/

namespace Sys2Proof.Machine

/-! ### Lists of turns -/

theorem runTurns_append {as bs : List Agent} {s t : State} (h : runTurns as s = .next t) :
    runTurns (as ++ bs) s = runTurns bs t := by
  induction as generalizing s with
  | nil => cases h; rfl
  | cons a as ih =>
    rw [runTurns] at h
    rw [List.cons_append, runTurns]
    split at h
    · exact ih h
    · cases h
    · cases h

theorem promptTurns_add (m n : Nat) : promptTurns (m + n) = promptTurns m ++ promptTurns n := by
  induction m with
  | zero => simp [promptTurns]
  | succ m ih => rw [Nat.succ_add]; simp [promptTurns, ih]

theorem runTurns_promptTurns_add {m n : Nat} {s t : State} (h : runTurns (promptTurns m) s = .next t) :
    runTurns (promptTurns (m + n)) s = runTurns (promptTurns n) t := by
  rw [promptTurns_add, runTurns_append h]

/-! ### One pair of turns -/

section Pair

variable {s s' : State} {run : Running}

theorem sequencerTurn_exec (hc : s.cur = some run) (he : exec run.cmd s = .next s') :
    sequencerTurn s = .next s' := by
  simp [sequencerTurn, hc, he]

/-- A pair of turns performs the sequencer's step, when that step requests no wait. -/
theorem runTurns_pair_action (hh : s.held = none) (hc : s.cur = some run) (he : exec run.cmd s = .next s')
    (hh' : s'.held = none) (hw : s'.waitReq = false) : runTurns (promptTurns 1) s = .next s' := by
  simp [promptTurns, runTurns, agentTurn, orAcceptHeld_none hh, sequencerTurn_exec hc he,
    orAcceptHeld_none hh', delayTurn, hw]

/-- A pair of turns performs a wait, from request to acknowledgement. -/
theorem runTurns_pair_wait (hh : s.held = none) (hc : s.cur = some run)
    (he : exec run.cmd s = .next (raiseWait s)) :
    runTurns (promptTurns 1) s = .next (endWait (raiseWait s)) := by
  have hr : (raiseWait s).held = none := hh
  simp [promptTurns, runTurns, agentTurn, orAcceptHeld_none hh, sequencerTurn_exec hc he,
    orAcceptHeld_none hr, delayTurn]

end Pair

/-! ### One bit -/

/-- What the steps of a transfer command at a bit of `TransferBit(b)` are, while the operand registers stay and the
working state changes in `r` alone. -/
def BitExec (cmd : Instr) (w : Work) (b : Level) (fin : Running → Running) (s : State) : Prop :=
  ∀ (s' : State) (p : BitPos) (r : Level), SameOperands s s' →
    InProgress s' ⟨cmd, .bit p, { w with r := r }⟩ →
    exec cmd s' = .next (bitStep b p fin ⟨cmd, .bit p, { w with r := r }⟩ s')

theorem SameOperands.refl (s : State) : SameOperands s s := ⟨rfl, rfl, rfl, rfl⟩

/-! The sequencer's position plays no part in a primitive action, and a later position replaces an earlier one. -/

section Goto

variable (r r' : Running) (s : State)

@[simp] theorem goto_cpol : (goto r s).cpol = s.cpol := rfl
@[simp] theorem goto_cpha : (goto r s).cpha = s.cpha := rfl
@[simp] theorem goto_idle : (goto r s).idle = s.idle := rfl
@[simp] theorem goto_lead : (goto r s).lead = s.lead := rfl
@[simp] theorem goto_misoAnswer (l : Level) : (goto r s).misoAnswer l = s.misoAnswer l := rfl
@[simp] theorem goto_goto : goto r (goto r' s) = goto r s := rfl
@[simp] theorem goto_setClk (l : Level) : goto r (setClk l (goto r' s)) = goto r (setClk l s) := rfl
@[simp] theorem goto_setMosi (l : Level) : goto r (setMosi l (goto r' s)) = goto r (setMosi l s) := rfl
@[simp] theorem goto_setClkMosi (c d : Level) :
    goto r (setClkMosi c d (goto r' s)) = goto r (setClkMosi c d s) := rfl
@[simp] theorem goto_setClkSample (l : Level) :
    goto r (setClkSample l (goto r' s)) = goto r (setClkSample l s) := rfl
@[simp] theorem goto_waitHalf : goto r (waitHalf (goto r' s)) = goto r (waitHalf s) := rfl

end Goto

section Actions

variable {s : State} {cmd : Instr} {w : Work} {b : Level} {fin : Running → Running}

theorem run_drive (h : InProgress s ⟨cmd, .bit .drive, w⟩) (hh : s.held = none)
    (he : exec cmd s = .next (bitStep b .drive fin ⟨cmd, .bit .drive, w⟩ s)) :
    runTurns (promptTurns 1) s = .next (goto ⟨cmd, .bit .wait1, w⟩ (setMosi b s)) :=
  runTurns_pair_action hh h.2.2 he hh h.2.1

theorem run_wait {p : BitPos} (hp : p = .wait1 ∨ p = .wait2) (h : InProgress s ⟨cmd, .bit p, w⟩)
    (hh : s.held = none) (he : exec cmd s = .next (bitStep b p fin ⟨cmd, .bit p, w⟩ s)) :
    runTurns (promptTurns 1) s = .next (goto ⟨cmd, .bit p.afterWait, w⟩ (waitHalf s)) := by
  have he' : exec cmd s = .next (raiseWait s) := by rcases hp with rfl | rfl <;> exact he
  rw [runTurns_pair_wait hh h.2.2 he']
  have hc := h.2.2
  have hw := h.2.1
  simp [endWait, raiseWait, goto, waitHalf, hc, hw, Running.afterWait, Pos.afterWait]

theorem run_lead_sample (h : InProgress s ⟨cmd, .bit .lead, w⟩) (hh : s.held = none) (hp : s.cpha = false)
    (he : exec cmd s = .next (bitStep b .lead fin ⟨cmd, .bit .lead, w⟩ s)) :
    runTurns (promptTurns 1) s =
      .next (goto ⟨cmd, .bit .wait2, { w with r := s.misoAnswer s.lead }⟩ (setClkSample s.lead s)) := by
  simp only [bitStep, hp, Bool.false_eq_true, if_false] at he
  exact runTurns_pair_action hh h.2.2 he hh h.2.1

theorem run_lead_drive (h : InProgress s ⟨cmd, .bit .lead, w⟩) (hh : s.held = none) (hp : s.cpha = true)
    (he : exec cmd s = .next (bitStep b .lead fin ⟨cmd, .bit .lead, w⟩ s)) :
    runTurns (promptTurns 1) s = .next (goto ⟨cmd, .bit .wait2, w⟩ (setClkMosi s.lead b s)) := by
  simp only [bitStep, hp, if_true] at he
  exact runTurns_pair_action hh h.2.2 he hh h.2.1

theorem run_trail_idle (h : InProgress s ⟨cmd, .bit .trail, w⟩) (hh : s.held = none) (hp : s.cpha = false)
    (he : exec cmd s = .next (bitStep b .trail fin ⟨cmd, .bit .trail, w⟩ s)) :
    runTurns (promptTurns 1) s = .next (goto (fin ⟨cmd, .bit .trail, w⟩) (setClk s.idle s)) := by
  simp only [bitStep, hp, Bool.false_eq_true, if_false] at he
  exact runTurns_pair_action hh h.2.2 he hh h.2.1

theorem run_trail_sample (h : InProgress s ⟨cmd, .bit .trail, w⟩) (hh : s.held = none) (hp : s.cpha = true)
    (he : exec cmd s = .next (bitStep b .trail fin ⟨cmd, .bit .trail, w⟩ s)) :
    runTurns (promptTurns 1) s =
      .next (goto (fin ⟨cmd, .bit .trail, { w with r := s.misoAnswer s.idle }⟩) (setClkSample s.idle s)) := by
  simp only [bitStep, hp, if_true] at he
  exact runTurns_pair_action hh h.2.2 he hh h.2.1

end Actions

/-- `TransferBit` action by action is `TransferBit` in one go. -/
theorem runTurns_bit {s : State} {cmd : Instr} {w : Work} {b : Level} {fin : Running → Running}
    (hrun : InProgress s ⟨cmd, .bit (BitPos.first s.cpha), w⟩) (hh : s.held = none)
    (hx : BitExec cmd w b fin s) :
    runTurns (promptTurns s.actionsPerBit) s =
      .next (goto (fin ⟨cmd, .bit .trail, { w with r := (transferBit b s).1 }⟩) (transferBit b s).2) := by
  have hb := hrun.1
  have hw := hrun.2.1
  have same : ∀ s' : State, SameOperands s s' → InProgress s' ⟨cmd, .bit .drive, w⟩ →
      exec cmd s' = .next (bitStep b .drive fin ⟨cmd, .bit .drive, w⟩ s') := fun s' ho hi => hx s' _ w.r ho hi
  cases hph : s.cpha with
  | false =>
    simp only [hph, BitPos.first, Bool.false_eq_true, if_false] at hrun
    have r1 := run_drive hrun hh (same s (.refl s) hrun)
    have i2 : InProgress (goto ⟨cmd, .bit .wait1, w⟩ (setMosi b s)) ⟨cmd, .bit .wait1, w⟩ := ⟨hb, hw, rfl⟩
    have r2 := run_wait (.inl rfl) i2 hh (hx _ _ w.r ⟨rfl, rfl, rfl, rfl⟩ i2)
    simp only [goto_waitHalf, BitPos.afterWait] at r2
    have i3 : InProgress (goto ⟨cmd, .bit .lead, w⟩ (waitHalf (setMosi b s))) ⟨cmd, .bit .lead, w⟩ := ⟨hb, hw, rfl⟩
    have r3 := run_lead_sample i3 hh hph (hx _ _ w.r ⟨rfl, rfl, rfl, rfl⟩ i3)
    simp only [goto_setClkSample, goto_misoAnswer, goto_lead] at r3
    obtain ⟨r, hr⟩ : ∃ r, r = (waitHalf (setMosi b s)).misoAnswer (waitHalf (setMosi b s)).lead := ⟨_, rfl⟩
    rw [← hr] at r3
    obtain ⟨x3, hx3⟩ : ∃ x, x = setClkSample (waitHalf (setMosi b s)).lead (waitHalf (setMosi b s)) := ⟨_, rfl⟩
    rw [← hx3] at r3
    have o3 : SameOperands s x3 := by rw [hx3]; exact ⟨rfl, rfl, rfl, rfl⟩
    have f3 : x3.busy = true ∧ x3.waitReq = false ∧ x3.held = none ∧ x3.cpha = false ∧ x3.idle = s.cpol := by
      rw [hx3]; exact ⟨hb, hw, hh, hph, rfl⟩
    have i4 : InProgress (goto ⟨cmd, .bit .wait2, { w with r := r }⟩ x3) ⟨cmd, .bit .wait2, { w with r := r }⟩ :=
      ⟨f3.1, f3.2.1, rfl⟩
    have r4 := run_wait (.inr rfl) i4 f3.2.2.1 (hx _ _ r o3 i4)
    simp only [goto_waitHalf, BitPos.afterWait] at r4
    have i5 : InProgress (goto ⟨cmd, .bit .trail, { w with r := r }⟩ (waitHalf x3))
        ⟨cmd, .bit .trail, { w with r := r }⟩ := ⟨f3.1, f3.2.1, rfl⟩
    have r5 := run_trail_idle i5 f3.2.2.1 f3.2.2.2.1 (hx _ _ r o3 i5)
    simp only [goto_setClk, goto_idle] at r5
    have hn : s.actionsPerBit = 1 + (1 + (1 + (1 + 1))) := by simp [State.actionsPerBit, hph]
    rw [hn, runTurns_promptTurns_add r1, runTurns_promptTurns_add r2, runTurns_promptTurns_add r3,
      runTurns_promptTurns_add r4, r5, hr, hx3]
    simp only [transferBit, hph, if_true]
    rfl
  | true =>
    simp only [hph, BitPos.first, if_true] at hrun
    have r1 := run_wait (.inl rfl) hrun hh (hx _ _ w.r (.refl s) hrun)
    simp only [BitPos.afterWait] at r1
    have i2 : InProgress (goto ⟨cmd, .bit .lead, w⟩ (waitHalf s)) ⟨cmd, .bit .lead, w⟩ := ⟨hb, hw, rfl⟩
    have r2 := run_lead_drive i2 hh hph (hx _ _ w.r ⟨rfl, rfl, rfl, rfl⟩ i2)
    simp only [goto_setClkMosi, goto_lead] at r2
    obtain ⟨x2, hx2⟩ : ∃ x, x = setClkMosi (waitHalf s).lead b (waitHalf s) := ⟨_, rfl⟩
    rw [← hx2] at r2
    have o2 : SameOperands s x2 := by rw [hx2]; exact ⟨rfl, rfl, rfl, rfl⟩
    have f2 : x2.busy = true ∧ x2.waitReq = false ∧ x2.held = none ∧ x2.cpha = true ∧ x2.idle = s.cpol := by
      rw [hx2]; exact ⟨hb, hw, hh, hph, rfl⟩
    have i3 : InProgress (goto ⟨cmd, .bit .wait2, w⟩ x2) ⟨cmd, .bit .wait2, w⟩ := ⟨f2.1, f2.2.1, rfl⟩
    have r3 := run_wait (.inr rfl) i3 f2.2.2.1 (hx _ _ w.r o2 i3)
    simp only [goto_waitHalf, BitPos.afterWait] at r3
    have i4 : InProgress (goto ⟨cmd, .bit .trail, w⟩ (waitHalf x2)) ⟨cmd, .bit .trail, w⟩ := ⟨f2.1, f2.2.1, rfl⟩
    have r4 := run_trail_sample i4 f2.2.2.1 f2.2.2.2.1 (hx _ _ w.r o2 i4)
    simp only [goto_setClkSample, goto_idle, goto_misoAnswer] at r4
    have hn : s.actionsPerBit = 1 + (1 + (1 + 1)) := by simp [State.actionsPerBit, hph]
    rw [hn, runTurns_promptTurns_add r1, runTurns_promptTurns_add r2, runTurns_promptTurns_add r3, r4, hx2]
    simp only [transferBit, hph, Bool.true_eq_false, if_false]
    rfl

/-- `TransferBit` writes pins, H and the peripheral's answers, nothing else. -/
theorem transferBit_frame (b : Level) (s : State) :
    SameOperands s (transferBit b s).2 ∧ (transferBit b s).2.rxdata = s.rxdata ∧
      (transferBit b s).2.busy = s.busy ∧ (transferBit b s).2.waitReq = s.waitReq ∧
      (transferBit b s).2.held = s.held ∧ (transferBit b s).2.mem = s.mem ∧ SameEnv s (transferBit b s).2 := by
  unfold transferBit
  dsimp only
  split_ifs <;> exact ⟨⟨rfl, rfl, rfl, rfl⟩, rfl, rfl, rfl, rfl, rfl, rfl, rfl, rfl, rfl, rfl⟩

/-- `TransferBit` does not look at the sequencer. -/
theorem transferBit_goto (b : Level) (s : State) (run : Running) :
    transferBit b (goto run s) = ((transferBit b s).1, goto run (transferBit b s).2) := by
  cases hph : s.cpha with
  | false =>
    have hph' : (goto run s).cpha = false := hph
    simp only [transferBit, hph, hph', if_true]; rfl
  | true =>
    have hph' : (goto run s).cpha = true := hph
    simp only [transferBit, hph, hph', Bool.true_eq_false, if_false]; rfl

/-! ### One command -/

theorem ready_iff (s : State) : s.ready = true ↔ s.busy = false ∧ s.waitReq = false ∧ s.held = none := by
  simp [State.ready, and_assoc]

/-- XFER_BIT, from the state it is issued in to the end of its completion step, is `TransferBit` and the completion. -/
theorem runTurns_xferBit {s : State} (b : Level) (h : s.ready = true) :
    runTurns (promptTurns (s.actionsPerBit + 1)) (issue (startOf (.xferBit b) s) s) =
      .next (complete (some (bitWord (transferBit b s).1)) (transferBit b s).2) := by
  obtain ⟨-, hw, hh⟩ := (ready_iff s).1 h
  have hx : BitExec (.xferBit b) Work.unassigned b toDone (issue (startOf (.xferBit b) s) s) :=
    fun _ _ _ _ hi => exec_xferBit_bit hi.1 hi.2.1 hi.2.2
  have hr := runTurns_bit (s := issue (startOf (.xferBit b) s) s) ⟨rfl, hw, rfl⟩ hh hx
  have hn : (issue (startOf (.xferBit b) s) s).actionsPerBit = s.actionsPerBit := rfl
  rw [hn] at hr
  rw [runTurns_promptTurns_add hr]
  obtain ⟨t, ht⟩ : ∃ t, t = transferBit b (issue (startOf (.xferBit b) s) s) := ⟨_, rfl⟩
  have hf := transferBit_frame b (issue (startOf (.xferBit b) s) s)
  rw [← ht] at hf ⊢
  obtain ⟨-, -, f3, f4, f5, -⟩ := hf
  rw [runTurns_pair_action (s' := complete (some (bitWord t.1)) t.2) (by exact f5.trans hh) rfl
    (by exact exec_xferBit_done (w := { Work.unassigned with r := t.1 }) f3 (f4.trans hw) rfl)
    (by exact f5.trans hh) (by exact f4.trans hw), ht]
  have hi : issue (startOf (.xferBit b) s) s = goto (startOf (.xferBit b) s) { s with busy := true } := rfl
  rw [hi, transferBit_goto]
  cases hp : s.cpha <;>
  · have hp' : ({ s with busy := true } : State).cpha = s.cpha := rfl
    simp [transferBit, hp, hp']
    rfl

end Sys2Proof.Machine
end

