-- ==== Sys2Proof/Tests/Slice0.lean ====
section
/-! SUPPORT. Tests on small states, their expected results written out from spec/ (95_test_vectors, 30_encoding R73), and for
every statement with hypotheses a witness that meets them. -/

open Sys2Proof Sys2Proof.Machine

namespace Sys2Proof.Tests

/-! ### Helpers -/

/-- Working state of zeros. -/
def work0 : Work :=
  { tx := 0#8, rx := 0#8, txmask := 0#8, rxmask := 0#8, t := 0#8, i := 0, k := 0#32, r := false }

/-- The idle block with a CFG, every buffer address admitted. -/
def idle (cfg : Word) : State :=
  { State.reset with cfg := cfg, env := { State.reset.env with admits := .regions [⟨0#32, 0x100000000⟩] } }

/-- The block with a command in progress. -/
def running (run : Running) (s : State) : State := { s with busy := true, cur := some run }

/-- The pins at given levels. -/
def pins (c d : Level) (s : State) : State := { s with sclk := c, mosi := d }

/-- The next turn goes to an agent. -/
def turnOf (a : Agent) (s : State) : State := { s with env := { s.env with sched := [a] } }

/-- The host offers an access next. -/
def offers (op : HostOp) (s : State) : State :=
  { s with env := { s.env with sched := [.host], hostProg := [op] } }

/-- The peripheral's next answers. -/
def answers (rs : List Level) (s : State) : State := { s with env := { s.env with misoIn := rs } }

/-- The buffer registers. -/
def buffers (raddr waddr count : Word) (s : State) : State :=
  { s with raddr := raddr, waddr := waddr, count := count }

/-- No buffer address admitted. -/
def noMemory (s : State) : State := { s with env := { s.env with admits := .regions [] } }

/-- A view of an outcome's next state. -/
def seen {α : Type} (f : State → α) : Out → Option α
  | .next s => some (f s)
  | .fault _ => none
  | .refused _ => none

/-! ### Decoding: words written out bit by bit from the layouts of 30_encoding R73 -/

theorem test_decode_busReset : decode 0b00000000000000000000000000000001#32 = .command .busReset := by decide

theorem test_decode_xferBit :
    decode 0b00000000000000000000000000000010#32 = .command (.xferBit false) ∧
    decode 0b00000000000000000000000100000010#32 = .command (.xferBit true) := by decide

theorem test_decode_xferByte :
    decode 0b00000000000000001000011100000011#32 = .command (.xferByte 0x87#8) ∧
    decode 0b00000000000000000000000100000011#32 = .command (.xferByte 0x01#8) := by decide

theorem test_decode_xferBuf :
    decode 0b00000000000000000000000000010100#32 = .command (.xferBuf true false) ∧
    decode 0b00000000000000000000000000100100#32 = .command (.xferBuf false true) := by decide

/-- Words of 95_test_vectors V-L2-ENC-1 with one bit too many, and OP 0 and 15. -/
theorem test_decode_reserved :
    decode 0x00000011#32 = .reserved .mustBeZero ∧ decode 0x00000202#32 = .reserved .mustBeZero ∧
    decode 0x00010003#32 = .reserved .mustBeZero ∧ decode 0x00000044#32 = .reserved .mustBeZero ∧
    decode 0x00000000#32 = .reserved .opcode ∧ decode 0x0000000F#32 = .reserved .opcode := by decide

theorem test_decodeTableWord :
    decodeTableWord 32 0x00008703 = some (.xferByte 0x87#8) ∧ decodeTableWord 32 0x00000044 = none := by decide

/-! ### Well-formedness: an ill-formed line for each check (30_encoding R79) -/

theorem test_wf_xferBit : AsmLine.wf (.xferBit 1) = true ∧ AsmLine.wf (.xferBit 2) = false := by decide

theorem test_wf_xferByte : AsmLine.wf (.xferByte 255) = true ∧ AsmLine.wf (.xferByte 256) = false := by decide

theorem test_wf_xferBuf :
    AsmLine.wf (.xferBuf 1 1) = true ∧ AsmLine.wf (.xferBuf 2 0) = false ∧ AsmLine.wf (.xferBuf 0 2) = false := by
  decide

theorem test_ill_formed_not_encoded : AsmLine.encode (.xferByte 256) = none ∧ AsmLine.encode (.xferBuf 0 2) = none := by
  decide

/-! ### One step of each command, against 95_test_vectors -/

/-- V-L2-RST-1, third row: CPOL = 1, SCLK = 0, MOSI = 1. -/
theorem test_busReset_lines :
    seen (fun t => (t.sclk, t.mosi, t.hist))
        (exec .busReset (running ⟨.busReset, .lines, work0⟩ (pins false true (idle 0x1#32)))) =
      some (true, false, [.reset, .clkMosi true false]) := by decide

/-- V-L2-BIT-1, row (0, 1, 1, 0): the drive on the leading edge is one action. -/
theorem test_xferBit_lead_drive :
    seen (fun t => (t.sclk, t.mosi, t.hist))
        (exec (.xferBit true) (running ⟨.xferBit true, .bit .lead, work0⟩ (idle 0x2#32))) =
      some (true, true, [.reset, .clkMosi true true]) := by decide

/-- V-L2-BIT-2: CPOL = 1, SCLK = 0, MISO lo: the sample is no edge. -/
theorem test_xferBit_lead_sample :
    seen (fun t => (t.sclk, t.hist))
        (exec (.xferBit true)
          (running ⟨.xferBit true, .bit .lead, work0⟩ (answers [false] (pins false true (idle 0x1#32))))) =
      some (false, [.reset, .clkSample false false]) := by decide

/-- V-L2-BYTE-1, row 0x30 (n = 3, MSB-first, 0xFD, second answer 1): after bit 1 the accumulator is 0b11 shifted left and
the outgoing byte has moved on. -/
theorem test_xferByte_msb_shift :
    seen (fun t => t.cur.map (fun run => (run.work.rx, run.work.tx, run.work.i, run.pos)))
        (exec (.xferByte 0xFD#8)
          (running
            ⟨.xferByte 0xFD#8, .bit .trail,
              { work0 with tx := 0xFA#8, rx := 0x02#8, txmask := 0x04#8, rxmask := 0x01#8, i := 1, r := true }⟩
            (idle 0x30#32))) =
      some (some (0x06#8, 0xF4#8, 2, .bit .drive)) := by decide

/-- V-L2-BYTE-1, row 0x34 (n = 3, LSB-first, answers 1, 1, 0): the last bit does not shift. -/
theorem test_xferByte_lsb_last :
    seen (fun t => t.cur.map (fun run => (run.work.rx, run.pos)))
        (exec (.xferByte 0xFD#8)
          (running
            ⟨.xferByte 0xFD#8, .bit .trail,
              { work0 with tx := 0x3F#8, rx := 0x03#8, txmask := 0x01#8, rxmask := 0x04#8, i := 2, r := false }⟩
            (idle 0x34#32))) =
      some (some (0x03#8, .done)) := by decide

/-- V-L2-BUF-1, row wrap: WADDR = 0xFFFFFFFF, element 1 is at address 0. -/
theorem test_xferBuf_load_wraps :
    seen (fun t => t.hist)
        (exec .xferDuplex
          (running ⟨.xferDuplex, .load, { work0 with k := 1#32 }⟩
            (buffers 0x010#32 0xFFFFFFFF#32 2#32 { idle 0x80#32 with mem := [(0, 0x22#8), (0xFFFFFFFF, 0x11#8)] }))) =
      some [.reset, .memRd 0x00000000#32 0x22#8] := by decide

/-- V-L2-BUF-2: the MemWrite of element 0. -/
theorem test_xferBuf_store :
    seen (fun t => (t.mem, t.hist, t.cur.map (fun run => (run.work.k, run.pos))))
        (exec .xferDuplex
          (running ⟨.xferDuplex, .store, { work0 with rx := 0x78#8 }⟩
            (buffers 0x200#32 0x100#32 2#32 { idle 0x80#32 with mem := [(0x100, 0x87#8), (0x101, 0x5A#8)] }))) =
      some
        ([(0x100, 0x87#8), (0x101, 0x5A#8), (0x200, 0x78#8)], [.reset, .memWr 0x200#32 0x78#8],
          some (1#32, .load)) := by decide

/-- V-L2-CFG-2: CFG reads back without its reserved bits. -/
theorem test_cfg_readback :
    readReg .cfg (writeReg .cfg 0xFFFFFFFF#32 State.reset) = 0x000000F7#32 ∧
    readReg .cfg (writeReg .cfg 0x00000008#32 State.reset) = 0x00000000#32 := by decide

/-- Readings of H: a write of the level SCLK holds is no edge (00_scope R16); a `Reset` that lowers SCLK counts (log 26). -/
theorem test_edges : edges false [.clk false, .clk true, .reset] = [true, false] := by decide

/-- Writing the byte an unlisted address reads as takes the entry out. -/
theorem test_memory_canonical :
    Memory.put [(1, 0x05#8)] 1 0x00#8 = [] ∧ Memory.put [(3, 0x05#8)] 1 0x07#8 = [(1, 0x07#8), (3, 0x05#8)] := by
  decide

/-! ### Witnesses: encoding -/

theorem witness_DecodeThenEncode :
    decode 0x0000FF03#32 = .command (.xferByte 0xFF#8) ∧ decode 0x00000034#32 = .command .xferDuplex := by decide

theorem witness_ReservedWordsAreRefused :
    (decode 0x00000000#32 = .reserved .opcode ∧
      HostOffers (offers (.write 0x10 32 0x00000000#32) (idle 0#32)) (.write 0x10 32 0x00000000#32) ∧
      (offers (.write 0x10 32 0x00000000#32) (idle 0#32)).busy = false) ∧
    (let s : State := turnOf .sequencer { idle 0#32 with held := some ⟨0x10, 0x80000001#32⟩ }
     decode 0x80000001#32 = .reserved .mustBeZero ∧ s.held = some ⟨0x10, 0x80000001#32⟩ ∧ s.busy = false ∧
      nextAgent s ≠ .reset) := by
  unfold HostOffers
  decide

/-! ### Witnesses: a step runs the decoded command -/

theorem witness_StepRunsAcceptedCommand :
    (let s := offers (.write 0x10 32 0x00000102#32) (idle 0#32)
     decode 0x00000102#32 = .command (.xferBit true) ∧ s.busy = false ∧
      HostOffers s (.write 0x10 32 0x00000102#32)) ∧
    (let s : State := turnOf .delayUnit { idle 0#32 with held := some ⟨0x10, 0x00000001#32⟩ }
     decode 0x00000001#32 = .command .busReset ∧ s.busy = false ∧ s.held = some ⟨0x10, 0x00000001#32⟩ ∧
      nextAgent s ≠ .reset) := by
  unfold HostOffers
  decide

/-- A position that moves, one at an address that is not admitted, and one that is none of the command's. -/
theorem witness_StepRunsCommandInProgress :
    (let s := turnOf .sequencer (running ⟨.busReset, .lines, work0⟩ (idle 0#32))
     nextAgent s = .sequencer ∧ s.busy = true ∧ s.cur = some ⟨.busReset, .lines, work0⟩ ∧
      (seen State.mosi (exec .busReset (tick s))).isSome = true) ∧
    exec .xferDuplex (tick (turnOf .sequencer (running ⟨.xferDuplex, .load, work0⟩ (noMemory (idle 0#32))))) =
      .fault (.notAdmitted 0#32) ∧
    exec .busReset (tick (turnOf .sequencer (running ⟨.busReset, .store, work0⟩ (idle 0#32)))) =
      .fault .noSuchPosition := by
  refine ⟨by decide, rfl, rfl⟩

theorem witness_ScheduleDrivesStep :
    runTurns [.sequencer, .delayUnit] (running ⟨.busReset, .done, work0⟩ (idle 0#32)) = .next (idle 0#32) := rfl

/-! ### Witnesses: hardware reset -/

theorem witness_HardwareResetValues :
    nextAgent (turnOf .reset (running ⟨.xferBit true, .bit .lead, work0⟩ (pins true true (idle 0x81#32)))) = .reset := by
  decide

theorem witness_HardwareResetAbandonsCommand :
    let s : State :=
      turnOf .reset
        { running ⟨.xferDuplex, .bit .wait1, work0⟩ (idle 0x80#32) with
          waitReq := true, held := some ⟨0, 1#32⟩, mem := [(0x200, 0x78#8)] }
    nextAgent s = .reset ∧ ∀ a ∈ [Agent.sequencer, Agent.delayUnit], a = .sequencer ∨ a = .delayUnit := by
  decide

/-! ### Witnesses: the host -/

theorem witness_AcceptedRegisterWrites :
    ∀ offset ∈ [0x00, 0x04, 0x08, 0x0C, 0x14, 0x18, 0x1C],
      HostOffers (offers (.write offset 32 0xFFFFFFFF#32) (idle 0#32)) (.write offset 32 0xFFFFFFFF#32) ∧
        (offers (.write offset 32 0xFFFFFFFF#32) (idle 0#32)).busy = false := by
  unfold HostOffers
  decide

/-- The first and the last offset of the window, a held write with BUSY = 1, and one with BUSY = 0. -/
theorem witness_HostWriteStallsWhileBusy :
    (∀ offset ∈ [0x00, 0x1C],
      let s := offers (.write offset 32 1#32) (running ⟨.busReset, .lines, work0⟩ (idle 0#32))
      HostOffers s (.write offset 32 1#32) ∧ s.busy = true ∧ offset % 4 = 0 ∧ offset < 32) ∧
    (let s : State :=
      turnOf .sequencer { running ⟨.busReset, .lines, work0⟩ (idle 0#32) with held := some ⟨0, 1#32⟩ }
     s.held = some ⟨0, 1#32⟩ ∧ s.busy = true ∧ nextAgent s ≠ .reset ∧ (seen State.held (step s)).isSome = true) ∧
    (let s : State := turnOf .host { idle 0#32 with held := some ⟨0, 1#32⟩ }
     s.held = some ⟨0, 1#32⟩ ∧ s.busy = false ∧ nextAgent s ≠ .reset) := by
  unfold HostOffers
  decide

/-- Every offset of the window, with BUSY = 1. -/
theorem witness_RegisterReadsAnyTime :
    ∀ offset ∈ [0x00, 0x04, 0x08, 0x0C, 0x10, 0x14, 0x18, 0x1C],
      HostOffers (offers (.read offset 32) (running ⟨.busReset, .lines, work0⟩ (idle 0#32))) (.read offset 32) ∧
        offset % 4 = 0 ∧ offset < 32 := by
  unfold HostOffers
  decide

theorem witness_HostReadCommutesWithSequencer :
    let s := offers (.read 0x18 32) (running ⟨.busReset, .done, work0⟩ (idle 0#32))
    s.held = none ∧ s.env.hostProg.head? = some (.read 0x18 32) ∧ 0x18 % 4 = 0 ∧
      Reg.ofOffset 0x18 = some .status ∧ (seen State.busy (agentTurn .sequencer s)) = some false := by
  decide

/-- Another width, an offset off the grid, the same two beyond the window, and the first offset beyond the window. -/
theorem witness_HostAccessShapeRefused :
    HostOffers (offers (.write 0x00 16 1#32) (idle 0#32)) (.write 0x00 16 1#32) ∧
    HostOffers (offers (.read 0x00 8) (idle 0#32)) (.read 0x00 8) ∧
    HostOffers (offers (.write 0x1E 32 1#32) (idle 0#32)) (.write 0x1E 32 1#32) ∧
    HostOffers (offers (.read 0x02 32) (idle 0#32)) (.read 0x02 32) ∧
    HostOffers (offers (.write 0x20 16 1#32) (idle 0#32)) (.write 0x20 16 1#32) ∧
    HostOffers (offers (.read 0x21 32) (idle 0#32)) (.read 0x21 32) ∧
    HostOffers (offers (.write 0x20 32 1#32) (idle 0#32)) (.write 0x20 32 1#32) ∧
    HostOffers (offers (.read 0x20 32) (idle 0#32)) (.read 0x20 32) := by
  unfold HostOffers
  decide

/-- An XFER_BUF over `[0x200, 0x202)` and `[0x100, 0x102)`: its state when the host offers an access. -/
def bufferBusy (op : HostOp) : State :=
  offers op (running ⟨.xferDuplex, .bit .drive, work0⟩ (buffers 0x200#32 0x100#32 2#32 (idle 0x80#32)))

theorem bufferBusy_small {k : BitVec 32} (h : k < (2#32 : BitVec 32)) : k = 0#32 ∨ k = 1#32 := by
  have h' : k.toNat < 2 := h
  have hk : k.toNat = 0 ∨ k.toNat = 1 := by omega
  rcases hk with hk | hk
  · exact .inl (BitVec.eq_of_toNat_eq hk)
  · exact .inr (BitVec.eq_of_toNat_eq hk)

/-- The last bytes of both buffers race, the byte after the read buffer does not, and the write buffer may be read. -/
theorem witness_HostBufferRaceRefused :
    (HostOffers (bufferBusy (.store 0x201#32 7#8)) (.store 0x201#32 7#8) ∧
      ∃ k : BitVec 32, k < 2#32 ∧ (0x201#32 = 0x200#32 + k ∨ 0x201#32 = 0x100#32 + k)) ∧
    (HostOffers (bufferBusy (.store 0x101#32 7#8)) (.store 0x101#32 7#8) ∧
      ∃ k : BitVec 32, k < 2#32 ∧ (0x101#32 = 0x200#32 + k ∨ 0x101#32 = 0x100#32 + k)) ∧
    (HostOffers (bufferBusy (.store 0x202#32 7#8)) (.store 0x202#32 7#8) ∧
      (∀ k : BitVec 32, k < 2#32 → 0x202#32 ≠ 0x200#32 + k ∧ 0x202#32 ≠ 0x100#32 + k) ∧
      (bufferBusy (.store 0x202#32 7#8)).admitted 0x202#32 = true) ∧
    (HostOffers (bufferBusy (.load 0x200#32)) (.load 0x200#32) ∧
      ∃ k : BitVec 32, k < 2#32 ∧ 0x200#32 = 0x200#32 + k) ∧
    (HostOffers (bufferBusy (.load 0x101#32)) (.load 0x101#32) ∧
      (∀ k : BitVec 32, k < 2#32 → 0x101#32 ≠ 0x200#32 + k) ∧
      (bufferBusy (.load 0x101#32)).admitted 0x101#32 = true) := by
  refine ⟨⟨⟨rfl, rfl, rfl⟩, 1#32, by decide, by decide⟩, ⟨⟨rfl, rfl, rfl⟩, 1#32, by decide, by decide⟩,
    ⟨⟨rfl, rfl, rfl⟩, fun k h => ?_, by decide⟩, ⟨⟨rfl, rfl, rfl⟩, 0#32, by decide, by decide⟩,
    ⟨⟨rfl, rfl, rfl⟩, fun k h => ?_, by decide⟩⟩
  · rcases bufferBusy_small h with rfl | rfl <;> decide
  · rcases bufferBusy_small h with rfl | rfl <;> decide

/-! ### Witnesses: configuration, issue, flag, result -/

/-- V-L2-CFG-1 at the ends of its ranges. -/
theorem witness_EffectiveWordSizes :
    effWS 0#4 = 8 ∧ effWS 1#4 = 1 ∧ effWS 7#4 = 7 ∧ effWS 8#4 = 8 ∧ effWS 15#4 = 8 := by decide

/-- Every command in both phases, XFER_BUF with no element and with some, a reserved word, and a busy step. -/
theorem witness_CommandIssue :
    (∀ s ∈ [idle 0x00#32, idle 0x82#32, buffers 0x200#32 0x100#32 2#32 (idle 0x84#32)],
      ∀ i ∈ [Instr.busReset, .xferBit true, .xferByte 0x87#8, .read, .xferDuplex],
        let s := offers (.write 0x10 32 (encode i)) s
        HostOffers s (.write 0x10 32 (encode i)) ∧ s.busy = false ∧ decode (encode i) = .command i) ∧
    (let s := offers (.write 0x10 32 0x00000005#32) (idle 0#32)
     HostOffers s (.write 0x10 32 0x00000005#32) ∧ s.busy = false ∧ decode 0x00000005#32 = .reserved .opcode) ∧
    (let s := turnOf .sequencer (running ⟨.xferBit true, .bit .drive, work0⟩ (idle 0#32))
     s.busy = true ∧ nextAgent s ≠ .reset ∧ (seen State.mosi (step s)) = some true) := by
  unfold HostOffers
  decide

/-- Issue, completion, a completing turn, and a turn that accepts a write, fresh and held. -/
theorem witness_BusyFlag :
    (idle 0#32).busy = false ∧
    (let s := turnOf .sequencer (running ⟨.busReset, .done, work0⟩ (idle 0#32))
     InProgress s ⟨.busReset, .done, work0⟩ ∧ seen State.busy (exec .busReset s) = some false ∧
      nextAgent s ≠ .reset ∧ seen State.busy (step s) = some false) ∧
    (let s := offers (.write 0x10 32 0x00000001#32) (idle 0#32)
     s.cur = none ∧ s.busy = false ∧ seen State.busy (step s) = some true) ∧
    (let s : State := turnOf .sequencer { idle 0#32 with held := some ⟨0x10, 0x00000001#32⟩ }
     s.cur = none ∧ s.busy = false ∧ seen State.busy (step s) = some true) := by
  unfold InProgress
  decide

theorem witness_RxdataWrittenOnlyAtCompletion :
    (∀ r : Level, InProgress (running ⟨.xferBit true, .done, { work0 with r := r }⟩ (idle 0#32))
      ⟨.xferBit true, .done, { work0 with r := r }⟩) ∧
    InProgress (running ⟨.xferByte 0x87#8, .done, { work0 with rx := 0x78#8 }⟩ (idle 0x80#32))
      ⟨.xferByte 0x87#8, .done, { work0 with rx := 0x78#8 }⟩ ∧
    InProgress (running ⟨.busReset, .done, work0⟩ (idle 0#32)) ⟨.busReset, .done, work0⟩ ∧
    InProgress (running ⟨.read, .done, work0⟩ (idle 0#32)) ⟨.read, .done, work0⟩ ∧
    seen State.busy (exec .busReset (running ⟨.busReset, .lines, work0⟩ (idle 0#32))) = some true ∧
    (let s := turnOf .sequencer (running ⟨.busReset, .lines, work0⟩ (idle 0#32))
     nextAgent s ≠ .reset ∧ s.busy = true ∧ seen State.busy (step s) = some true) := by
  unfold InProgress
  decide

/-- CFG changes by a hardware reset, a fresh write and a held write. -/
theorem witness_CfgChangesOnlyByHostWrite :
    seen State.cfg (exec .busReset (running ⟨.busReset, .lines, work0⟩ (idle 0x81#32))) = some 0x81#32 ∧
    seen State.cfg (step (turnOf .reset (idle 0x81#32))) = some 0#32 ∧
    seen State.cfg (step (offers (.write 0x00 32 0xFFFFFFFF#32) (idle 0x81#32))) = some 0xF7#32 ∧
    seen State.cfg (step (turnOf .host { idle 0x81#32 with held := some ⟨0x00, 0x10#32⟩ })) = some 0x10#32 := by
  decide

/-! ### Witnesses: commands issued in a ready state -/

/-- The idle block is ready, in every mode and at either level of SCLK: the hypothesis of BusResetRuns, BusResetTwice,
XferBitRuns, BitEdges, BitLoopback, ByteCounts, ByteLoopback and ClockOnlyTransfer. -/
theorem witness_ready :
    ∀ s ∈ [idle 0x00#32, idle 0x01#32, idle 0x02#32, idle 0x03#32], ∀ c ∈ [false, true],
      (pins c true s).ready = true ∧ (pins c true s).env.misoIn = [] := by
  decide

theorem witness_XferBitRuns_leading_level :
    (pins false false (idle 0x1#32)).ready = true ∧
      (pins false false (idle 0x1#32)).sclk ≠ (pins false false (idle 0x1#32)).cpol := by decide

theorem witness_BitEdges_idle_level :
    (pins true false (idle 0x3#32)).ready = true ∧
      (pins true false (idle 0x3#32)).sclk = (pins true false (idle 0x3#32)).cpol := by decide

/-- A peripheral that answers with the bit sent is an external loopback, in all four modes. -/
theorem witness_BitLoopback :
    (∀ cpol cpha m b : Bool, mirrors m (bitTrace cpol cpha b b) = true) ∧
    (let s := answers [true] (idle 0x2#32)
     s.ready = true ∧
      (transferBit true s).2.hist = [.reset, .wait, .clkMosi true true, .wait, .clkSample false true]) := by
  decide

theorem witness_ByteLoopback :
    mirrors false (byteTrace true true (wireBits true 8 0x96#8) (wireBits true 8 0x96#8)) = true ∧
      (answers (wireBits true 8 0x96#8) (idle 0x87#32)).ready = true := by decide

theorem witness_ByteMsbFirst : (idle 0x80#32).ready = true ∧ (idle 0x80#32).lsbf = false := by decide

theorem witness_ByteLsbFirst : (idle 0x84#32).ready = true ∧ (idle 0x84#32).lsbf = true := by decide

theorem witness_ByteCounts : (idle 0x10#32).ready = true ∧ (idle 0x10#32).sclk = (idle 0x10#32).cpol := by decide

/-- The clamped word sizes at the ends of their ranges. -/
theorem witness_WordSizeClamp :
    ∀ s ∈ [idle 0x00#32, idle 0x80#32, idle 0xF0#32],
      s.ready = true ∧ (s.ws.toNat = 0 ∨ 8 ≤ s.ws.toNat) := by decide

theorem witness_HighBitsNeverReachAPin :
    (idle 0x30#32).ready = true ∧
      ∀ j, j < (idle 0x30#32).wordSize → (0xFD#8).getLsbD j = (0x05#8).getLsbD j := by decide

/-! ### Witnesses: the edge engine -/

/-- A transfer command at a position of `TransferBit`. -/
def atBit (cfg : Word) (p : BitPos) : State :=
  running ⟨.xferByte 0x87#8, .bit p, { work0 with tx := 0x87#8, txmask := 0x80#8, rxmask := 0x01#8 }⟩ (idle cfg)

theorem witness_LeadingSampleActions :
    ∀ p ∈ [BitPos.drive, .wait1, .lead, .wait2, .trail],
      ∃ run, InProgress (atBit 0x80#32 p) run ∧ run.cmd ≠ .busReset ∧ (atBit 0x80#32 p).cpha = false ∧
        run.pos = .bit p :=
  fun _ _ => ⟨_, ⟨rfl, rfl, rfl⟩, Instr.noConfusion, (by decide : (idle 0x80#32).cpha = false), rfl⟩

theorem witness_TrailingSampleActions :
    ∀ p ∈ [BitPos.wait1, .lead, .wait2, .trail],
      ∃ run, InProgress (atBit 0x82#32 p) run ∧ run.cmd ≠ .busReset ∧ (atBit 0x82#32 p).cpha = true ∧
        run.pos = .bit p :=
  fun _ _ => ⟨_, ⟨rfl, rfl, rfl⟩, Instr.noConfusion, (by decide : (idle 0x82#32).cpha = true), rfl⟩

theorem witness_WaitHoldsUntilAcknowledged :
    let s : State := { atBit 0x80#32 .wait1 with waitReq := true }
    s.busy = true ∧ s.waitReq = true ∧ runTurns [.sequencer, .host] s = .next s := ⟨rfl, rfl, rfl⟩

/-- Both sample instants, with no scripted answer. -/
theorem witness_SampleInstant :
    ((atBit 0x80#32 .lead).env.misoIn = [] ∧ (atBit 0x80#32 .lead).cpha = false ∧
      ∃ t, exec (.xferByte 0x87#8) (atBit 0x80#32 .lead) = .next t) ∧
    ((atBit 0x82#32 .trail).env.misoIn = [] ∧ (atBit 0x82#32 .trail).cpha = true ∧
      ∃ t, exec (.xferByte 0x87#8) (atBit 0x82#32 .trail) = .next t) :=
  ⟨⟨rfl, by decide, _, rfl⟩, ⟨rfl, by decide, _, rfl⟩⟩

/-- The leading-edge step with CPHA = 1, from the idle level: it changes both pins. -/
theorem witness_LeadingEdgeDrivesBothAtOnce :
    let s := turnOf .sequencer (atBit 0x82#32 .lead)
    s.inv = true ∧ s.cpha = true ∧ nextAgent s = .sequencer ∧ nextAgent s ≠ .reset ∧
      (∃ run, InProgress s run ∧ run.pos = .bit .lead) ∧ s.sclk = s.cpol ∧ (s.sclk, s.mosi) = (false, false) ∧
      seen (fun t => (t.sclk, t.mosi)) (step s) = some (true, true) :=
  ⟨by decide, by decide, rfl, by decide, ⟨_, ⟨rfl, rfl, rfl⟩, rfl⟩, by decide, rfl, by decide⟩

/-! ### Witnesses: the transaction sequencer -/

/-- A duplex transfer at element `k`. -/
def atElement (pos : Pos) (k : Word) : State :=
  running ⟨.xferDuplex, pos, { work0 with k := k }⟩ (buffers 0x200#32 0x100#32 2#32 (idle 0x80#32))

/-- A MemRead, and the MemWrites of the first and of the last element. -/
theorem witness_BufferMemorySteps :
    (InProgress (atElement .load 0#32) ⟨.xferDuplex, .load, work0⟩ ∧
      (atElement .load 0#32).admitted (0x100#32 + 0#32) = true) ∧
    (InProgress (atElement .store 0#32) ⟨.xferDuplex, .store, work0⟩ ∧
      (atElement .store 0#32).admitted (0x200#32 + 0#32) = true ∧ 0#32 + 1#32 ≠ (2#32 : Word) ∧
      Memory.wf (atElement .store 0#32).mem = true) ∧
    (InProgress (atElement .store 1#32) ⟨.xferDuplex, .store, { work0 with k := 1#32 }⟩ ∧
      (atElement .store 1#32).admitted (0x200#32 + 1#32) = true ∧ 1#32 + 1#32 = (2#32 : Word)) := by
  unfold InProgress
  decide

theorem witness_UnadmittedAddressSticks :
    ∀ pos ∈ [Pos.load, .store],
      let s : State := { noMemory (atElement pos 1#32) with held := some ⟨0, 1#32⟩ }
      InProgress s ⟨.xferDuplex, pos, { work0 with k := 1#32 }⟩ ∧ s.admitted (s.waddr + 1#32) = false ∧
        s.admitted (s.raddr + 1#32) = false ∧ seen State.held (runTurns [.sequencer, .host] s) = some s.held := by
  unfold InProgress
  decide

/-- Every address of the helper states is admitted. -/
theorem idle_admits (cfg raddr waddr count : Word) (rd wr : Bool) :
    (buffers raddr waddr count (idle cfg)).buffersAdmitted rd wr := by
  have h : ∀ a : Addr, (buffers raddr waddr count (idle cfg)).admitted a = true := by
    intro a
    have := a.isLt
    simp [State.admitted, buffers, idle, Admits.allows, Region.holds, this]
  exact fun k _ => ⟨fun _ => h _, fun _ => h _⟩

/-- The hypotheses of XferBufRuns, ReadOnlySendsZeros, BufferCounts and OverlappingBuffers. -/
theorem witness_buffersAdmitted :
    let s := buffers 0x200#32 0x100#32 2#32 (idle 0x80#32)
    s.ready = true ∧ s.buffersAdmitted true true ∧ s.buffersAdmitted true false ∧ Memory.wf s.mem = true ∧
      s.count ≠ 0#32 :=
  ⟨rfl, idle_admits _ _ _ _ _ _, idle_admits _ _ _ _ _ _, rfl, by decide⟩

theorem witness_CountZero :
    (buffers 0x200#32 0x100#32 0#32 (idle 0x80#32)).ready = true ∧
      (buffers 0x200#32 0x100#32 0#32 (idle 0x80#32)).count = 0#32 := by decide

/-- V-L2-BUF-1, rows in place, RADDR = WADDR + 1, WADDR = RADDR + 1; the largest offset is COUNT - 1. -/
theorem witness_OverlappingBuffers :
    (let s := buffers 0x100#32 0x100#32 3#32 (idle 0x80#32)
     s.ready = true ∧ s.buffersAdmitted true true ∧ s.raddr = s.waddr) ∧
    (∀ m ∈ [1, 2],
      let s := buffers (0x100#32 + BitVec.ofNat 32 m) 0x100#32 3#32 (idle 0x80#32)
      s.ready = true ∧ 1 ≤ m ∧ m < s.count.toNat ∧ s.raddr = s.waddr + BitVec.ofNat 32 m) ∧
    (∀ m ∈ [1, 2],
      let s := buffers 0x100#32 (0x100#32 + BitVec.ofNat 32 m) 3#32 (idle 0x80#32)
      s.ready = true ∧ 1 ≤ m ∧ m < s.count.toNat ∧ m + s.count.toNat ≤ 2 ^ 32 ∧
        s.waddr = s.raddr + BitVec.ofNat 32 m) :=
  ⟨⟨rfl, idle_admits _ _ _ _ _ _, rfl⟩, by decide, by decide⟩

/-! ### Witnesses: whole commands, invariants, frames -/

theorem witness_SequencerRunsPseudocode :
    ∀ i ∈ [Instr.busReset, .xferBit true, .xferByte 0x87#8, .xferBuf true true],
      let s := answers [true, false] (buffers 0x200#32 0x100#32 2#32 (idle 0x10#32))
      s.ready = true ∧ (runCommand i s).isSome = true := by
  decide

/-- An interleaving in which the command ends. -/
theorem witness_EveryInterleavingRunsPseudocode :
    (idle 0#32).ready = true ∧ (runCommand .busReset (idle 0#32)).isSome = true ∧
      (∀ a ∈ [Agent.delayUnit, Agent.sequencer, Agent.sequencer], a = .sequencer ∨ a = .delayUnit) ∧
      seen State.busy
        (runTurns [.delayUnit, .sequencer, .sequencer] (running ⟨.busReset, .lines, work0⟩ (idle 0#32))) =
        some false := by
  decide

/-- The hypotheses of InvariantKeptByStep, StepNeverFaults, PinsFollowHistory and HistoryGrowsByAtMostOneEvent. -/
theorem witness_inv :
    let s := turnOf .sequencer (atElement .store 1#32)
    s.inv = true ∧ pinsOf s.hist = (s.sclk, s.mosi) ∧ (seen State.hist (step s)).isSome = true := by
  decide

/-- A completion that changes RXDATA, an action that writes H, and one that does not. -/
theorem witness_RegisterCommandsFrame :
    (∀ rd wr, Instr.xferBit true ≠ .xferBuf rd wr) ∧
    seen State.rxdata
        (exec (.xferBit true) (running ⟨.xferBit true, .done, { work0 with r := true }⟩ (idle 0#32))) =
      some 1#32 ∧
    seen State.hist (exec (.xferByte 0x87#8) (atBit 0x80#32 .drive)) = some [.reset, .mosi true] ∧
    seen State.hist (exec (.xferByte 0x87#8) (atBit 0x80#32 .wait1)) = some [.reset] ∧
    seen State.waitReq (exec .busReset (running ⟨.busReset, .lines, work0⟩ (idle 0#32))) = some false := by
  decide

/-- A store position and one that stores nothing. -/
theorem witness_XferBufFrame :
    (InProgress (atElement .store 0#32) ⟨.xferDuplex, .store, work0⟩ ∧
      ∃ t, exec .xferDuplex (atElement .store 0#32) = .next t) ∧
    ((∀ w : Work, ¬ InProgress (atElement .load 0#32) ⟨.xferDuplex, .store, w⟩) ∧
      ∃ t, exec .xferDuplex (atElement .load 0#32) = .next t) := by
  refine ⟨⟨⟨rfl, rfl, rfl⟩, _, rfl⟩, ⟨fun w h => ?_, _, rfl⟩⟩
  have h' := h.2.2
  simp [atElement, running] at h'

/-- A sequencer's turn, a host read, and the two turns that may change the block. -/
theorem witness_IdleBlockIsQuiescent :
    (∀ s ∈ [turnOf .sequencer (idle 0#32), offers (.read 0x18 32) (idle 0#32),
        offers (.write 0x04 32 5#32) (idle 0#32), turnOf .host { idle 0#32 with held := some ⟨0x04, 5#32⟩ }],
      s.busy = false ∧ s.waitReq = false ∧ s.cur = none ∧ nextAgent s ≠ .reset ∧
        (seen State.raddr (step s)).isSome = true) := by
  decide

theorem witness_EndedRunStays :
    (turnOf .host (idle 0#32)).ended = true ∧ (turnOf .host (idle 0#32)).cur = none ∧
      nextAgent (turnOf .host (idle 0#32)) ≠ .reset := by decide

/-! ### The first step after a word is offered -/

/-- From `State.reset` the next step issues the command offered, for every row of the opcode table. -/
theorem test_withFetchWord :
    ∀ w ∈ [0x00000001, 0x00000102, 0x00008703, 0x00000034],
      seen (fun t => t.cur.map Running.cmd) (step (State.reset.withFetchWord 32 w)) =
        some (decodeTableWord 32 w) := by decide

end Sys2Proof.Tests
end

section
/-! SUPPORT. The family 10_state: what a command, a turn and a step leave of the host registers, and the obligations
O19 to O23. -/

namespace Sys2Proof.Machine

variable {s t : State} {i : Instr}

/-! ### The host registers -/

/-- The host registers of two states agree: the operands, RXDATA and STATUS (10_state R21). -/
def SameRegisters (s t : State) : Prop :=
  SameOperands s t ∧ t.rxdata = s.rxdata ∧ t.busy = s.busy

theorem SameRegisters.refl (s : State) : SameRegisters s s := ⟨.refl s, rfl, rfl⟩

theorem readReg_status (s : State) : readReg .status s = if s.busy then 1#32 else 0#32 := rfl

theorem readReg_rxdata_congr (h : t.rxdata = s.rxdata) : readReg .rxdata t = readReg .rxdata s :=
  congrArg (· &&& rxdataMask) h

/-! ### What a command's step leaves of them -/

/-- Pins, buffer memory and the wait are apart from the host registers. -/
theorem Primitive.sameRegisters (h : Primitive s t) : SameRegisters s t := by
  cases h <;> exact .refl s

theorem Acts.registers {run : Running} (h : Acts s run t) :
    SameRegisters s t ∨ (run.pos = .done ∧ ∃ r, t = Machine.complete r s) := by
  cases h with
  | wait _ => exact .inl (.refl s)
  | action run' hp _ => exact .inl hp.sameRegisters
  | complete r hd => exact .inr ⟨hd, r, rfl⟩

/-- A command's step writes host registers only when it issues the command or completes it. -/
theorem exec_registers (h : exec i s = .next t) :
    (s.busy = false ∧ t = issue (startOf i s) s) ∨ (s.busy = true ∧ SameRegisters s t) ∨
    (∃ run, InProgress s run ∧ run.cmd = i ∧ run.pos = .done ∧ ∃ r, t = complete r s) := by
  rcases exec_next_cases h with hi | ⟨hb, rfl⟩ | ⟨run, hb, hw, hc, hi, ha⟩
  · exact .inl hi
  · exact .inr (.inl ⟨hb, .refl _⟩)
  · rcases ha.registers with hs | ⟨hd, hr⟩
    · exact .inr (.inl ⟨hb, hs⟩)
    · exact .inr (.inr ⟨run, ⟨hb, hw, hc⟩, hi, hd, hr⟩)

theorem exec_sameOperands (h : exec i s = .next t) : SameOperands s t := by
  rcases exec_registers h with ⟨_, rfl⟩ | ⟨_, hs⟩ | ⟨run, _, _, _, r, rfl⟩
  · exact .refl s
  · exact hs.1
  · exact .refl s

theorem exec_rxdata_of_busy (h : exec i s = .next t) (ht : t.busy = true) : t.rxdata = s.rxdata := by
  rcases exec_registers h with ⟨_, rfl⟩ | ⟨_, _, hrx, _⟩ | ⟨run, _, _, _, r, rfl⟩
  · rfl
  · exact hrx
  · cases ht

/-- At the completion position every command completes. -/
theorem exec_done {run : Running} (h : InProgress s run) (hd : run.pos = .done) :
    ∃ r, exec run.cmd s = .next (complete r s) := by
  obtain ⟨hb, hw, hc⟩ := h
  obtain ⟨cmd, pos, w⟩ := run
  dsimp only at hd
  subst hd
  cases cmd with
  | busReset => exact ⟨_, exec_busReset_done hb hw hc⟩
  | xferBit b => exact ⟨_, exec_xferBit_done hb hw hc⟩
  | xferByte d => exact ⟨_, exec_xferByte_done hb hw hc⟩
  | xferBuf rd wr => exact ⟨_, exec_xferBuf_done hb hw hc⟩

/-- A busy command's step clears BUSY exactly at the completion position. -/
theorem exec_clears_busy_iff (hb : s.busy = true) (h : exec i s = .next t) :
    t.busy = false ↔ ∃ run, InProgress s run ∧ run.cmd = i ∧ run.pos = .done := by
  constructor
  · intro ht
    rcases exec_registers h with ⟨hi, _⟩ | ⟨_, _, _, hbusy⟩ | ⟨run, hp, hi, hd, _⟩
    · simp [hb] at hi
    · simp [hbusy, hb] at ht
    · exact ⟨run, hp, hi, hd⟩
  · rintro ⟨run, hp, rfl, hd⟩
    obtain ⟨r, he⟩ := exec_done hp hd
    cases he.symm.trans h
    rfl

/-! ### What an accepted host write leaves of them -/

theorem writeReg_busy (r : Reg) (v : Word) (s : State) : (writeReg r v s).busy = s.busy := by
  cases r <;> rfl

theorem writeReg_cfg_of_ne {r : Reg} (v : Word) (s : State) (h : r ≠ .cfg) : (writeReg r v s).cfg = s.cfg := by
  cases r with
  | cfg => exact absurd rfl h
  | _ => rfl

/-- Only a write to CMD sets BUSY (10_state R29). -/
theorem acceptWrite_sets_busy {w : RegWrite} (h : acceptWrite w s = .next t) (hb : s.busy = false)
    (ht : t.busy = true) : w.offset = 0x10 := by
  rcases acceptWrite_next h with ⟨i, ho, _⟩ | ⟨r, _, _, rfl⟩ | rfl
  · exact ho
  · simp [writeReg_busy, hb] at ht
  · simp [hb] at ht

/-- Only a write to CFG changes it, and only in the bits that exist (10_state R22, R25). -/
theorem acceptWrite_changes_cfg {w : RegWrite} (h : acceptWrite w s = .next t) (hne : t.cfg ≠ s.cfg) :
    w.offset = 0x00 ∧ t.cfg = w.value &&& cfgMask := by
  rcases acceptWrite_next h with ⟨i, _, _, he⟩ | ⟨r, ho, _, rfl⟩ | rfl
  · exact absurd (exec_sameOperands he).1 hne
  · by_cases hr : r = .cfg
    · subst hr
      exact ⟨ofOffset_cfg.mp ho, rfl⟩
    · exact absurd (writeReg_cfg_of_ne _ _ hr) hne
  · exact absurd rfl hne

/-! ### What a step leaves of them -/

/-- A host write the next step can accept or hold: the held one, else the one the host's turn offers. -/
def WritePending (s : State) (w : RegWrite) : Prop :=
  s.held = some w ∨ HostOffers s (.write w.offset 32 w.value)

/-- With BUSY = 1 a step that is no reset runs the command in progress or leaves the host registers alone. -/
theorem step_busy_cases (h : step s = .next t) (ha : nextAgent s ≠ .reset) (hb : s.busy = true) :
    (nextAgent s = .sequencer ∧ ∃ run, s.cur = some run ∧ exec run.cmd (tick s) = .next t) ∨
    SameRegisters s t := by
  have hT := step_next h
  generalize nextAgent s = a at hT ha
  cases hT with
  | reset => exact absurd rfl ha
  | rest _ => exact .inr (.refl s)
  | command run _ hc he => exact .inl ⟨rfl, run, hc, he⟩
  | acknowledge _ => exact .inr (.refl s)
  | acceptHeld _ w _ _ hidle _ => simp [hb] at hidle
  | acceptFresh w _ hidle _ _ _ => simp [hb] at hidle
  | hold w _ _ _ _ _ => exact .inr (.refl s)
  | look prog log _ _ => exact .inr (.refl s)
  | store a v _ _ _ => exact .inr (.refl s)

/-- With BUSY = 0 a step that is no reset accepts a pending host write, gives a turn to a command in progress (in no
reachable state), or leaves the host registers alone. -/
theorem step_idle_cases (h : step s = .next t) (ha : nextAgent s ≠ .reset) (hb : s.busy = false) :
    (∃ w u, WritePending s w ∧ SameRegisters s u ∧ acceptWrite w u = .next t) ∨
    (∃ run, s.cur = some run ∧ exec run.cmd (tick s) = .next t) ∨ SameRegisters s t := by
  have hT := step_next h
  generalize hag : nextAgent s = a at hT ha
  cases hT with
  | reset => exact absurd rfl ha
  | rest _ => exact .inr (.inr (.refl s))
  | command run _ hc he => exact .inr (.inl ⟨run, hc, he⟩)
  | acknowledge _ => exact .inr (.inr (.refl s))
  | acceptHeld _ w _ hw _ he => exact .inl ⟨w, { tick s with held := none }, .inl hw, .refl s, he⟩
  | acceptFresh w hn _ hp _ he => exact .inl ⟨w, hostAdvance (tick s), .inr ⟨hag, hn, hp⟩, .refl s, he⟩
  | hold w _ hbusy _ _ _ => simp [hb] at hbusy
  | look prog log _ _ => exact .inr (.inr (.refl s))
  | store a v _ _ _ => exact .inr (.inr (.refl s))

theorem step_busy_sameOperands (h : step s = .next t) (ha : nextAgent s ≠ .reset) (hb : s.busy = true) :
    SameOperands s t := by
  rcases step_busy_cases h ha hb with ⟨_, run, _, he⟩ | hs
  · exact exec_sameOperands (s := tick s) he
  · exact hs.1

/-! ### The step that accepts a host write -/

/-- With BUSY = 0 the host's offered write to a register of the window is accepted (10_state R31). -/
theorem step_offeredWrite {offset : Nat} {v : Word} (h : HostOffers s (.write offset 32 v)) (hb : s.busy = false)
    (ho : offset % 4 = 0) (hw : offset < 32) : step s = acceptWrite ⟨offset, v⟩ (hostAdvance (tick s)) := by
  obtain ⟨ha, hn, hp⟩ := h
  obtain ⟨rest, hrest⟩ := List.head?_eq_some_iff.mp hp
  rw [step, ha, agentTurn, orAcceptHeld_none (s := tick s) hn, hostTurn]
  simp [hn, hrest, hostWrite, accessShape, inWindow, ho, hw, hb]

/-! ### The running state XFER_BUF is issued with -/

/-- With no element XFER_BUF is issued at its completion step (43_buffer_transfer R146). -/
theorem startOf_xferBuf_zero (rd wr : Bool) (h : s.count = 0#32) :
    startOf (.xferBuf rd wr) s = ⟨.xferBuf rd wr, .done, { Work.unassigned with k := 0#32 }⟩ := by
  simp [startOf, startXferBuf, h]

/-- With a write buffer XFER_BUF begins with the MemRead of element 0. -/
theorem startOf_xferBuf_load (rd : Bool) (h : s.count ≠ 0#32) :
    startOf (.xferBuf rd true) s = ⟨.xferBuf rd true, .load, { Work.unassigned with k := 0#32 }⟩ := by
  simp [startOf, startXferBuf, startElement, h]

/-- Without one it begins with the first bit of a zero byte. -/
theorem startOf_xferBuf_bit (rd : Bool) (h : s.count ≠ 0#32) :
    startOf (.xferBuf rd false) s = ⟨.xferBuf rd false, .bit (BitPos.first s.cpha),
      Work.startByte 0x00#8 s { Work.unassigned with k := 0#32, t := 0x00#8 }⟩ := by
  simp [startOf, startXferBuf, startElement, startByte, h]

theorem startOf_xferBuf_k (rd wr : Bool) (s : State) : (startOf (.xferBuf rd wr) s).work.k = 0#32 := by
  by_cases h : s.count = 0#32
  · rw [startOf_xferBuf_zero rd wr h]
  · cases wr with
    | true => rw [startOf_xferBuf_load rd h]
    | false => rw [startOf_xferBuf_bit rd h]; rfl

/-! ### The obligations -/

/-- Settles O20: the accepted write runs the decoded command's issue step, whose running state is `startOf`; with
BUSY = 1 no step that is no reset writes an operand register. -/
theorem commandIssue : Obligations.CommandIssue := by
  refine ⟨fun s w i ho hb hd => ?_, fun s w why ho hb hd => ?_, fun s t hb ha h => step_busy_sameOperands h ha hb⟩
  · refine ⟨startOf i (hostAdvance (tick s)), ?_, startOf_cmd _ _, ?_, ?_, ?_, ?_⟩
    · rw [step_offeredWrite ho hb rfl (by decide), acceptWrite_command hd, exec_idle (s := hostAdvance (tick s)) hb]
      rfl
    · rintro rfl
      rfl
    · rintro b rfl
      rfl
    · rintro d rfl
      exact ⟨rfl, rfl, rfl, rfl, rfl, rfl⟩
    · rintro rd wr rfl
      refine ⟨startOf_xferBuf_k _ _ _, fun hc => ?_, fun hc hwr => ?_, fun hc hwr => ?_⟩
      · rw [startOf_xferBuf_zero (s := hostAdvance (tick s)) rd wr hc]
      · subst hwr
        rw [startOf_xferBuf_load (s := hostAdvance (tick s)) rd hc]
      · subst hwr
        rw [startOf_xferBuf_bit (s := hostAdvance (tick s)) rd hc]
        exact ⟨rfl, rfl, rfl, rfl, rfl⟩
  · rw [step_offeredWrite ho hb rfl (by decide), acceptWrite_reserved hd]

/-- Settles O21: only the completion step of a command clears BUSY, and only a write accepted at CMD sets it. -/
theorem busyFlag : Obligations.BusyFlag := by
  refine ⟨fun i s hb => ⟨_, exec_idle hb, rfl⟩, fun i s t => exec_clears_busy_iff, fun s t h ha hb ht => ?_,
    fun s t hc h hb ht => ?_, readReg_status⟩
  · rcases step_busy_cases h ha hb with ⟨hseq, run, _, he⟩ | ⟨_, _, hbusy⟩
    · obtain ⟨run', hp, _, hd⟩ := (exec_clears_busy_iff (s := tick s) hb he).mp ht
      exact ⟨hseq, run', hp, hd⟩
    · simp [hbusy, hb] at ht
  · have ha : nextAgent s ≠ .reset := by
      intro hr
      rw [step, hr] at h
      cases h
      cases ht
    rcases step_idle_cases h ha hb with ⟨⟨offset, v⟩, u, hw, ⟨_, _, hbu⟩, he⟩ | ⟨run, hr, _⟩ | ⟨_, _, hbusy⟩
    · obtain rfl : offset = 0x10 := acceptWrite_sets_busy he (hbu.trans hb) ht
      exact ⟨v, hw⟩
    · simp [hc] at hr
    · simp [hbusy, hb] at ht

/-- Settles O22: the four completion steps, and that a step which leaves BUSY at 1 leaves RXDATA. -/
theorem rxdataWrittenOnlyAtCompletion : Obligations.RxdataWrittenOnlyAtCompletion := by
  refine ⟨fun s b w ⟨hb, hw, hc⟩ => exec_xferBit_done hb hw hc, fun s d w ⟨hb, hw, hc⟩ => exec_xferByte_done hb hw hc,
    fun s w ⟨hb, hw, hc⟩ => exec_busReset_done hb hw hc, fun s rd wr w ⟨hb, hw, hc⟩ => exec_xferBuf_done hb hw hc,
    fun i s t => exec_rxdata_of_busy, fun s t h ha hb ht => readReg_rxdata_congr ?_⟩
  rcases step_busy_cases h ha hb with ⟨_, run, _, he⟩ | ⟨_, hrx, _⟩
  · exact exec_rxdata_of_busy (s := tick s) he ht
  · exact hrx

/-- Settles O23: a step with BUSY = 1 keeps the operands, and one with BUSY = 0 changes CFG only by the host write it
accepts. -/
theorem cfgChangesOnlyByHostWrite : Obligations.CfgChangesOnlyByHostWrite := by
  refine ⟨fun i s t h => (exec_sameOperands h).1, fun s t h hne => ?_⟩
  by_cases ha : nextAgent s = .reset
  · exact .inl ha
  · refine .inr ?_
    cases hb : s.busy with
    | true => exact absurd (step_busy_sameOperands h ha hb).1 hne
    | false =>
      refine ⟨rfl, ?_⟩
      rcases step_idle_cases h ha hb with ⟨⟨offset, v⟩, u, hw, ⟨⟨hcfg, _⟩, _⟩, he⟩ | ⟨run, _, he⟩ | ⟨⟨hcfg, _⟩, _⟩
      · obtain ⟨rfl, hv⟩ := acceptWrite_changes_cfg he (hcfg ▸ hne)
        exact ⟨v, hv, hw⟩
      · exact absurd (exec_sameOperands (s := tick s) he).1 hne
      · exact absurd hcfg hne

/-- Settles O19, by the two branches of `effWS`. -/
theorem effectiveWordSizes : Obligations.EffectiveWordSizes := by
  intro ws
  unfold effWS
  split_ifs with h
  · exact ⟨fun _ _ => rfl, fun h' => by omega, h.1, by omega⟩
  · exact ⟨fun h1 h7 => absurd ⟨h1, h7⟩ h, fun _ => rfl, by decide, by decide⟩

end Sys2Proof.Machine
end

section
/-! SUPPORT. The family 30_encoding: the fields of a command word, the decoder by the value of OP, the match/mask
table, the step that accepts a held host write, and the obligations O4 to O6. -/

namespace Sys2Proof

variable {w : Word}

/-! ### Fields of a word -/

theorem getElem_slice (lo len : Nat) (w : Word) (j : Nat) (hj : j < len) :
    (slice lo len w)[j] = w.getLsbD (lo + j) := by
  simp [slice]

theorem slice_and (lo len : Nat) (w v : Word) : slice lo len (w &&& v) = slice lo len w &&& slice lo len v :=
  BitVec.extractLsb'_and

theorem slice_or (lo len : Nat) (w v : Word) : slice lo len (w ||| v) = slice lo len w ||| slice lo len v :=
  BitVec.extractLsb'_or

/-- Two words agree on `a + b` bits exactly when they agree on the lower `a` of them and on the upper `b`. -/
theorem slice_add_eq_iff (lo a b : Nat) (w v : Word) :
    slice lo (a + b) w = slice lo (a + b) v ↔
      slice lo a w = slice lo a v ∧ slice (lo + a) b w = slice (lo + a) b v := by
  simp only [BitVec.eq_of_getElem_eq_iff, getElem_slice]
  constructor
  · exact fun h => ⟨fun j hj => h j (by omega), fun j hj => by simpa [Nat.add_assoc] using h (a + j) (by omega)⟩
  · rintro ⟨hlow, hhigh⟩ j hj
    by_cases hja : j < a
    · exact hlow j hja
    · simpa [Nat.add_assoc, Nat.add_sub_cancel' (Nat.le_of_not_lt hja)] using hhigh (j - a) (by omega)

/-- A word is its OP field and the fields of `a`, `b` and `c` bits above it. -/
theorem word_eq_iff_fields (a b c : Nat) (h : 4 + a + b + c = 32) (w v : Word) :
    w = v ↔ slice 0 4 w = slice 0 4 v ∧ slice 4 a w = slice 4 a v ∧ slice (4 + a) b w = slice (4 + a) b v ∧
      slice (4 + a + b) c w = slice (4 + a + b) c v := by
  have hwhole : w = v ↔ slice 0 (4 + a + b + c) w = slice 0 (4 + a + b + c) v := by
    rw [h, slice, slice, BitVec.extractLsb'_eq_self, BitVec.extractLsb'_eq_self]
  rw [hwhole, slice_add_eq_iff, slice_add_eq_iff, slice_add_eq_iff]
  simp only [Nat.zero_add, and_assoc, Nat.add_assoc]

/-- A mask with its 0 bits exactly at the operand's `b` bits, against a pattern of OP alone: OP is the pattern's and
the `a` bits below and the `c` bits above the operand are 0. -/
theorem and_mask_eq_iff (a b c : Nat) (h : 4 + a + b + c = 32) (mask pattern : Word)
    (hmask : slice 0 4 mask = BitVec.allOnes 4 ∧ slice 4 a mask = BitVec.allOnes a ∧ slice (4 + a) b mask = 0 ∧
      slice (4 + a + b) c mask = BitVec.allOnes c)
    (hpattern : slice 4 a pattern = 0 ∧ slice (4 + a) b pattern = 0 ∧ slice (4 + a + b) c pattern = 0) :
    w &&& mask = pattern ↔
      (slice 0 4 w).toNat = (slice 0 4 pattern).toNat ∧ slice 4 a w = 0 ∧ slice (4 + a + b) c w = 0 := by
  obtain ⟨hop, hlow, hoperand, hhigh⟩ := hmask
  obtain ⟨hlow', hoperand', hhigh'⟩ := hpattern
  rw [word_eq_iff_fields a b c h]
  simp only [slice_and, hop, hlow, hoperand, hhigh, hlow', hoperand', hhigh', BitVec.and_allOnes, BitVec.toNat_inj,
    BitVec.ofNat_eq_ofNat, BitVec.and_zero, true_and]

/-! ### The match/mask table (30_encoding R73) -/

theorem matches_busReset_iff :
    w &&& 0xFFFFFFFF#32 = 0x00000001#32 ↔ (slice 0 4 w).toNat = 1 ∧ slice 4 28 w = 0 :=
  (and_mask_eq_iff 28 0 0 rfl _ _ (by decide) (by decide)).trans (by simp [slice])

theorem matches_xferBit_iff :
    w &&& 0xFFFFFEFF#32 = 0x00000002#32 ↔ (slice 0 4 w).toNat = 2 ∧ slice 4 4 w = 0 ∧ slice 9 23 w = 0 :=
  and_mask_eq_iff 4 1 23 rfl _ _ (by decide) (by decide)

theorem matches_xferByte_iff :
    w &&& 0xFFFF00FF#32 = 0x00000003#32 ↔ (slice 0 4 w).toNat = 3 ∧ slice 4 4 w = 0 ∧ slice 16 16 w = 0 :=
  and_mask_eq_iff 4 8 16 rfl _ _ (by decide) (by decide)

theorem matches_xferBuf_iff :
    w &&& 0xFFFFFFCF#32 = 0x00000004#32 ↔ (slice 0 4 w).toNat = 4 ∧ slice 6 26 w = 0 :=
  (and_mask_eq_iff 0 2 26 rfl _ _ (by decide) (by decide)).trans (by simp [slice])

/-- A word in two rows makes the two patterns agree where both masks look. -/
theorem EncodingRow.patterns_agree {r q : EncodingRow} (hr : r.matches w = true) (hq : q.matches w = true) :
    r.pattern &&& q.mask = q.pattern &&& r.mask := by
  have hrw : w &&& r.mask = r.pattern := by simpa [EncodingRow.matches] using hr
  have hqw : w &&& q.mask = q.pattern := by simpa [EncodingRow.matches] using hq
  rw [← hrw, ← hqw, BitVec.and_assoc, BitVec.and_assoc, BitVec.and_comm r.mask]

theorem encodingTable_disjoint :
    encodingTable.Pairwise (fun r q => ∀ w : Word, ¬ (r.matches w = true ∧ q.matches w = true)) := by
  have hdiffer : encodingTable.Pairwise (fun r q => r.pattern &&& q.mask ≠ q.pattern &&& r.mask) := by decide
  exact hdiffer.imp fun hne w ⟨hr, hq⟩ => hne (EncodingRow.patterns_agree hr hq)

/-! ### The decoder by the value of OP (30_encoding R76) -/

/-- The arm of the decoder each value of OP selects. -/
theorem decode_cases (w : Word) :
    ((slice 0 4 w).toNat = 1 ∧ decode w = commandIf (slice 4 28 w == 0) .busReset) ∨
    ((slice 0 4 w).toNat = 2 ∧
      decode w = commandIf (slice 9 23 w == 0 && slice 4 4 w == 0) (.xferBit (w.getLsbD 8))) ∨
    ((slice 0 4 w).toNat = 3 ∧
      decode w = commandIf (slice 16 16 w == 0 && slice 4 4 w == 0) (.xferByte (slice 8 8 w))) ∨
    ((slice 0 4 w).toNat = 4 ∧ decode w = commandIf (slice 6 26 w == 0) (.xferBuf (w.getLsbD 4) (w.getLsbD 5))) ∨
    (((slice 0 4 w).toNat = 0 ∨ 5 ≤ (slice 0 4 w).toNat) ∧ decode w = .reserved .opcode) := by
  unfold decode
  split
  case h_1 hop => exact .inl ⟨hop, rfl⟩
  case h_2 hop => exact .inr (.inl ⟨hop, rfl⟩)
  case h_3 hop => exact .inr (.inr (.inl ⟨hop, rfl⟩))
  case h_4 hop => exact .inr (.inr (.inr (.inl ⟨hop, rfl⟩)))
  case h_5 h1 h2 h3 h4 =>
    have hop : (slice 0 4 w).toNat = 0 ∨ 5 ≤ (slice 0 4 w).toNat := by
      simp only [imp_false] at h1 h2 h3 h4
      omega
    exact .inr (.inr (.inr (.inr ⟨hop, rfl⟩)))

@[simp] theorem commandIf_mnemonic_iff (zeros : Bool) (i : Instr) (m : String) :
    (commandIf zeros i).mnemonic? = some m ↔ zeros = true ∧ i.mnemonic = m := by
  cases zeros <;> simp [commandIf, Decoded.mnemonic?]

@[simp] theorem commandIf_eq_reserved_iff (zeros : Bool) (i : Instr) (why : Reserved) :
    commandIf zeros i = .reserved why ↔ zeros = false ∧ why = .mustBeZero := by
  cases zeros <;> simp [commandIf, eq_comm]

/-- A word decodes to a command of a mnemonic exactly when it lies in that mnemonic's row. -/
theorem decode_mnemonic_iff_matches (w : Word) :
    ((decode w).mnemonic? = some "BUSRESET" ↔ w &&& 0xFFFFFFFF#32 = 0x00000001#32) ∧
    ((decode w).mnemonic? = some "XFER_BIT" ↔ w &&& 0xFFFFFEFF#32 = 0x00000002#32) ∧
    ((decode w).mnemonic? = some "XFER_BYTE" ↔ w &&& 0xFFFF00FF#32 = 0x00000003#32) ∧
    ((decode w).mnemonic? = some "XFER_BUF" ↔ w &&& 0xFFFFFFCF#32 = 0x00000004#32) := by
  rw [matches_busReset_iff, matches_xferBit_iff, matches_xferByte_iff, matches_xferBuf_iff]
  rcases decode_cases w with ⟨hop, hd⟩ | ⟨hop, hd⟩ | ⟨hop, hd⟩ | ⟨hop, hd⟩ | ⟨hop, hd⟩
  · simp [hop, hd, Instr.mnemonic]
  · simp [hop, hd, Instr.mnemonic, and_comm]
  · simp [hop, hd, Instr.mnemonic, and_comm]
  · simp [hop, hd, Instr.mnemonic]
  · rw [hd]
    simp only [Decoded.mnemonic?, reduceCtorEq, false_iff]
    omega

/-- The two reservations (30_encoding R78). -/
theorem decode_reserved_iff (w : Word) :
    (decode w = .reserved .opcode ↔ (slice 0 4 w).toNat = 0 ∨ 5 ≤ (slice 0 4 w).toNat) ∧
    (decode w = .reserved .mustBeZero ↔
      ((slice 0 4 w).toNat = 1 ∧ slice 4 28 w ≠ 0) ∨
      ((slice 0 4 w).toNat = 2 ∧ (slice 4 4 w ≠ 0 ∨ slice 9 23 w ≠ 0)) ∨
      ((slice 0 4 w).toNat = 3 ∧ (slice 4 4 w ≠ 0 ∨ slice 16 16 w ≠ 0)) ∨
      ((slice 0 4 w).toNat = 4 ∧ slice 6 26 w ≠ 0)) := by
  rcases decode_cases w with ⟨hop, hd⟩ | ⟨hop, hd⟩ | ⟨hop, hd⟩ | ⟨hop, hd⟩ | ⟨hop, hd⟩
  · simp [hop, hd]
  · simp [hop, hd, or_comm, imp_iff_not_or]
  · simp [hop, hd, or_comm, imp_iff_not_or]
  · simp [hop, hd]
  · refine ⟨by simp [hd, hop], ?_⟩
    rw [hd]
    simp only [Decoded.reserved.injEq, reduceCtorEq, false_iff]
    omega

/-! ### The layouts (30_encoding R73) -/

/-- The fields of an operand byte moved to bits 15 to 8. -/
theorem slice_byteField (d : Byte) :
    slice 0 4 (d.setWidth 32 <<< 8) = 0 ∧ slice 4 4 (d.setWidth 32 <<< 8) = 0 ∧
      slice 8 8 (d.setWidth 32 <<< 8) = d ∧ slice 16 16 (d.setWidth 32 <<< 8) = 0 := by
  refine ⟨?_, ?_, ?_, ?_⟩ <;> ext j hj
  · simp [getElem_slice, show j < 8 by omega]
  · simp [getElem_slice, show 4 + j < 8 by omega]
  · simp [getElem_slice, show 8 + j < 32 by omega, BitVec.getLsbD_eq_getElem hj]
  · simp [getElem_slice, BitVec.getLsbD_of_ge d (16 + j - 8) (by omega)]

/-- The fields of an XFER_BYTE word, OP first. -/
theorem slice_encode_xferByte (d : Byte) :
    slice 0 4 (encode (.xferByte d)) = 3#4 ∧ slice 4 4 (encode (.xferByte d)) = 0 ∧
      slice 8 8 (encode (.xferByte d)) = d ∧ slice 16 16 (encode (.xferByte d)) = 0 := by
  obtain ⟨hop, hlow, hd, hhigh⟩ := slice_byteField d
  simp only [encode, slice_or, hop, hlow, hd, hhigh]
  simp [slice]

/-- Every command's word decodes to it. -/
theorem decode_encode (i : Instr) : decode (encode i) = .command i := by
  cases i with
  | busReset => rfl
  | xferBit b => cases b <;> rfl
  | xferByte d =>
    obtain ⟨hop, hlow, hd, hhigh⟩ := slice_encode_xferByte d
    simp [decode, hop, hlow, hd, hhigh, commandIf]
  | xferBuf rd wr => cases rd <;> cases wr <;> rfl

/-! ### The assembler's words (30_encoding R79) -/

theorem AsmLine.encode_of_not_wf {l : AsmLine} (h : l.wf = false) : l.encode = none := by
  simp [AsmLine.encode, AsmLine.assemble, h]

theorem bitWord_beq_one {n : Nat} (h : n < 2) : bitWord (n == 1) = BitVec.ofNat 32 n := by
  interval_cases n <;> rfl

theorem AsmLine.encode_xferBit (b : Nat) :
    AsmLine.encode (.xferBit b) =
      if b < 2 then some (0x00000002#32 ||| (BitVec.ofNat 32 b <<< 8)) else none := by
  split_ifs with h
  · simp [AsmLine.encode, AsmLine.assemble, AsmLine.wf, Sys2Proof.encode, h, bitWord_beq_one h]
  · exact AsmLine.encode_of_not_wf (by simpa [AsmLine.wf] using h)

theorem AsmLine.encode_xferByte (d : Nat) :
    AsmLine.encode (.xferByte d) =
      if d < 256 then some (0x00000003#32 ||| (BitVec.ofNat 32 d <<< 8)) else none := by
  split_ifs with h
  · have hd : (BitVec.ofNat 8 d).setWidth 32 = BitVec.ofNat 32 d :=
      BitVec.setWidth_ofNat_of_le_of_lt (by decide) h
    simp [AsmLine.encode, AsmLine.assemble, AsmLine.wf, Sys2Proof.encode, h, hd]
  · exact AsmLine.encode_of_not_wf (by simpa [AsmLine.wf] using h)

theorem AsmLine.encode_xferBuf (r w : Nat) :
    AsmLine.encode (.xferBuf r w) =
      if r < 2 ∧ w < 2 then
        some (0x00000004#32 ||| (BitVec.ofNat 32 w <<< 5) ||| (BitVec.ofNat 32 r <<< 4))
      else none := by
  split_ifs with h
  · simp [AsmLine.encode, AsmLine.assemble, AsmLine.wf, Sys2Proof.encode, h, bitWord_beq_one h.1, bitWord_beq_one h.2]
  · exact AsmLine.encode_of_not_wf (by simpa [AsmLine.wf, Bool.and_eq_false_iff, not_and_or] using h)

end Sys2Proof

namespace Sys2Proof.Machine

/-! ### The step that accepts a held host write -/

/-- A held write is accepted at the first step with BUSY = 0 that is no reset (10_state R31). -/
theorem step_heldWrite {s : State} {w : RegWrite} (h : s.held = some w) (hb : s.busy = false)
    (ha : nextAgent s ≠ .reset) : step s = acceptWrite w { tick s with held := none } := by
  have key : ∀ turn : State → Out, orAcceptHeld turn (tick s) = acceptWrite w { tick s with held := none } :=
    fun _ => orAcceptHeld_accept (s := tick s) h hb
  unfold step
  cases hag : nextAgent s with
  | reset => exact absurd hag ha
  | sequencer => exact key sequencerTurn
  | delayUnit => exact key (fun s => .next (delayTurn s))
  | host => exact key hostTurn

/-! ### The obligations -/

/-- Settles O4: the rows of the table and the arms of the decoder ask for the same fields, the layouts are the
encoder's words, and any two patterns differ where both masks look. -/
theorem decodeAgreesWithMatchMask : Obligations.DecodeAgreesWithMatchMask :=
  ⟨decode_mnemonic_iff_matches, decode_encode .busReset, fun b => decode_encode (.xferBit b),
    fun d => decode_encode (.xferByte d), fun rd wr => decode_encode (.xferBuf rd wr), encodingTable_disjoint⟩

/-- Settles O5: the arm of the decoder OP selects, and the step that accepts a fresh or a held write. -/
theorem reservedWordsAreRefused : Obligations.ReservedWordsAreRefused := by
  refine ⟨decode_reserved_iff, fun s w why hd ho hb => ?_, fun s w why hd hh hb ha => ?_⟩
  · rw [step_offeredWrite ho hb rfl (by decide), acceptWrite_reserved hd]
  · rw [step_heldWrite hh hb ha, acceptWrite_reserved hd]

/-- Settles O6: a line in range is the encoder's word, any other line is no word. -/
theorem assemblerWords : Obligations.AssemblerWords :=
  ⟨rfl, AsmLine.encode_xferBit, AsmLine.encode_xferByte, AsmLine.encode_xferBuf, rfl, rfl, rfl, rfl⟩

end Sys2Proof.Machine
end

section
/-! SUPPORT. The family 40_bus_reset: BUSRESET action by action and as one run of turns, and the obligations O24
and O25. -/

namespace Sys2Proof.Machine

variable {s : State}

/-! ### The steps of BUSRESET -/

/-- What BUSRESET leaves of the state it is issued in (40_bus_reset R90). -/
def afterBusReset (s : State) : State :=
  complete none (setClkMosi s.cpol false s)

/-- The state after the one action of BUSRESET, before its completion step. -/
def busResetDriven (s : State) : State :=
  goto (toDone startBusReset) (setClkMosi s.cpol false (issue startBusReset s))

/-- The issue step is followed by the one action. -/
theorem exec_busReset_issued (hw : s.waitReq = false) :
    exec .busReset (issue startBusReset s) = .next (busResetDriven s) :=
  exec_busReset_lines rfl hw rfl

/-- The action is followed by the completion step. -/
theorem exec_busReset_driven (hw : s.waitReq = false) :
    exec .busReset (busResetDriven s) = .next (afterBusReset s) :=
  exec_busReset_done rfl hw rfl

/-- From issue to the end of the completion step BUSRESET takes two pairs of turns. -/
theorem runTurns_busReset (hw : s.waitReq = false) (hh : s.held = none) :
    runTurns (promptTurns 2) (issue startBusReset s) = .next (afterBusReset s) := by
  have action : runTurns (promptTurns 1) (issue startBusReset s) = .next (busResetDriven s) :=
    runTurns_pair_action hh rfl (exec_busReset_issued hw) hh hw
  have completion : runTurns (promptTurns 1) (busResetDriven s) = .next (afterBusReset s) :=
    runTurns_pair_action hh rfl (exec_busReset_driven hw) hh hw
  exact (runTurns_promptTurns_add action).trans completion

/-- BUSRESET ends in a state in which the next command can be issued. -/
theorem afterBusReset_ready (h : s.ready = true) : (afterBusReset s).ready = true := by
  obtain ⟨-, hw, hh⟩ := (ready_iff s).1 h
  exact (ready_iff _).2 ⟨rfl, hw, hh⟩

/-! ### The edge of a joint action on both lines -/

/-- `SetClkMosi` is an edge exactly if it changes the level of SCLK (00_scope R16). -/
theorem edges_clkMosi (l c d : Level) : edges l [.clkMosi c d] = if l = c then [] else [c] := by
  simp [edges, pinsAfter, eq_comm]

/-! ### The obligations -/

/-- Settles O24: the three steps of BUSRESET are its issue, the action on both lines and the completion step. -/
theorem busResetRuns : Obligations.BusResetRuns := by
  refine ⟨decode_encode .busReset, fun s h => ?_⟩
  obtain ⟨hb, hw, -⟩ := (ready_iff s).1 h
  exact ⟨issue startBusReset s, busResetDriven s, afterBusReset s, exec_idle hb, rfl,
    exec_busReset_issued hw, rfl, exec_busReset_driven hw, rfl, edges_clkMosi _ _ _⟩

/-- Settles O25: the first BUSRESET leaves SCLK at CFG.CPOL and MOSI at 0, the levels the second one writes. -/
theorem busResetTwice : Obligations.BusResetTwice := by
  intro s h
  obtain ⟨hb, hw, hh⟩ := (ready_iff s).1 h
  obtain ⟨hb', hw', hh'⟩ := (ready_iff _).1 (afterBusReset_ready h)
  have hidle : (afterBusReset s).sclk = (afterBusReset s).cpol := rfl
  exact ⟨issue startBusReset s, afterBusReset s, issue startBusReset (afterBusReset s),
    afterBusReset (afterBusReset s), exec_idle hb, runTurns_busReset hw hh, hidle, rfl,
    exec_idle hb', runTurns_busReset hw' hh', rfl, (edges_clkMosi _ _ _).trans (if_pos hidle), rfl⟩

end Sys2Proof.Machine
end

section
/-! SUPPORT. The family 41_bit_transfer: `TransferBit` in closed form, its trace, the sample in the working state, what a
step with CPHA = 1 does to the pins, and the obligations O29 to O33. -/

namespace Sys2Proof.Machine

variable {s t : State} {run : Running} {b : Level}

/-! ### `TransferBit` in closed form -/

/-- The peripheral's answer at the sample instant of `TransferBit(b)` (41_bit_transfer R105). -/
def bitReply (b : Level) (s : State) : Level :=
  if s.cpha then State.misoAnswer { s with hist := s.hist ++ [.wait, .clkMosi (!s.cpol) b, .wait] } s.cpol
  else State.misoAnswer { s with hist := s.hist ++ [.mosi b, .wait] } (!s.cpol)

/-- What `TransferBit(b)` leaves of the state it begins in (41_bit_transfer R101). -/
def afterBit (b : Level) (s : State) : State :=
  { s with
    sclk := s.cpol
    mosi := b
    hist := s.hist ++ bitTrace s.cpol s.cpha b (bitReply b s)
    env := { s.env with misoIn := s.env.misoIn.tail } }

theorem transferBit_eq (b : Level) (s : State) : transferBit b s = (bitReply b s, afterBit b s) := by
  cases hp : s.cpha with
  | false =>
    simp [transferBit, bitReply, afterBit, bitTrace, hp, setMosi, waitHalf, setClkSample, setClk,
      State.misoAnswer]
  | true =>
    simp [transferBit, bitReply, afterBit, bitTrace, hp, setClkMosi, waitHalf, setClkSample,
      State.misoAnswer]

/-- Where no answer is scripted, `miso_env` answers, given H with the clock change (41_bit_transfer R105). -/
theorem misoAnswer_unscripted (h : s.env.misoIn = []) (l : Level) :
    s.misoAnswer l = Config.misoEnv (s.hist ++ [.clk l]) := by
  simp [State.misoAnswer, h]

theorem bitReply_leading (h : s.env.misoIn = []) (hp : s.cpha = false) :
    bitReply b s = Config.misoEnv (s.hist ++ [.mosi b, .wait, .clk (!s.cpol)]) := by
  simp [bitReply, hp, misoAnswer_unscripted, h]

theorem bitReply_trailing (h : s.env.misoIn = []) (hp : s.cpha = true) :
    bitReply b s = Config.misoEnv (s.hist ++ [.wait, .clkMosi (!s.cpol) b, .wait, .clk s.cpol]) := by
  simp [bitReply, hp, misoAnswer_unscripted, h]

/-! ### The trace of a bit -/

/-- From the idle level a bit makes the leading and the trailing edge (41_bit_transfer R110). -/
theorem edges_bitTrace_idle (cpol cpha b r : Level) : edges cpol (bitTrace cpol cpha b r) = [!cpol, cpol] := by
  cases cpha <;> simp [bitTrace, edges, pinsAfter]

/-- From the leading level it makes the trailing edge alone (41_bit_transfer R111). -/
theorem edges_bitTrace_lead (cpol cpha b r : Level) : edges (!cpol) (bitTrace cpol cpha b r) = [cpol] := by
  cases cpha <;> simp [bitTrace, edges, pinsAfter]

/-- The one sample of a bit sees MOSI at the bit sent: `b` is driven before it in both phases. -/
theorem mirrors_bitTrace (m cpol cpha b r : Level) : mirrors m (bitTrace cpol cpha b r) = (r == b) := by
  cases cpha <;> simp [bitTrace, mirrors, pinsAfter]

/-! ### XFER_BIT from issue to completion -/

/-- What XFER_BIT leaves of the state it is issued in (41_bit_transfer R104). -/
def afterXferBit (b : Level) (s : State) : State :=
  complete (some (bitWord (bitReply b s))) (afterBit b s)

theorem runTurns_xferBit_issued (b : Level) (h : s.ready = true) :
    runTurns (promptTurns (s.actionsPerBit + 1)) (issue (startOf (.xferBit b) s) s) = .next (afterXferBit b s) := by
  rw [runTurns_xferBit b h, transferBit_eq, afterXferBit]

/-! ### The sample in the working state -/

theorem collect_r (w : Work) : w.collect.r = w.r := by
  unfold Work.collect; split_ifs <;> rfl

theorem shift_r (lsbf : Bool) (w : Work) : (w.shift lsbf).r = w.r := by
  unfold Work.shift; split_ifs <;> rfl

theorem startElement_r (wr : Bool) (s : State) (run : Running) : (startElement wr s run).work.r = run.work.r := by
  unfold startElement; split_ifs <;> rfl

theorem nextElement_r (wr : Bool) (s : State) (run : Running) : (nextElement wr s run).work.r = run.work.r := by
  unfold nextElement
  split_ifs
  · rfl
  · exact startElement_r wr s _

theorem endByte_r (rd wr : Bool) (s : State) (run : Running) : (endByte rd wr s run).work.r = run.work.r := by
  unfold endByte
  split_ifs
  · rfl
  · exact nextElement_r wr s run

theorem nextBit_r {fin : Running → Running} (hf : ∀ run, (fin run).work.r = run.work.r) (run : Running) :
    (nextBit s fin run).work.r = run.work.r := by
  simp only [nextBit]
  split_ifs
  · rw [hf, collect_r]
  · rw [← collect_r run.work]
    exact shift_r s.lsbf _

/-- The leading-edge action with CPHA = 0 samples into `r`. -/
theorem exec_lead_sample (h : InProgress s run) (hc : run.cmd ≠ .busReset) (hp : run.pos = .bit .lead)
    (hph : s.cpha = false) :
    exec run.cmd s = .next (goto { run with pos := .bit .wait2, work := { run.work with r := s.misoAnswer s.lead } }
      (setClkSample s.lead s)) := by
  obtain ⟨fin, -, -, -, he⟩ := exec_bit h hc hp
  rw [he]
  simp [bitStep, hph]

/-- The leading-edge action with CPHA = 1 is the joint action on both lines (41_bit_transfer R106). -/
theorem exec_lead_drive (h : InProgress s run) (hc : run.cmd ≠ .busReset) (hp : run.pos = .bit .lead)
    (hph : s.cpha = true) :
    exec run.cmd s = .next (goto { run with pos := .bit .wait2 } (setClkMosi s.lead run.sentBit s)) := by
  obtain ⟨fin, -, -, -, he⟩ := exec_bit h hc hp
  rw [he]
  simp [bitStep, hph]

/-- The trailing-edge action with CPHA = 1 samples into `r`, and what the command does at the end of the bit keeps it. -/
theorem exec_trail_sample (h : InProgress s run) (hc : run.cmd ≠ .busReset) (hp : run.pos = .bit .trail)
    (hph : s.cpha = true) :
    ∃ run' : Running, run'.work.r = s.misoAnswer s.idle ∧
      exec run.cmd s = .next (goto run' (setClkSample s.idle s)) := by
  have key : ∀ (b : Level) (fin : Running → Running), (∀ run, (fin run).work.r = run.work.r) →
      exec run.cmd s = .next (bitStep b .trail fin run s) →
      ∃ run' : Running, run'.work.r = s.misoAnswer s.idle ∧
        exec run.cmd s = .next (goto run' (setClkSample s.idle s)) := fun b fin hf he =>
    ⟨fin { run with work := { run.work with r := s.misoAnswer s.idle } }, hf _, by rw [he]; simp [bitStep, hph]⟩
  obtain ⟨hb, hw, hcur⟩ := h
  obtain ⟨cmd, pos, w⟩ := run
  dsimp only at hc hp
  subst hp
  have hd : ∀ run, (toDone run).work.r = run.work.r := fun _ => rfl
  cases cmd with
  | busReset => exact absurd rfl hc
  | xferBit b => exact key _ _ hd (exec_xferBit_bit hb hw hcur)
  | xferByte d => exact key _ _ (nextBit_r hd) (exec_xferByte_bit hb hw hcur)
  | xferBuf rd wr => exact key _ _ (nextBit_r (endByte_r rd wr s)) (exec_xferBuf_bit hb hw hcur)

/-! ### What a step with CPHA = 1 does to the pins -/

/-- From `s` to `t` both pins are written in one action, or MOSI is not driven and SCLK stays or goes to the idle level. -/
def DrivesJointly (s t : State) : Prop :=
  t.hist = s.hist ++ [.clkMosi t.sclk t.mosi] ∨
    (t.mosi = s.mosi ∧ (t.sclk = s.sclk ∨ t.sclk = s.cpol) ∧ ∀ l, t.hist ≠ s.hist ++ [.mosi l])

/-- A step that touches neither the pins nor H. -/
theorem DrivesJointly.of_quiet (hc : t.sclk = s.sclk) (hm : t.mosi = s.mosi) (hh : t.hist = s.hist) :
    DrivesJointly s t :=
  .inr ⟨hm, .inl hc, fun l => by simp [hh]⟩

/-- With CPHA = 1 no action of a bit but `drive`, which that phase has not, drives MOSI alone. -/
theorem bitStep_drivesJointly {p : BitPos} (hph : s.cpha = true) (hp : p ≠ .drive) (b : Level)
    (fin : Running → Running) (run : Running) : DrivesJointly s (bitStep b p fin run s) := by
  cases p with
  | drive => exact absurd rfl hp
  | wait1 => exact .of_quiet rfl rfl rfl
  | wait2 => exact .of_quiet rfl rfl rfl
  | lead =>
    simp only [bitStep, hph, if_true]
    exact .inl rfl
  | trail =>
    simp only [bitStep, hph, if_true]
    exact .inr ⟨rfl, .inr rfl, fun l => by simp⟩

theorem loadStep_drivesJointly (h : loadStep run s = .next t) : DrivesJointly s t := by
  rcases loadStep_cases run s with ⟨-, he⟩ | ⟨-, he⟩
  · cases he.symm.trans h
    exact .inr ⟨rfl, .inl rfl, fun l => by simp⟩
  · cases he.symm.trans h

theorem storeStep_drivesJointly {wr : Bool} (h : storeStep wr run s = .next t) : DrivesJointly s t := by
  rcases storeStep_cases wr run s with ⟨-, he⟩ | ⟨-, he⟩
  · cases he.symm.trans h
    exact .inr ⟨rfl, .inl rfl, fun l => by simp⟩
  · cases he.symm.trans h

/-- A position of `TransferBit` belongs to a transfer command, in a phase that has it. -/
theorem legal_bit {p : BitPos} (h : run.legal s = true) (hp : run.pos = .bit p) :
    run.cmd ≠ .busReset ∧ p.ofPhase s.cpha = true := by
  obtain ⟨cmd, pos, w⟩ := run
  dsimp only at hp
  subst hp
  cases cmd with
  | busReset => cases h
  | xferBit b => exact ⟨nofun, h⟩
  | xferByte d =>
    simp only [Running.legal, Bool.and_eq_true] at h
    exact ⟨nofun, h.1⟩
  | xferBuf rd wr =>
    simp only [Running.legal, Bool.and_eq_true] at h
    exact ⟨nofun, h.1.1⟩

/-- The action on both lines is BUSRESET's (40_bus_reset R90). -/
theorem legal_lines (h : run.legal s = true) (hp : run.pos = .lines) : run.cmd = .busReset := by
  obtain ⟨cmd, pos, w⟩ := run
  dsimp only at hp
  subst hp
  cases cmd with
  | busReset => rfl
  | xferBit b => cases h
  | xferByte d => cases h
  | xferBuf rd wr => cases h

/-- The memory actions are XFER_BUF's (43_buffer_transfer R141). -/
theorem legal_memory (h : run.legal s = true) (hp : run.pos = .load ∨ run.pos = .store) :
    ∃ rd wr, run.cmd = .xferBuf rd wr := by
  obtain ⟨cmd, pos, w⟩ := run
  dsimp only at hp
  cases cmd with
  | busReset => rcases hp with rfl | rfl <;> cases h
  | xferBit b => rcases hp with rfl | rfl <;> cases h
  | xferByte d => rcases hp with rfl | rfl <;> cases h
  | xferBuf rd wr => exact ⟨rd, wr, rfl⟩

/-- The step of the command in progress at a position of its own. -/
theorem exec_drivesJointly (hph : s.cpha = true) (h : InProgress s run) (hl : run.legal s = true)
    (he : exec run.cmd s = .next t) : DrivesJointly s t := by
  obtain ⟨hb, hw, hc⟩ := id h
  obtain ⟨cmd, pos, w⟩ := run
  cases pos with
  | lines =>
    obtain rfl : cmd = .busReset := legal_lines hl rfl
    cases (exec_busReset_lines hb hw hc).symm.trans he
    exact .inl rfl
  | load =>
    obtain ⟨rd, wr, hcmd⟩ := legal_memory hl (.inl rfl)
    dsimp only at hcmd
    subst hcmd
    exact loadStep_drivesJointly ((exec_xferBuf_load hb hw hc).symm.trans he)
  | bit p =>
    obtain ⟨hcmd, hof⟩ := legal_bit hl rfl
    obtain ⟨fin, -, -, -, hx⟩ := exec_bit h hcmd rfl
    cases hx.symm.trans he
    refine bitStep_drivesJointly hph ?_ _ fin _
    rintro rfl
    simp [BitPos.ofPhase, hph] at hof
  | store =>
    obtain ⟨rd, wr, hcmd⟩ := legal_memory hl (.inr rfl)
    dsimp only at hcmd
    subst hcmd
    exact storeStep_drivesJointly ((exec_xferBuf_store hb hw hc).symm.trans he)
  | done =>
    obtain ⟨r, hx⟩ := exec_done h rfl
    cases hx.symm.trans he
    exact .of_quiet rfl rfl rfl

theorem acceptWrite_drivesJointly {w : RegWrite} (hb : s.busy = false) (h : acceptWrite w s = .next t) :
    DrivesJointly s t := by
  rcases acceptWrite_next h with ⟨i, -, -, he⟩ | ⟨r, -, -, rfl⟩ | rfl
  · cases (exec_idle hb).symm.trans he
    exact .of_quiet rfl rfl rfl
  · cases r <;> exact .of_quiet rfl rfl rfl
  · exact .of_quiet rfl rfl rfl

/-- The command in progress: it holds at a wait, or moves on. -/
theorem exec_cur_drivesJointly (hph : s.cpha = true) (hi : InvParts s) (hc : s.cur = some run)
    (he : exec run.cmd s = .next t) : DrivesJointly s t := by
  have hb : s.busy = true := by rw [hi.busy, hc, Option.isSome_some]
  cases hw : s.waitReq with
  | true =>
    cases (exec_waiting hb hw).symm.trans he
    exact .of_quiet rfl rfl rfl
  | false => exact exec_drivesJointly hph ⟨hb, hw, hc⟩ (hi.legal run hc) he

/-- With CPHA = 1 no step but a hardware reset drives MOSI, or takes SCLK off the idle level, on its own
(41_bit_transfer R106). -/
theorem step_drivesJointly (hi : InvParts s) (hph : s.cpha = true) (ha : nextAgent s ≠ .reset)
    (h : step s = .next t) : DrivesJointly s t := by
  have hT := step_next h
  generalize nextAgent s = a at hT ha
  cases hT with
  | reset => exact absurd rfl ha
  | rest _ => exact .of_quiet rfl rfl rfl
  | command run _ hc he => exact exec_cur_drivesJointly (s := tick s) hph (inv_env hi _) hc he
  | acknowledge _ => exact .inr ⟨rfl, .inl rfl, fun l => by simp⟩
  | acceptHeld _ w _ _ hb he => exact acceptWrite_drivesJointly (s := { tick s with held := none }) hb he
  | acceptFresh w _ hb _ _ he => exact acceptWrite_drivesJointly (s := hostAdvance (tick s)) hb he
  | hold w _ _ _ _ _ => exact .of_quiet rfl rfl rfl
  | look prog log _ _ => exact .of_quiet rfl rfl rfl
  | store a v _ _ _ => exact .of_quiet rfl rfl rfl

/-- With a command in progress the sequencer's turn is that command's step (10_state R36). -/
theorem step_sequencer {u : State} (h : InProgress s run) (ha : nextAgent s = .sequencer)
    (he : exec run.cmd (tick s) = .next u) : step s = .next u := by
  obtain ⟨hb, -, hc⟩ := h
  rw [step, ha, agentTurn, orAcceptHeld_busy (s := tick s) hb]
  exact sequencerTurn_exec hc he

/-! ### The obligations -/

/-- Settles O29: the action at the sample instant of each phase puts the peripheral's answer into H and into `r`. -/
theorem sampleInstant : Obligations.SampleInstant := by
  refine fun s t run h hc hm he => ⟨fun hph hp => ?_, fun hph hp => ?_⟩
  · cases (exec_lead_sample h hc hp hph).symm.trans he
    simp only [← misoAnswer_unscripted hm]
    exact ⟨rfl, _, rfl, rfl⟩
  · obtain ⟨run', hr, hx⟩ := exec_trail_sample h hc hp hph
    cases hx.symm.trans he
    simp only [← misoAnswer_unscripted hm]
    exact ⟨rfl, run', rfl, hr⟩

/-- Settles O30: the leading-edge action is the joint one, and every other step of the phase leaves MOSI and takes SCLK to
no level but the idle one. -/
theorem leadingEdgeDrivesBothAtOnce : Obligations.LeadingEdgeDrivesBothAtOnce := by
  intro s t hinv hph ha h
  have hi := (inv_iff s).1 hinv
  refine ⟨fun run hr hp hseq => ?_, ?_⟩
  · obtain ⟨hcmd, -⟩ := legal_bit (hi.legal run hr.2.2) hp
    cases (step_sequencer hr hseq (exec_lead_drive (s := tick s) hr hcmd hp hph)).symm.trans h
    exact ⟨rfl, rfl, rfl⟩
  · rcases step_drivesJointly hi hph ha h with hj | ⟨hmosi, hsclk, hlone⟩
    · exact ⟨fun l => by simp [hj], fun _ => hj, fun _ _ => hj⟩
    · refine ⟨hlone, fun hne => absurd hmosi hne, fun hidle hne => ?_⟩
      rcases hsclk with hsame | hcpol
      · exact absurd hsame hne
      · exact absurd (hcpol.trans hidle.symm) hne

/-- Settles O31: the run is `TransferBit` in its closed form and the completion step. -/
theorem xferBitRuns : Obligations.XferBitRuns := by
  refine ⟨fun b => decode_encode (.xferBit b), fun s b h => ?_⟩
  obtain ⟨hb, -, -⟩ := (ready_iff s).1 h
  refine ⟨bitReply b s, _, afterXferBit b s, rfl, exec_idle hb, rfl, runTurns_xferBit_issued b h, rfl, fun hne => ?_⟩
  rw [Bool.eq_not_of_ne hne, edges_bitTrace_lead]

/-- Settles O32: the events of the run are the trace of one bit. -/
theorem bitEdges : Obligations.BitEdges := by
  intro s b h
  obtain ⟨hb, -, -⟩ := (ready_iff s).1 h
  refine ⟨_, afterXferBit b s, bitTrace s.cpol s.cpha b (bitReply b s), bitReply b s, exec_idle hb,
    runTurns_xferBit_issued b h, rfl, fun hidle => ?_, fun hne => ?_, fun hph => by simp [bitTrace, hph],
    fun hph => by simp [bitTrace, hph], bitReply_leading, bitReply_trailing, rfl⟩
  · rw [hidle, edges_bitTrace_idle]
  · have hlead : s.sclk = !s.cpol := Bool.eq_not_of_ne hne
    exact ⟨hlead, by rw [hlead, edges_bitTrace_lead]⟩

/-- Settles O33: the bit returned is the sample of the run's own trace, which sees MOSI at the bit sent. -/
theorem bitLoopback : Obligations.BitLoopback := by
  intro s b h
  obtain ⟨hb, -, -⟩ := (ready_iff s).1 h
  refine ⟨_, afterXferBit b s, bitTrace s.cpol s.cpha b (bitReply b s), exec_idle hb, runTurns_xferBit_issued b h, rfl,
    fun hloop => ?_⟩
  have hreply : bitReply b s = b := by simpa [mirrors_bitTrace] using hloop
  have hrx : (afterXferBit b s).rxdata = bitWord (bitReply b s) := rfl
  rw [hrx, hreply, bitWord]

end Sys2Proof.Machine
end

section
/-! SUPPORT. The family 42_byte_transfer: the shift register bit by bit against its pseudocode, `TransferByte` in closed
form, the trace of a byte, the received byte, and the obligations O34 to O39. -/

namespace Sys2Proof.Machine

variable {s : State}

/-! ### One place of the shift register -/

/-- One place's shift of a working byte, in the bit order (42_byte_transfer R121). -/
def shiftByte (lsbf : Bool) (v : Byte) : Byte := if lsbf then v >>> 1 else v <<< 1

/-- The accumulator with a sampled bit put under the receive mask (42_byte_transfer R121). -/
def collectBit (rxmask : Byte) (r : Level) (rx : Byte) : Byte := if r then rx ||| rxmask else rx

/-- The transmit mask of a bit order (42_byte_transfer R121). -/
def txMask (lsbf : Bool) (n : Nat) : Byte := if lsbf then 0x01#8 else topMask n

/-- The receive mask of a bit order (42_byte_transfer R121). -/
def rxMask (lsbf : Bool) (n : Nat) : Byte := if lsbf then topMask n else 0x01#8

theorem Work.shift_eq (lsbf : Bool) (w : Work) :
    w.shift lsbf = { w with tx := shiftByte lsbf w.tx, rx := shiftByte lsbf w.rx } := by
  cases lsbf <;> rfl

theorem Work.collect_eq (w : Work) : w.collect = { w with rx := collectBit w.rxmask w.r w.rx } := by
  unfold Work.collect collectBit
  split_ifs <;> rfl

theorem Work.startByte_eq (d : Byte) (s : State) (w : Work) :
    w.startByte d s = { w with
      tx := d, rx := 0x00#8, txmask := txMask s.lsbf s.wordSize, rxmask := rxMask s.lsbf s.wordSize, i := 0 } := rfl

/-! ### The loop of `TransferByte` -/

theorem transferBits_one (lsbf : Bool) (txmask rxmask tx rx : Byte) (s : State) :
    transferBits lsbf txmask rxmask 1 tx rx s =
      (collectBit rxmask (bitReply (tx &&& txmask != 0#8) s) rx, afterBit (tx &&& txmask != 0#8) s) := by
  simp [transferBits, transferBit_eq, collectBit]

/-- After every bit but the last both bytes shift. -/
theorem transferBits_add_two (lsbf : Bool) (txmask rxmask : Byte) (m : Nat) (tx rx : Byte) (s : State) :
    transferBits lsbf txmask rxmask (m + 2) tx rx s =
      transferBits lsbf txmask rxmask (m + 1) (shiftByte lsbf tx)
        (shiftByte lsbf (collectBit rxmask (bitReply (tx &&& txmask != 0#8) s) rx))
        (afterBit (tx &&& txmask != 0#8) s) := by
  rw [transferBits, transferBit_eq]
  cases lsbf <;> simp [shiftByte, collectBit]

theorem transferByte_eq_transferBits (d : Byte) (s : State) :
    transferByte d s =
      transferBits s.lsbf (txMask s.lsbf s.wordSize) (rxMask s.lsbf s.wordSize) s.wordSize d 0x00#8 s := by
  unfold transferByte
  split_ifs with h <;> simp [h, txMask, rxMask]

/-! ### The sequencer's steps through a byte -/

/-- What the steps of a command at the bits of `TransferByte` are, while the operand registers stay. -/
def ByteExec (cmd : Instr) (fin : Running → Running) (s : State) : Prop :=
  ∀ (s' : State) (p : BitPos) (w : Work), SameOperands s s' → InProgress s' ⟨cmd, .bit p, w⟩ →
    exec cmd s' = .next (bitStep w.txBit p (nextBit s fin) ⟨cmd, .bit p, w⟩ s')

/-- What follows a bit of a byte depends on CFG alone. -/
theorem nextBit_of_cfg {t : State} (h : t.cfg = s.cfg) (fin : Running → Running) : nextBit t fin = nextBit s fin := by
  funext run
  simp only [nextBit, wordSize_of_cfg h, cpha_of_cfg h, lsbf_of_cfg h]

theorem byteExec_xferByte (d : Byte) (s : State) : ByteExec (.xferByte d) toDone s := by
  intro s' p w hs hi
  obtain ⟨hb, hw, hc⟩ := hi
  rw [exec_xferByte_bit hb hw hc, nextBit_of_cfg hs.1]

theorem bitReply_issue (run : Running) (b : Level) (s : State) : bitReply b (issue run s) = bitReply b s := rfl

theorem afterBit_issue (run : Running) (b : Level) (s : State) :
    afterBit b (issue run s) = issue run (afterBit b s) := rfl

section Loop

variable {cmd : Instr} {fin : Running → Running}

/-- The working state when a bit of `TransferByte` is over, its sample collected. -/
def Work.sampled (w : Work) (s : State) : Work :=
  { w with r := bitReply w.txBit s, rx := collectBit w.rxmask (bitReply w.txBit s) w.rx }

/-- The working state in which the next bit begins. -/
def Work.toNextBit (w : Work) (s : State) : Work :=
  { w.sampled s with
    tx := shiftByte s.lsbf w.tx, rx := shiftByte s.lsbf (w.sampled s).rx, i := w.i + 1 }

theorem nextBit_last {w : Work} (h : w.i + 1 = s.wordSize) (p : Pos) :
    nextBit s fin ⟨cmd, p, { w with r := bitReply w.txBit s }⟩ = fin ⟨cmd, p, w.sampled s⟩ := by
  simp [nextBit, Work.collect_eq, Work.sampled, h]

theorem nextBit_not_last {w : Work} (h : w.i + 1 ≠ s.wordSize) (p : Pos) :
    nextBit s fin ⟨cmd, p, { w with r := bitReply w.txBit s }⟩ =
      ⟨cmd, .bit (BitPos.first s.cpha), w.toNextBit s⟩ := by
  simp [nextBit, Work.collect_eq, Work.shift_eq, Work.sampled, Work.toNextBit, h]

/-- One bit of a byte, from its first action to what follows it. -/
theorem runTurns_bit_of_byte (hw : s.waitReq = false) (hh : s.held = none) (hx : ByteExec cmd fin s) (w : Work) :
    runTurns (promptTurns s.actionsPerBit) (issue ⟨cmd, .bit (BitPos.first s.cpha), w⟩ s) =
      .next (issue (nextBit s fin ⟨cmd, .bit .trail, { w with r := bitReply w.txBit s }⟩)
        (afterBit w.txBit s)) := by
  have hbit : BitExec cmd w w.txBit (nextBit s fin) (issue ⟨cmd, .bit (BitPos.first s.cpha), w⟩ s) :=
    fun s' p r ho hi => hx s' p { w with r := r } ho hi
  have hrun := runTurns_bit (s := issue ⟨cmd, .bit (BitPos.first s.cpha), w⟩ s) ⟨rfl, hw, rfl⟩ hh hbit
  rw [transferBit_eq, bitReply_issue, afterBit_issue] at hrun
  exact hrun

/-- The last `m + 1` bits of a byte action by action are the loop of the pseudocode in one go. -/
theorem runTurns_bits (m : Nat) {s : State} {w : Work} (hw : s.waitReq = false) (hh : s.held = none)
    (hx : ByteExec cmd fin s) (hi : w.i + (m + 1) = s.wordSize) :
    ∃ w' : Work, w'.rx = (transferBits s.lsbf w.txmask w.rxmask (m + 1) w.tx w.rx s).1 ∧ w'.k = w.k ∧
      runTurns (promptTurns (s.actionsPerBit * (m + 1))) (issue ⟨cmd, .bit (BitPos.first s.cpha), w⟩ s) =
        .next (issue (fin ⟨cmd, .bit .trail, w'⟩)
          (transferBits s.lsbf w.txmask w.rxmask (m + 1) w.tx w.rx s).2) := by
  induction m generalizing s w with
  | zero =>
    have hbit := runTurns_bit_of_byte hw hh hx w
    rw [nextBit_last hi] at hbit
    rw [Nat.zero_add, Nat.mul_one, transferBits_one]
    exact ⟨w.sampled s, rfl, rfl, hbit⟩
  | succ m ih =>
    have hbit := runTurns_bit_of_byte hw hh hx w
    rw [nextBit_not_last (by omega)] at hbit
    have hx' : ByteExec cmd fin (afterBit w.txBit s) := hx
    have hi' : (w.toNextBit s).i + (m + 1) = (afterBit w.txBit s).wordSize :=
      (Nat.add_right_comm w.i 1 (m + 1)).trans hi
    obtain ⟨w', hrx, hk, hrun⟩ := ih (s := afterBit w.txBit s) hw hh hx' hi'
    rw [Nat.mul_succ, Nat.add_comm _ s.actionsPerBit, runTurns_promptTurns_add hbit, transferBits_add_two]
    exact ⟨w', hrx, hk, hrun⟩

/-- `TransferByte` action by action is `TransferByte` in one go. -/
theorem runTurns_byte (d : Byte) (hw : s.waitReq = false) (hh : s.held = none) (hx : ByteExec cmd fin s) (p : Pos)
    (w : Work) :
    ∃ w' : Work, w'.rx = (transferByte d s).1 ∧ w'.k = w.k ∧
      runTurns (promptTurns (s.actionsPerBit * s.wordSize)) (issue (startByte d s ⟨cmd, p, w⟩) s) =
        .next (issue (fin ⟨cmd, .bit .trail, w'⟩) (transferByte d s).2) := by
  obtain ⟨hpos, -⟩ := wordSize_pos s
  obtain ⟨m, hm⟩ : ∃ m, s.wordSize = m + 1 := ⟨s.wordSize - 1, by omega⟩
  have hi : (w.startByte d s).i + (m + 1) = s.wordSize := by rw [hm, Work.startByte_eq, Nat.zero_add]
  rw [transferByte_eq_transferBits]
  have hrun := runTurns_bits m hw hh hx hi
  rw [← hm] at hrun
  exact hrun

end Loop

/-! ### Bits in wire order -/

/-- Bit `j` of a byte in wire order (42_byte_transfer R122, R124). -/
def wireBit (lsbf : Bool) (n : Nat) (v : Byte) (j : Nat) : Level :=
  v.getLsbD (if lsbf then j else n - 1 - j)

theorem wireBits_eq_map (lsbf : Bool) (n : Nat) (d : Byte) :
    wireBits lsbf n d = (List.range n).map (wireBit lsbf n d) := by
  cases lsbf <;> rfl

section Wire

variable {lsbf : Bool} {n j : Nat}

/-- The transmit mask selects the bit first in wire order. -/
theorem and_txMask (h1 : 1 ≤ n) (h8 : n ≤ 8) (v : Byte) : (v &&& txMask lsbf n != 0#8) = wireBit lsbf n v 0 := by
  obtain ⟨k, hk, hmask, hwire⟩ :
      ∃ k < 8, txMask lsbf n = BitVec.twoPow 8 k ∧ wireBit lsbf n v 0 = v.getLsbD k := by
    cases lsbf with
    | true => exact ⟨0, by decide, rfl, rfl⟩
    | false => exact ⟨n - 1, by omega, rfl, rfl⟩
  rw [hmask, hwire, BitVec.and_twoPow]
  cases v.getLsbD k with
  | true =>
    have hne : BitVec.twoPow 8 k ≠ 0#8 := fun h => by simpa [hk] using congrArg (BitVec.getLsbD · k) h
    simpa using hne
  | false => rfl

/-- The receive mask is the bit last in wire order. -/
theorem getLsbD_rxMask (h1 : 1 ≤ n) (h8 : n ≤ 8) (k : Nat) :
    (rxMask lsbf n).getLsbD k = decide (k = if lsbf then n - 1 else 0) := by
  have hmask : rxMask lsbf n = BitVec.twoPow 8 (if lsbf then n - 1 else 0) := by cases lsbf <;> rfl
  rw [hmask, BitVec.getLsbD_twoPow]
  grind

/-- A collected bit goes to the last place in wire order. -/
theorem wireBit_collectBit (h8 : n ≤ 8) (hj : j < n) (r : Level) (v : Byte) :
    wireBit lsbf n (collectBit (rxMask lsbf n) r v) j = (wireBit lsbf n v j || (decide (j + 1 = n) && r)) := by
  cases r with
  | false => simp [collectBit]
  | true =>
    simp only [collectBit, wireBit, if_true, BitVec.getLsbD_or, getLsbD_rxMask (by omega : 1 ≤ n) h8,
      Bool.and_true]
    congr 2
    cases lsbf <;> grind

/-- A shift moves every bit one place forward in wire order. -/
theorem wireBit_shiftByte (h8 : n ≤ 8) (hj : j + 1 < n) (v : Byte) :
    wireBit lsbf n (shiftByte lsbf v) j = wireBit lsbf n v (j + 1) := by
  cases lsbf with
  | true => simp [wireBit, shiftByte, Nat.add_comm]
  | false =>
    have hlt : n - 1 - j < 8 := by omega
    have h0 : ¬ n - 1 - j < 1 := by omega
    have hj' : n - 1 - (j + 1) = n - 1 - j - 1 := by omega
    simp only [wireBit, shiftByte, Bool.false_eq_true, if_false, BitVec.getLsbD_shiftLeft, hlt, h0, hj', decide_true,
      decide_false, Bool.not_false, Bool.true_and]

/-- The first bits in wire order are the first one and those of the shifted byte. -/
theorem map_wireBit_range_succ {m : Nat} (h8 : n ≤ 8) (hm : m + 1 ≤ n) (v : Byte) :
    (List.range (m + 1)).map (wireBit lsbf n v) =
      wireBit lsbf n v 0 :: (List.range m).map (wireBit lsbf n (shiftByte lsbf v)) := by
  rw [List.range_succ_eq_map, List.map_cons, List.map_map]
  refine congrArg _ (List.map_congr_left fun j hj => (wireBit_shiftByte h8 ?_ v).symm)
  have := List.mem_range.1 hj
  omega

/-- A shift puts a 0 last in wire order. -/
theorem wireBit_shiftByte_last (h1 : 1 ≤ n) (v : Byte) (hhigh : ∀ k, n ≤ k → v.getLsbD k = false) :
    wireBit lsbf n (shiftByte lsbf v) (n - 1) = false := by
  cases lsbf with
  | true => simpa [wireBit, shiftByte, BitVec.getLsbD_ushiftRight] using hhigh _ (by omega)
  | false => simp [wireBit, shiftByte]

/-- A shift that moves a 0 out of the word keeps the bits above the word clear. -/
theorem getLsbD_shiftByte_high (h1 : 1 ≤ n) (v : Byte) (hhigh : ∀ k, n ≤ k → v.getLsbD k = false)
    (hfirst : wireBit lsbf n v 0 = false) {k : Nat} (hk : n ≤ k) : (shiftByte lsbf v).getLsbD k = false := by
  cases lsbf with
  | true => simpa [shiftByte, BitVec.getLsbD_ushiftRight] using hhigh _ (by omega)
  | false =>
    have hk1 : v.getLsbD (k - 1) = false := by
      by_cases hkn : k = n
      · subst hkn
        exact hfirst
      · exact hhigh _ (by omega)
    simp [shiftByte, BitVec.getLsbD_shiftLeft, hk1]

end Wire

/-! ### A list of bits in one go -/

/-- The peripheral's answers to the bits of a list, sent one after the other. -/
def bitReplies : List Level → State → List Level
  | [], _ => []
  | b :: bs, s => bitReply b s :: bitReplies bs (afterBit b s)

/-- What the bits of a list, sent one after the other, leave of the state the first begins in. -/
def afterBits : List Level → State → State
  | [], s => s
  | b :: bs, s => afterBits bs (afterBit b s)

theorem length_bitReplies (bs : List Level) (s : State) : (bitReplies bs s).length = bs.length := by
  induction bs generalizing s with
  | nil => rfl
  | cons b bs ih => simp [bitReplies, ih]

@[simp] theorem byteTrace_nil (cpol cpha : Bool) : byteTrace cpol cpha [] [] = [] := rfl

@[simp] theorem byteTrace_cons (cpol cpha b r : Bool) (bs rs : List Level) :
    byteTrace cpol cpha (b :: bs) (r :: rs) = bitTrace cpol cpha b r ++ byteTrace cpol cpha bs rs := rfl

/-- The bits of a list in closed form: SCLK ends idle, MOSI at the last of them. -/
theorem afterBits_eq {bs : List Level} (h : bs ≠ []) (s : State) :
    afterBits bs s = { s with
      sclk := s.cpol
      mosi := bs.getLast h
      hist := s.hist ++ byteTrace s.cpol s.cpha bs (bitReplies bs s)
      env := { s.env with misoIn := s.env.misoIn.drop bs.length } } := by
  induction bs generalizing s with
  | nil => exact absurd rfl h
  | cons b bs ih =>
    cases bs with
    | nil => simp [afterBits, bitReplies, afterBit]
    | cons c bs =>
      have hhist : (afterBit b s).hist ++ byteTrace s.cpol s.cpha (c :: bs) (bitReplies (c :: bs) (afterBit b s)) =
          s.hist ++ byteTrace s.cpol s.cpha (b :: c :: bs) (bitReplies (b :: c :: bs) s) := List.append_assoc ..
      have henv : s.env.misoIn.tail.drop (c :: bs).length = s.env.misoIn.drop (b :: c :: bs).length := by simp
      rw [afterBits, ih (List.cons_ne_nil c bs), List.getLast_cons (List.cons_ne_nil c bs), ← henv, ← hhist]
      rfl

/-- The accumulator shifted, with the next sampled bit collected. -/
def pushBit (lsbf : Bool) (n : Nat) (rx : Byte) (r : Level) : Byte :=
  collectBit (rxMask lsbf n) r (shiftByte lsbf rx)

/-- The loop of `TransferByte` in closed form: it sends the next bits in wire order and pushes the answers. -/
theorem transferBits_eq (lsbf : Bool) {n m : Nat} (h8 : n ≤ 8) (hm : m + 1 ≤ n) (tx rx : Byte) (s : State) :
    transferBits lsbf (txMask lsbf n) (rxMask lsbf n) (m + 1) tx (shiftByte lsbf rx) s =
      ((bitReplies ((List.range (m + 1)).map (wireBit lsbf n tx)) s).foldl (pushBit lsbf n) rx,
        afterBits ((List.range (m + 1)).map (wireBit lsbf n tx)) s) := by
  induction m generalizing tx rx s with
  | zero =>
    rw [transferBits_one, and_txMask hm h8]
    rfl
  | succ m ih =>
    rw [transferBits_add_two, and_txMask (by omega) h8, ih (by omega), map_wireBit_range_succ (m := m + 1) h8 hm]
    rfl

/-! ### The received byte -/

/-- The accumulator holds the bits of `got` as the last ones in wire order, and no other bit. -/
def Holds (lsbf : Bool) (n : Nat) (got : List Level) (rx : Byte) : Prop :=
  (∀ j, j < n → wireBit lsbf n rx j = (decide (n ≤ j + got.length) && got.getD (j + got.length - n) false)) ∧
    ∀ k, n ≤ k → rx.getLsbD k = false

theorem holds_nil (lsbf : Bool) (n : Nat) : Holds lsbf n [] 0x00#8 := by
  refine ⟨fun j hj => ?_, fun k _ => BitVec.getLsbD_zero⟩
  simp [wireBit]

/-- Pushing a bit moves those held one place forward in wire order. -/
theorem Holds.push {lsbf : Bool} {n : Nat} {got : List Level} {rx : Byte} (h : Holds lsbf n got rx) (h8 : n ≤ 8)
    (hl : got.length < n) (r : Level) : Holds lsbf n (got ++ [r]) (pushBit lsbf n rx r) := by
  obtain ⟨hwire, hhigh⟩ := h
  have hlen : (got ++ [r]).length = got.length + 1 := by simp
  refine ⟨fun j hj => ?_, fun k hk => ?_⟩
  · rw [pushBit, wireBit_collectBit h8 hj, hlen]
    by_cases hlast : j + 1 = n
    · have hj' : j = n - 1 := by omega
      have hlook : j + (got.length + 1) - n = got.length := by omega
      have hin : n ≤ j + (got.length + 1) := by omega
      have hzero : wireBit lsbf n (shiftByte lsbf rx) j = false := hj' ▸ wireBit_shiftByte_last (by omega) rx hhigh
      simp [hzero, hlast, hlook, hin]
    · have hlook : j + 1 + got.length = j + (got.length + 1) := by omega
      rw [wireBit_shiftByte h8 (by omega), hwire (j + 1) (by omega), hlook]
      by_cases hin : n ≤ j + (got.length + 1)
      · have hold : j + (got.length + 1) - n < got.length := by omega
        simp [hlast, List.getElem?_append_left hold]
      · simp [hlast, hin]
  · have hfirst : wireBit lsbf n rx 0 = false := by
      rw [hwire 0 (by omega)]
      simp [hl]
    have hmask : k ≠ if lsbf then n - 1 else 0 := by split_ifs <;> omega
    have hshift := getLsbD_shiftByte_high (by omega) rx hhigh hfirst hk
    cases r with
    | false => exact hshift
    | true => simp [pushBit, collectBit, hshift, getLsbD_rxMask (by omega : 1 ≤ n) h8, hmask]

theorem Holds.foldl {lsbf : Bool} {n : Nat} (h8 : n ≤ 8) (rs : List Level) {got : List Level} {rx : Byte}
    (h : Holds lsbf n got rx) (hl : got.length + rs.length ≤ n) :
    Holds lsbf n (got ++ rs) (rs.foldl (pushBit lsbf n) rx) := by
  induction rs generalizing got rx with
  | nil => simpa using h
  | cons r rs ih =>
    rw [List.length_cons] at hl
    have hr := ih (h.push h8 (by omega) r) (by rw [List.length_append, List.length_singleton]; omega)
    rwa [List.append_assoc] at hr

/-- The byte `TransferByte` makes of the sampled bits. -/
def receivedByte (lsbf : Bool) (n : Nat) (got : List Level) : Byte := got.foldl (pushBit lsbf n) 0x00#8

theorem receivedByte_received (lsbf : Bool) {n : Nat} (h8 : n ≤ 8) {got : List Level} (hl : got.length = n) :
    Received lsbf n got (receivedByte lsbf n got) := by
  obtain ⟨hwire, hhigh⟩ := (holds_nil lsbf n).foldl h8 got (by simp [hl])
  refine ⟨fun j hj => ?_, hhigh⟩
  have := hwire j (by omega)
  simpa [receivedByte, wireBit, hl, hl ▸ hj] using this

/-- The bits of a byte in wire order end with the last one. -/
theorem wireBits_getLast (lsbf : Bool) {n : Nat} (d : Byte) (h : wireBits lsbf n d ≠ []) :
    (wireBits lsbf n d).getLast h = wireBit lsbf n d (n - 1) := by
  simp [wireBits_eq_map]

theorem length_wireBits (lsbf : Bool) (n : Nat) (d : Byte) : (wireBits lsbf n d).length = n := by
  simp [wireBits]

/-- The bits sampled by `TransferByte(d)`, in the order of its calls. -/
def byteReplies (d : Byte) (s : State) : List Level := bitReplies (wireBits s.lsbf s.wordSize d) s

theorem length_byteReplies (d : Byte) (s : State) : (byteReplies d s).length = s.wordSize := by
  rw [byteReplies, length_bitReplies, length_wireBits]

/-- What `TransferByte(d)` leaves of the state it begins in (42_byte_transfer R121). -/
def afterByte (d : Byte) (s : State) : State :=
  { s with
    sclk := s.cpol
    mosi := wireBit s.lsbf s.wordSize d (s.wordSize - 1)
    hist := s.hist ++ byteTrace s.cpol s.cpha (wireBits s.lsbf s.wordSize d) (byteReplies d s)
    env := { s.env with misoIn := s.env.misoIn.drop s.wordSize } }

/-- `TransferByte` in closed form. -/
theorem transferByte_eq (d : Byte) (s : State) :
    transferByte d s = (receivedByte s.lsbf s.wordSize (byteReplies d s), afterByte d s) := by
  obtain ⟨h1, h8⟩ := wordSize_pos s
  obtain ⟨m, hm⟩ : ∃ m, s.wordSize = m + 1 := ⟨s.wordSize - 1, by omega⟩
  have hclear : shiftByte s.lsbf 0x00#8 = 0x00#8 := by cases s.lsbf <;> rfl
  have hloop := transferBits_eq s.lsbf h8 hm.ge d 0x00#8 s
  rw [hclear, ← hm, ← wireBits_eq_map, ← transferByte_eq_transferBits] at hloop
  have hne : wireBits s.lsbf s.wordSize d ≠ [] := List.ne_nil_of_length_pos (by rw [length_wireBits]; exact h1)
  rw [hloop, afterBits_eq hne, wireBits_getLast, length_wireBits]
  rfl

/-- What XFER_BYTE leaves of the state it is issued in (42_byte_transfer R123). -/
def afterXferByte (d : Byte) (s : State) : State :=
  complete (some (byteWord (receivedByte s.lsbf s.wordSize (byteReplies d s)))) (afterByte d s)

/-- XFER_BYTE, from the state it is issued in to the end of its completion step. -/
theorem runTurns_xferByte (d : Byte) (h : s.ready = true) :
    runTurns (promptTurns (s.actionsPerBit * s.wordSize + 1)) (issue (startOf (.xferByte d) s) s) =
      .next (afterXferByte d s) := by
  obtain ⟨-, hw, hh⟩ := (ready_iff s).1 h
  obtain ⟨w, hrx, -, hrun⟩ := runTurns_byte d hw hh (byteExec_xferByte d s) .done Work.unassigned
  rw [transferByte_eq] at hrx hrun
  dsimp only at hrx
  have hdone : exec (.xferByte d) (issue (toDone ⟨.xferByte d, .bit .trail, w⟩) (afterByte d s)) =
      .next (afterXferByte d s) := by
    rw [afterXferByte, ← hrx]
    exact exec_xferByte_done (w := w) rfl hw rfl
  exact (runTurns_promptTurns_add hrun).trans (runTurns_pair_action hh rfl hdone hh hw)

/-- XFER_BYTE is issued in one step, and one pair of turns for each action and for the completion step ends it. -/
theorem xferByte_runs (d : Byte) (h : s.ready = true) :
    ∃ t, exec (.xferByte d) s = .next t ∧ t.busy = true ∧
      runTurns (promptTurns (s.actionsPerBit * s.wordSize + 1)) t = .next (afterXferByte d s) := by
  obtain ⟨hb, -, -⟩ := (ready_iff s).1 h
  exact ⟨_, exec_idle hb, rfl, runTurns_xferByte d h⟩

/-! ### The result in RXDATA -/

theorem getLsbD_byteWord (v : Byte) (m : Nat) : (byteWord v).getLsbD m = v.getLsbD m := by
  by_cases h : m < 32
  · simp [byteWord, h]
  · rw [BitVec.getLsbD_of_ge _ _ (by omega), BitVec.getLsbD_of_ge v _ (by omega)]

/-- The sampled bits stand in RXDATA in wire order. -/
theorem afterXferByte_rxdata (d : Byte) (s : State) (j : Nat) (h : j < (byteReplies d s).length) :
    (afterXferByte d s).rxdata.getLsbD (if s.lsbf then j else s.wordSize - 1 - j) = (byteReplies d s)[j] := by
  obtain ⟨hgot, -⟩ := receivedByte_received s.lsbf (wordSize_pos s).2 (length_byteReplies d s)
  exact (getLsbD_byteWord _ _).trans (hgot j h)

/-- RXDATA has no bit at or above the word size. -/
theorem afterXferByte_rxdata_high (d : Byte) (s : State) (m : Nat) (h : s.wordSize ≤ m) :
    (afterXferByte d s).rxdata.getLsbD m = false := by
  obtain ⟨-, hhigh⟩ := receivedByte_received s.lsbf (wordSize_pos s).2 (length_byteReplies d s)
  exact (getLsbD_byteWord _ _).trans (hhigh m h)

/-! ### The trace of a byte -/

section Trace

variable (cpol cpha : Bool)

/-- What every bit's trace has `c` of, a byte's trace has `c` of for each bit. -/
theorem countP_byteTrace {p : Event → Bool} {c : Nat} (hbit : ∀ b r, (bitTrace cpol cpha b r).countP p = c)
    {bs rs : List Level} (h : rs.length = bs.length) : (byteTrace cpol cpha bs rs).countP p = c * bs.length := by
  induction bs generalizing rs with
  | nil => rfl
  | cons b bs ih =>
    obtain ⟨r, rs, rfl⟩ := List.exists_cons_of_length_eq_add_one h
    have hrest := ih (rs := rs) (by simpa using h)
    rw [byteTrace_cons, List.countP_append, hbit, hrest, List.length_cons, Nat.mul_succ, Nat.add_comm]

theorem bitTrace_waits (b r : Level) : (bitTrace cpol cpha b r).countP (· == .wait) = 2 := by
  cases cpha <;> rfl

theorem bitTrace_samples (b r : Level) : (bitTrace cpol cpha b r).countP Event.isSample = 1 := by
  cases cpha <;> rfl

theorem bitTrace_actions (b r : Level) :
    (bitTrace cpol cpha b r).countP (fun _ => true) = if cpha then 4 else 5 := by
  cases cpha <;> rfl

/-- A bit that starts at the idle level ends there, so what follows starts at it (41_bit_transfer R110). -/
theorem edges_bitTrace_append (b r : Level) (tr : List Event) :
    edges cpol (bitTrace cpol cpha b r ++ tr) = (!cpol) :: cpol :: edges cpol tr := by
  cases cpha <;> simp [bitTrace, edges, pinsAfter]

theorem length_edges_byteTrace {bs rs : List Level} (h : rs.length = bs.length) :
    (edges cpol (byteTrace cpol cpha bs rs)).length = 2 * bs.length := by
  induction bs generalizing rs with
  | nil => rfl
  | cons b bs ih =>
    obtain ⟨r, rs, rfl⟩ := List.exists_cons_of_length_eq_add_one h
    rw [byteTrace_cons, edges_bitTrace_append, List.length_cons, List.length_cons, ih (by simpa using h),
      List.length_cons, Nat.mul_succ]

/-- The one sample of a bit sees MOSI at the bit sent, and so does what follows until it is driven again. -/
theorem mirrors_bitTrace_append (m b r : Level) (tr : List Event) :
    mirrors m (bitTrace cpol cpha b r ++ tr) = (r == b && mirrors b tr) := by
  cases cpha <;> simp [bitTrace, mirrors, pinsAfter]

/-- Under loopback the bits sampled are the bits sent (42_byte_transfer R128). -/
theorem mirrors_byteTrace {m : Level} {bs rs : List Level} (h : rs.length = bs.length)
    (hloop : mirrors m (byteTrace cpol cpha bs rs) = true) : rs = bs := by
  induction bs generalizing m rs with
  | nil => exact List.length_eq_zero_iff.1 h
  | cons b bs ih =>
    obtain ⟨r, rs, rfl⟩ := List.exists_cons_of_length_eq_add_one h
    rw [byteTrace_cons, mirrors_bitTrace_append, Bool.and_eq_true, beq_iff_eq] at hloop
    obtain ⟨hbit, hrest⟩ := hloop
    rw [hbit, ih (by simpa using h) hrest]

end Trace

/-! ### Bits above the word size -/

theorem wireBit_congr (lsbf : Bool) {n : Nat} {d d' : Byte} (h : ∀ k, k < n → d.getLsbD k = d'.getLsbD k) {j : Nat}
    (hj : j < n) : wireBit lsbf n d j = wireBit lsbf n d' j :=
  h _ (by split_ifs <;> omega)

/-- Every bit below the word size has a place in wire order. -/
theorem exists_wire_place (lsbf : Bool) {n m : Nat} (h : m < n) : ∃ j < n, (if lsbf then j else n - 1 - j) = m := by
  cases lsbf with
  | true => exact ⟨m, h, rfl⟩
  | false => exact ⟨n - 1 - m, by omega, by simp; omega⟩

/-- XFER_BYTE depends on the bits of its operand below the word size alone (42_byte_transfer R127). -/
theorem afterXferByte_congr {d d' : Byte} (h : ∀ k, k < s.wordSize → d.getLsbD k = d'.getLsbD k) :
    afterXferByte d s = afterXferByte d' s := by
  have hbit : ∀ j < s.wordSize, wireBit s.lsbf s.wordSize d j = wireBit s.lsbf s.wordSize d' j :=
    fun j hj => wireBit_congr s.lsbf h hj
  have hlast := hbit (s.wordSize - 1) (by have := wordSize_pos s; omega)
  have hwire : wireBits s.lsbf s.wordSize d = wireBits s.lsbf s.wordSize d' := by
    rw [wireBits_eq_map, wireBits_eq_map]
    exact List.map_congr_left fun j hj => hbit j (List.mem_range.1 hj)
  simp only [afterXferByte, afterByte, byteReplies, hwire, hlast]

/-! ### The word size set to 8 -/

theorem withWS8_ws (s : State) : s.withWS8.ws = 8#4 := by
  have hclear : slice 4 4 0xFFFFFF0F#32 = 0#4 := by decide
  have hset : slice 4 4 0x00000080#32 = 8#4 := by decide
  rw [State.ws, State.withWS8, slice_or, slice_and, hclear, hset, BitVec.and_zero, BitVec.zero_or]

@[simp] theorem withWS8_cpol (s : State) : s.withWS8.cpol = s.cpol := by
  simp [State.cpol, State.withWS8]

@[simp] theorem withWS8_cpha (s : State) : s.withWS8.cpha = s.cpha := by
  simp [State.cpha, State.withWS8]

@[simp] theorem withWS8_lsbf (s : State) : s.withWS8.lsbf = s.lsbf := by
  simp [State.lsbf, State.withWS8]

@[simp] theorem withWS8_wordSize (s : State) : s.withWS8.wordSize = 8 := by
  rw [State.wordSize, withWS8_ws]
  rfl

theorem withWS8_actionsPerBit (s : State) : s.withWS8.actionsPerBit = s.actionsPerBit := by
  rw [State.actionsPerBit, withWS8_cpha, State.actionsPerBit]

theorem bitReply_withWS8 (b : Level) (s : State) : bitReply b s.withWS8 = bitReply b s := by
  simp only [bitReply, withWS8_cpol, withWS8_cpha]
  rfl

theorem afterBit_withWS8 (b : Level) (s : State) : afterBit b s.withWS8 = (afterBit b s).withWS8 := by
  simp only [afterBit, withWS8_cpol, withWS8_cpha, bitReply_withWS8]
  rfl

theorem bitReplies_withWS8 (bs : List Level) (s : State) : bitReplies bs s.withWS8 = bitReplies bs s := by
  induction bs generalizing s with
  | nil => rfl
  | cons b bs ih => rw [bitReplies, bitReply_withWS8, afterBit_withWS8, ih, bitReplies]

/-- Setting WS to 8 where it acts as 8 already makes no difference to XFER_BYTE. -/
theorem afterXferByte_withWS8 (h : s.wordSize = 8) (d : Byte) :
    afterXferByte d s.withWS8 = (afterXferByte d s).withWS8 := by
  simp only [afterXferByte, afterByte, byteReplies, withWS8_cpol, withWS8_cpha, withWS8_lsbf, withWS8_wordSize,
    bitReplies_withWS8, h]
  rfl

/-- The values of WS that act as 8 (10_state R24). -/
theorem wordSize_eq_eight (h : s.ws.toNat = 0 ∨ 8 ≤ s.ws.toNat) : s.wordSize = 8 :=
  if_neg (by omega)

/-! ### The obligations -/

/-- Settles O34: `TransferByte` in closed form, where the wire order is MSB-first. -/
theorem byteMsbFirst : Obligations.ByteMsbFirst := by
  intro s d h hl
  obtain ⟨t, hissue, hbusy, hrun⟩ := xferByte_runs d h
  refine ⟨byteReplies d s, t, afterXferByte d s, length_byteReplies d s, hissue, hbusy, hrun, ?_, ?_,
    afterXferByte_rxdata_high d s, ?_⟩
  · simp [afterXferByte, afterByte, wireBits, hl]
  · have hrx := afterXferByte_rxdata d s
    simpa [hl] using hrx
  · simp [afterXferByte, afterByte, wireBit, complete, hl]

/-- Settles O35: `TransferByte` in closed form, where the wire order is LSB-first. -/
theorem byteLsbFirst : Obligations.ByteLsbFirst := by
  intro s d h hl
  obtain ⟨t, hissue, hbusy, hrun⟩ := xferByte_runs d h
  refine ⟨byteReplies d s, t, afterXferByte d s, length_byteReplies d s, hissue, hbusy, hrun, ?_, ?_,
    afterXferByte_rxdata_high d s, ?_⟩
  · simp [afterXferByte, afterByte, wireBits, hl]
  · have hrx := afterXferByte_rxdata d s
    simpa [hl] using hrx
  · simp [afterXferByte, afterByte, wireBit, complete, hl]

/-- Settles O36: the trace of the byte is the traces of its n bits. -/
theorem byteCounts : Obligations.ByteCounts := by
  intro s d h
  obtain ⟨t, hissue, -, hrun⟩ := xferByte_runs d h
  have hn := length_wireBits s.lsbf s.wordSize d
  have hlen : (byteReplies d s).length = (wireBits s.lsbf s.wordSize d).length := by rw [hn, length_byteReplies]
  refine ⟨t, afterXferByte d s, byteTrace s.cpol s.cpha (wireBits s.lsbf s.wordSize d) (byteReplies d s), hissue, hrun,
    rfl, ?_, ?_, fun hidle => ?_, ?_⟩
  · exact (countP_byteTrace _ _ (bitTrace_waits _ _) hlen).trans (by rw [hn])
  · rw [countP_byteTrace _ _ (bitTrace_samples _ _) hlen, hn, Nat.one_mul]
  · rw [hidle, length_edges_byteTrace _ _ hlen, hn]
  · rw [← List.countP_true, countP_byteTrace _ _ (bitTrace_actions _ _) hlen, hn]

/-- Settles O37: the effective word size is 8 with either CFG, and nothing else of the transfer looks at WS. -/
theorem wordSizeClamp : Obligations.WordSizeClamp := by
  intro s d h hws
  have hn := wordSize_eq_eight hws
  obtain ⟨t, hissue, -, hrun⟩ := xferByte_runs d h
  obtain ⟨t', hissue', -, hrun'⟩ := xferByte_runs (s := s.withWS8) d h
  rw [hn] at hrun
  rw [withWS8_actionsPerBit, withWS8_wordSize, afterXferByte_withWS8 hn] at hrun'
  exact ⟨hn, by rw [withWS8_ws]; rfl, t, afterXferByte d s, t', hissue, hrun, rfl, hissue', hrun'⟩

/-- Settles O38: the two bytes send the same bits, so the two runs end in one state. -/
theorem highBitsNeverReachAPin : Obligations.HighBitsNeverReachAPin := by
  intro s d d' h hlow
  obtain ⟨t, hissue, -, hrun⟩ := xferByte_runs d h
  obtain ⟨t', hissue', -, hrun'⟩ := xferByte_runs d' h
  rw [← afterXferByte_congr hlow] at hrun'
  exact ⟨t, t', afterXferByte d s, hissue, hissue', hrun, hrun', rfl, afterXferByte_rxdata_high d s⟩

/-- Settles O39: under loopback the bits sampled are the bits sent, and they stand in RXDATA where they stood in the
operand. -/
theorem byteLoopback : Obligations.ByteLoopback := by
  intro s d h
  obtain ⟨t, hissue, -, hrun⟩ := xferByte_runs d h
  refine ⟨t, afterXferByte d s, byteTrace s.cpol s.cpha (wireBits s.lsbf s.wordSize d) (byteReplies d s), hissue, hrun,
    rfl, fun hloop m => ?_⟩
  have hgot : byteReplies d s = wireBits s.lsbf s.wordSize d :=
    mirrors_byteTrace _ _ (by rw [length_byteReplies, length_wireBits]) hloop
  by_cases hm : m < s.wordSize
  · obtain ⟨j, hj, rfl⟩ := exists_wire_place s.lsbf hm
    rw [afterXferByte_rxdata d s j (by rw [length_byteReplies]; exact hj)]
    simp [hgot, wireBits_eq_map, wireBit, hm]
  · rw [afterXferByte_rxdata_high d s m (by omega)]
    simp [hm]

end Sys2Proof.Machine
end

section
/-! SUPPORT. The family 43_buffer_transfer: one element of a buffer transfer action by action, the transfer as the list
of its elements, the trace of that list, and the obligations O42 to O45 and O47. -/

namespace Sys2Proof.Machine

variable {s t : State} {rd wr : Bool} {k : Nat}

/-! ### What depends on the operand registers alone -/

theorem startByte_of_cfg (h : t.cfg = s.cfg) (d : Byte) : startByte d t = startByte d s := by
  funext run
  simp only [startByte, Work.startByte, cpha_of_cfg h, lsbf_of_cfg h, wordSize_of_cfg h]

theorem startElement_of_cfg (h : t.cfg = s.cfg) (wr : Bool) : startElement wr t = startElement wr s := by
  funext run
  simp only [startElement, startByte_of_cfg h]

theorem nextElement_of_operands (h : SameOperands s t) (wr : Bool) : nextElement wr t = nextElement wr s := by
  obtain ⟨hcfg, -, -, hcount⟩ := h
  funext run
  simp only [nextElement, startElement_of_cfg hcfg, hcount]

theorem endByte_of_operands (h : SameOperands s t) (rd wr : Bool) : endByte rd wr t = endByte rd wr s := by
  funext run
  simp only [endByte, nextElement_of_operands h]

theorem elementTrace_of_operands (h : SameOperands s t) (rd wr : Bool) (k : Nat) :
    elementTrace t rd wr k = elementTrace s rd wr k := by
  obtain ⟨hcfg, hraddr, hwaddr, -⟩ := h
  funext e
  simp only [elementTrace, State.loadAddr, State.storeAddr, hraddr, hwaddr, cpol_of_cfg hcfg, cpha_of_cfg hcfg,
    lsbf_of_cfg hcfg, wordSize_of_cfg hcfg]

theorem byteExec_xferBuf (rd wr : Bool) (h : SameOperands s t) :
    ByteExec (.xferBuf rd wr) (endByte rd wr s) t := by
  intro s' p w hs hi
  obtain ⟨hb, hw, hc⟩ := hi
  rw [exec_xferBuf_bit hb hw hc, nextBit_of_cfg hs.1, endByte_of_operands hs, endByte_of_operands h]

/-! ### The memory actions of an element -/

theorem loadStep_admitted {run : Running} (h : s.admitted (s.loadAddr run.work.k) = true) :
    loadStep run s = .next (goto
      (startByte (s.byteAt (s.loadAddr run.work.k)) s
        { run with work := { run.work with t := s.byteAt (s.loadAddr run.work.k) } })
      { s with hist := s.hist ++ [.memRd (s.loadAddr run.work.k) (s.byteAt (s.loadAddr run.work.k))] }) :=
  ((loadStep_cases run s).resolve_right (by simp [h])).2

theorem storeStep_admitted {run : Running} (h : s.admitted (s.storeAddr run.work.k) = true) :
    storeStep wr run s = .next (goto (nextElement wr s run)
      { s with
        mem := Memory.put s.mem (s.storeAddr run.work.k).toNat run.work.rx
        hist := s.hist ++ [.memWr (s.storeAddr run.work.k) run.work.rx] }) :=
  ((storeStep_cases wr run s).resolve_right (by simp [h])).2

/-- The byte element `k` sends (43_buffer_transfer R141). -/
def sentByte (wr : Bool) (k : BitVec 32) (s : State) : Byte :=
  if wr then s.byteAt (s.loadAddr k) else 0x00#8

/-- The state after the MemRead of element `k`, if it has one. -/
def afterLoad (wr : Bool) (k : BitVec 32) (s : State) : State :=
  { s with hist := s.hist ++ if wr then [.memRd (s.loadAddr k) (sentByte wr k s)] else [] }

/-- The state after the MemWrite of element `k`, if it has one, of the byte `r`. -/
def afterStore (rd : Bool) (k : BitVec 32) (r : Byte) (s : State) : State :=
  { s with
    mem := if rd then Memory.put s.mem (s.storeAddr k).toNat r else s.mem
    hist := s.hist ++ if rd then [.memWr (s.storeAddr k) r] else [] }

theorem exec_xferBuf_load_issued {w : Work} (hw : s.waitReq = false) (ha : s.admitted (s.loadAddr w.k) = true) :
    exec (.xferBuf rd true) (issue ⟨.xferBuf rd true, .load, w⟩ s) =
      .next (issue
        (startByte (sentByte true w.k s) s ⟨.xferBuf rd true, .load, { w with t := sentByte true w.k s }⟩)
        (afterLoad true w.k s)) := by
  rw [exec_xferBuf_load (w := w) rfl (by exact hw) rfl, loadStep_admitted (by exact ha)]
  rfl

theorem exec_xferBuf_store_issued {w : Work} (hw : s.waitReq = false) (ha : s.admitted (s.storeAddr w.k) = true) :
    exec (.xferBuf true wr) (issue ⟨.xferBuf true wr, .store, w⟩ s) =
      .next (issue (nextElement wr s ⟨.xferBuf true wr, .store, w⟩) (afterStore true w.k w.rx s)) := by
  rw [exec_xferBuf_store (w := w) rfl (by exact hw) rfl, storeStep_admitted (by exact ha)]
  rfl

/-- An element up to the first action of its byte. -/
theorem runTurns_load (p : Pos) (w : Work) (hw : s.waitReq = false) (hh : s.held = none)
    (ha : wr = true → s.admitted (s.loadAddr w.k) = true) :
    runTurns (promptTurns wr.toNat) (issue (startElement wr s ⟨.xferBuf rd wr, p, w⟩) s) =
      .next (issue (startByte (sentByte wr w.k s) s ⟨.xferBuf rd wr, p, { w with t := sentByte wr w.k s }⟩)
        (afterLoad wr w.k s)) := by
  cases wr with
  | false => simp [promptTurns, runTurns, startElement, sentByte, afterLoad]
  | true => exact runTurns_pair_action hh rfl (exec_xferBuf_load_issued hw (ha rfl)) hh hw

/-- An element from the end of its byte on. -/
theorem runTurns_store (p : Pos) (w : Work) (hw : s.waitReq = false) (hh : s.held = none)
    (ha : rd = true → s.admitted (s.storeAddr w.k) = true) :
    ∃ p', runTurns (promptTurns rd.toNat) (issue (endByte rd wr s ⟨.xferBuf rd wr, p, w⟩) s) =
      .next (issue (nextElement wr s ⟨.xferBuf rd wr, p', w⟩) (afterStore rd w.k w.rx s)) := by
  cases rd with
  | false => exact ⟨p, by simp [promptTurns, runTurns, endByte, afterStore]⟩
  | true => exact ⟨.store, runTurns_pair_action hh rfl (exec_xferBuf_store_issued hw (ha rfl)) hh hw⟩

/-! ### One element -/

/-- Element `k` as it is transferred from `s` on. -/
def elementFrom (wr : Bool) (k : BitVec 32) (s : State) : Element where
  t := sentByte wr k s
  got := byteReplies (sentByte wr k s) (afterLoad wr k s)
  r := receivedByte s.lsbf s.wordSize (byteReplies (sentByte wr k s) (afterLoad wr k s))

/-- What element `k` leaves of the state it begins in (43_buffer_transfer R141). -/
def afterElement (rd wr : Bool) (k : BitVec 32) (s : State) : State :=
  afterStore rd k (elementFrom wr k s).r (afterByte (sentByte wr k s) (afterLoad wr k s))

/-- The addresses element `k` uses are admitted (60_exceptions R164). -/
def State.ElementAdmitted (s : State) (rd wr : Bool) (k : BitVec 32) : Prop :=
  (rd = true → s.admitted (s.storeAddr k) = true) ∧ (wr = true → s.admitted (s.loadAddr k) = true)

/-- The primitive actions of one element (70_reset R192). -/
def State.actionsPerElement (s : State) (rd wr : Bool) : Nat :=
  rd.toNat + s.actionsPerBit * s.wordSize + wr.toNat

theorem actionsPerElement_of_cfg (h : t.cfg = s.cfg) (rd wr : Bool) :
    t.actionsPerElement rd wr = s.actionsPerElement rd wr := by
  simp only [State.actionsPerElement, State.actionsPerBit, cpha_of_cfg h, wordSize_of_cfg h]

/-- One element action by action, from its start to what follows it. -/
theorem runTurns_element (p : Pos) (w : Work) (hw : s.waitReq = false) (hh : s.held = none)
    (ha : s.ElementAdmitted rd wr w.k) :
    ∃ (p' : Pos) (w' : Work), w'.k = w.k ∧
      runTurns (promptTurns (s.actionsPerElement rd wr)) (issue (startElement wr s ⟨.xferBuf rd wr, p, w⟩) s) =
        .next (issue (nextElement wr s ⟨.xferBuf rd wr, p', w'⟩) (afterElement rd wr w.k s)) := by
  obtain ⟨hstore, hload⟩ := ha
  have load := runTurns_load (rd := rd) p w hw hh hload
  obtain ⟨w', hrx, hk, byte⟩ := runTurns_byte (s := afterLoad wr w.k s) (sentByte wr w.k s) hw hh
    (byteExec_xferBuf rd wr (s := s) ⟨rfl, rfl, rfl, rfl⟩) p { w with t := sentByte wr w.k s }
  rw [transferByte_eq] at hrx byte
  dsimp only at hk hrx
  obtain ⟨p', store⟩ := runTurns_store (s := afterByte (sentByte wr w.k s) (afterLoad wr w.k s)) (wr := wr)
    (.bit .trail) w' hw hh (hk ▸ hstore)
  rw [hk, hrx] at store
  refine ⟨p', w', hk, ?_⟩
  rw [State.actionsPerElement, Nat.add_comm, Nat.add_comm rd.toNat, runTurns_promptTurns_add load]
  exact (runTurns_promptTurns_add byte).trans store

/-! ### The elements of a transfer -/

/-- What the first elements of a transfer leave of the state it begins in. -/
def afterElements (rd wr : Bool) (s : State) : Nat → State
  | 0 => s
  | k + 1 => afterElement rd wr (BitVec.ofNat 32 k) (afterElements rd wr s k)

/-- The first `m` elements of a transfer. -/
def elements (rd wr : Bool) (s : State) (m : Nat) : List Element :=
  (List.range m).map fun k => elementFrom wr (BitVec.ofNat 32 k) (afterElements rd wr s k)

theorem length_elements (rd wr : Bool) (s : State) (m : Nat) : (elements rd wr s m).length = m := by
  simp [elements]

theorem elements_succ (rd wr : Bool) (s : State) (m : Nat) :
    elements rd wr s (m + 1) =
      elements rd wr s m ++ [elementFrom wr (BitVec.ofNat 32 m) (afterElements rd wr s m)] := by
  simp [elements, List.range_succ]

theorem take_elements {m : Nat} (h : k ≤ m) : (elements rd wr s m).take k = elements rd wr s k := by
  simp [elements, ← List.map_take, List.take_range, h]

theorem afterElements_operands (rd wr : Bool) (s : State) (m : Nat) : SameOperands s (afterElements rd wr s m) := by
  induction m with
  | zero => exact .refl s
  | succ m ih => exact ih

/-- The registers and the sequencer stand apart from the actions of an element. -/
theorem afterElements_frame (rd wr : Bool) (s : State) (m : Nat) :
    (afterElements rd wr s m).rxdata = s.rxdata ∧ (afterElements rd wr s m).busy = s.busy ∧
      (afterElements rd wr s m).waitReq = s.waitReq ∧ (afterElements rd wr s m).cur = s.cur ∧
      (afterElements rd wr s m).held = s.held := by
  induction m with
  | zero => exact ⟨rfl, rfl, rfl, rfl, rfl⟩
  | succ m ih => exact ih

/-- Each element uses up one answer of the peripheral for each of its bits. -/
theorem afterElements_env (rd wr : Bool) (s : State) (m : Nat) :
    (afterElements rd wr s m).env = { s.env with misoIn := s.env.misoIn.drop (m * s.wordSize) } := by
  induction m with
  | zero => simp [afterElements]
  | succ m ih =>
    obtain ⟨hcfg, -⟩ := afterElements_operands rd wr s m
    have hlast : (afterElements rd wr s (m + 1)).env = { (afterElements rd wr s m).env with
      misoIn := (afterElements rd wr s m).env.misoIn.drop (afterElements rd wr s m).wordSize } := rfl
    rw [hlast, ih, wordSize_of_cfg hcfg, List.drop_drop, Nat.succ_mul]

/-! ### The trace and the stores of a transfer -/

/-- The trace of a transfer: those of its elements, "with nothing between them" (43_buffer_transfer R141). -/
def bufferTrace (s : State) (rd wr : Bool) (els : List Element) : List Event :=
  (els.mapIdx (elementTrace s rd wr)).flatten

theorem bufferTrace_concat (s : State) (rd wr : Bool) (els : List Element) (e : Element) :
    bufferTrace s rd wr (els ++ [e]) = bufferTrace s rd wr els ++ elementTrace s rd wr els.length e := by
  simp [bufferTrace]

theorem storeElements_concat (s : State) (rd : Bool) (els : List Element) (e : Element) (k : Nat) (m : Memory) :
    storeElements s rd k (els ++ [e]) m =
      if rd then Memory.put (storeElements s rd k els m) (s.storeAddr (BitVec.ofNat 32 (k + els.length))).toNat e.r
      else storeElements s rd k els m := by
  induction els generalizing k m with
  | nil => rfl
  | cons d els ih =>
    rw [List.cons_append, storeElements, ih, storeElements, List.length_cons, Nat.add_right_comm, Nat.add_assoc]

/-- Without a read buffer nothing is stored. -/
theorem storeElements_absent (s : State) (els : List Element) (k : Nat) (m : Memory) :
    storeElements s false k els m = m := by
  induction els generalizing k with
  | nil => rfl
  | cons e els ih => exact ih _

theorem afterElement_hist (rd wr : Bool) (k : Nat) (s : State) :
    (afterElement rd wr (BitVec.ofNat 32 k) s).hist =
      s.hist ++ elementTrace s rd wr k (elementFrom wr (BitVec.ofNat 32 k) s) := by
  simp only [elementTrace, ← List.append_assoc]
  rfl

theorem afterElements_hist (rd wr : Bool) (s : State) (m : Nat) :
    (afterElements rd wr s m).hist = s.hist ++ bufferTrace s rd wr (elements rd wr s m) := by
  induction m with
  | zero => simp [afterElements, elements, bufferTrace]
  | succ m ih =>
    have hs := afterElements_operands rd wr s m
    rw [afterElements, afterElement_hist, ih, elementTrace_of_operands hs, elements_succ, bufferTrace_concat,
      length_elements, List.append_assoc]

theorem afterElements_mem (rd wr : Bool) (s : State) (m : Nat) :
    (afterElements rd wr s m).mem = storeElements s rd 0 (elements rd wr s m) s.mem := by
  induction m with
  | zero => rfl
  | succ m ih =>
    obtain ⟨-, hraddr, -⟩ := afterElements_operands rd wr s m
    rw [elements_succ, storeElements_concat, ← ih, length_elements, Nat.zero_add, State.storeAddr, ← hraddr]
    rfl

/-- An element samples one bit for each it sends. -/
theorem elements_length_got {m : Nat} {e : Element} (h : e ∈ elements rd wr s m) : e.got.length = s.wordSize := by
  obtain ⟨k, -, rfl⟩ := List.mem_map.1 h
  obtain ⟨hcfg, -⟩ := afterElements_operands rd wr s k
  exact (length_byteReplies _ _).trans (wordSize_of_cfg hcfg)

/-- The bits an element samples make its byte. -/
theorem elements_received {m : Nat} {e : Element} (h : e ∈ elements rd wr s m) :
    Received s.lsbf s.wordSize e.got e.r := by
  have hlen := elements_length_got h
  obtain ⟨k, -, rfl⟩ := List.mem_map.1 h
  obtain ⟨hcfg, -⟩ := afterElements_operands rd wr s k
  rw [elementFrom, wordSize_of_cfg hcfg, lsbf_of_cfg hcfg]
  exact receivedByte_received s.lsbf (wordSize_pos s).2 hlen

/-- Without a write buffer every element sends a zero byte (43_buffer_transfer R144, R145). -/
theorem elements_zero {m : Nat} {e : Element} (h : e ∈ elements rd false s m) : e.t = 0x00#8 := by
  obtain ⟨k, -, rfl⟩ := List.mem_map.1 h
  rfl

/-- Element `k` sends the byte memory holds after the stores of the elements before it (43_buffer_transfer R141). -/
theorem elements_sent {m : Nat} (h : k < (elements rd wr s m).length) :
    (elements rd wr s m)[k].t =
      if wr then Memory.lookup (storeElements s rd 0 ((elements rd wr s m).take k) s.mem)
        (s.waddr + BitVec.ofNat 32 k).toNat
      else 0x00#8 := by
  rw [length_elements] at h
  obtain ⟨-, -, hwaddr, -⟩ := afterElements_operands rd wr s k
  rw [take_elements h.le, ← afterElements_mem, ← hwaddr]
  simp [elements, elementFrom, sentByte, State.byteAt, State.loadAddr]

/-! ### XFER_BUF from issue to completion -/

/-- Where XFER_BUF stands before its element `k`, or at its end. -/
inductive AtElement (rd wr : Bool) (s : State) (k : Nat) : Running → Prop where
  | start (p : Pos) (w : Work) : k < s.count.toNat → w.k = BitVec.ofNat 32 k →
      AtElement rd wr s k (startElement wr s ⟨.xferBuf rd wr, p, w⟩)
  | done (w : Work) : k = s.count.toNat → AtElement rd wr s k ⟨.xferBuf rd wr, .done, w⟩

theorem atElement_startOf (rd wr : Bool) (s : State) : AtElement rd wr s 0 (startOf (.xferBuf rd wr) s) := by
  by_cases hc : s.count = 0#32
  · rw [startOf_xferBuf_zero rd wr hc]
    exact .done _ (by rw [hc]; rfl)
  · have hpos : 0 < s.count.toNat := Nat.pos_of_ne_zero fun h => hc (BitVec.eq_of_toNat_eq h)
    have hstart : startOf (.xferBuf rd wr) s =
        startElement wr s ⟨.xferBuf rd wr, .done, { Work.unassigned with k := 0#32 }⟩ := if_neg hc
    rw [hstart]
    exact .start _ _ hpos rfl

theorem atElement_nextElement (p : Pos) {w : Work} (hk : k < s.count.toNat) (hw : w.k = BitVec.ofNat 32 k) :
    AtElement rd wr s (k + 1) (nextElement wr s ⟨.xferBuf rd wr, p, w⟩) := by
  have hnext : w.k + 1#32 = BitVec.ofNat 32 (k + 1) := by rw [hw, BitVec.ofNat_add]
  have hlast : w.k + 1#32 = s.count ↔ k + 1 = s.count.toNat := by
    rw [hnext, ← BitVec.toNat_inj, BitVec.toNat_ofNat, Nat.mod_eq_of_lt (by omega)]
  unfold nextElement
  split_ifs with h
  · exact .done w (hlast.1 h)
  · exact .start p _ (Nat.lt_of_le_of_ne hk fun he => h (hlast.2 he)) hnext

/-- Every element of the transfer lies at admitted addresses, in whatever state the earlier ones leave. -/
theorem admitted_afterElements (ha : s.buffersAdmitted rd wr) (hk : k < s.count.toNat) :
    (afterElements rd wr s k).ElementAdmitted rd wr (BitVec.ofNat 32 k) := by
  obtain ⟨-, hraddr, hwaddr, -⟩ := afterElements_operands rd wr s k
  rw [State.ElementAdmitted, State.storeAddr, State.loadAddr, hraddr, hwaddr, State.admitted, State.admitted,
    afterElements_env]
  refine ha _ ?_
  rwa [BitVec.lt_def, BitVec.toNat_ofNat, Nat.mod_eq_of_lt (by omega)]

/-- The first `m` elements action by action. -/
theorem runTurns_elements (hw : s.waitReq = false) (hh : s.held = none) (ha : s.buffersAdmitted rd wr) {m : Nat}
    (hm : m ≤ s.count.toNat) :
    ∃ run, AtElement rd wr s m run ∧
      runTurns (promptTurns (m * s.actionsPerElement rd wr)) (issue (startOf (.xferBuf rd wr) s) s) =
        .next (issue run (afterElements rd wr s m)) := by
  induction m with
  | zero =>
    rw [Nat.zero_mul]
    exact ⟨_, atElement_startOf rd wr s, rfl⟩
  | succ m ih =>
    obtain ⟨run, hat, hrun⟩ := ih (by omega)
    cases hat with
    | done w he => omega
    | start p w hlt hk =>
      have hs := afterElements_operands rd wr s m
      obtain ⟨-, -, hwait, -, hheld⟩ := afterElements_frame rd wr s m
      have hadm := hk ▸ admitted_afterElements ha hlt
      obtain ⟨p', w', hk', helem⟩ := runTurns_element p w (hwait.trans hw) (hheld.trans hh) hadm
      rw [actionsPerElement_of_cfg hs.1, startElement_of_cfg hs.1, nextElement_of_operands hs, hk] at helem
      refine ⟨_, atElement_nextElement p' hlt (hk'.trans hk), ?_⟩
      rw [Nat.succ_mul, runTurns_promptTurns_add hrun, helem]
      rfl

/-- What XFER_BUF leaves of the state it is issued in (43_buffer_transfer R142). -/
def afterXferBuf (rd wr : Bool) (s : State) : State :=
  complete none (afterElements rd wr s s.count.toNat)

/-- XFER_BUF is issued in one step, and one pair of turns for each action and for the completion step ends it. -/
theorem xferBuf_runs (h : s.ready = true) (ha : s.buffersAdmitted rd wr) :
    ∃ t, exec (.xferBuf rd wr) s = .next t ∧ t.busy = true ∧
      runTurns (promptTurns (s.count.toNat * s.actionsPerElement rd wr + 1)) t = .next (afterXferBuf rd wr s) := by
  obtain ⟨hb, hw, hh⟩ := (ready_iff s).1 h
  obtain ⟨-, -, hwait, -, hheld⟩ := afterElements_frame rd wr s s.count.toNat
  obtain ⟨run, hat, hrun⟩ := runTurns_elements hw hh ha le_rfl
  refine ⟨_, exec_idle hb, rfl, (runTurns_promptTurns_add hrun).trans ?_⟩
  cases hat with
  | start p w hlt => omega
  | done w =>
    exact runTurns_pair_action (hheld.trans hh) rfl (exec_xferBuf_done (w := w) rfl (hwait.trans hw) rfl)
      (hheld.trans hh) (hwait.trans hw)

/-- The whole of what XFER_BUF leaves, pins and H and memory apart. -/
theorem afterXferBuf_frame (rd wr : Bool) (s : State) :
    afterXferBuf rd wr s = { s with
      sclk := (afterXferBuf rd wr s).sclk
      mosi := (afterXferBuf rd wr s).mosi
      busy := false
      cur := none
      hist := (afterXferBuf rd wr s).hist
      mem := (afterXferBuf rd wr s).mem
      env := { s.env with misoIn := s.env.misoIn.drop (s.count.toNat * s.wordSize) } } := by
  obtain ⟨hcfg, hraddr, hwaddr, hcount⟩ := afterElements_operands rd wr s s.count.toNat
  obtain ⟨hrx, -, hwait, -, hheld⟩ := afterElements_frame rd wr s s.count.toNat
  have henv := afterElements_env rd wr s s.count.toNat
  simp [afterXferBuf, complete, hcfg, hraddr, hwaddr, hcount, hrx, hwait, hheld, henv]

/-- Unless COUNT = 0 the last action but the completion step is one of the last element. -/
theorem afterXferBuf_last (rd wr : Bool) (hc : s.count ≠ 0#32) :
    ∃ m, afterXferBuf rd wr s = complete none (afterElement rd wr (BitVec.ofNat 32 m) (afterElements rd wr s m)) := by
  obtain ⟨m, hm⟩ : ∃ m, s.count.toNat = m + 1 :=
    Nat.exists_eq_succ_of_ne_zero fun h => hc (BitVec.eq_of_toNat_eq h)
  exact ⟨m, by rw [afterXferBuf, hm, afterElements]⟩

/-- SCLK ends at the idle level. -/
theorem afterXferBuf_sclk (rd wr : Bool) (hc : s.count ≠ 0#32) : (afterXferBuf rd wr s).sclk = s.cpol := by
  obtain ⟨m, hm⟩ := afterXferBuf_last rd wr hc
  obtain ⟨hcfg, -⟩ := afterElements_operands rd wr s m
  rw [hm]
  exact cpol_of_cfg hcfg

/-- Without a write buffer MOSI ends at 0, the last bit of a zero byte. -/
theorem afterXferBuf_mosi (rd : Bool) (hc : s.count ≠ 0#32) : (afterXferBuf rd false s).mosi = false := by
  obtain ⟨m, hm⟩ := afterXferBuf_last rd false hc
  rw [hm]
  exact BitVec.getLsbD_zero

/-! ### Readings of the trace -/

section Readings

variable {els : List Element}

theorem wireBits_zero (lsbf : Bool) (n : Nat) : wireBits lsbf n 0x00#8 = List.replicate n false := by
  simp [wireBits]

theorem byteTrace_append (cpol cpha : Bool) {bs rs : List Level} (h : bs.length = rs.length) (bs' rs' : List Level) :
    byteTrace cpol cpha (bs ++ bs') (rs ++ rs') = byteTrace cpol cpha bs rs ++ byteTrace cpol cpha bs' rs' := by
  simp [byteTrace, List.zipWith_append h]

theorem readBytes_append (tr tr' : List Event) : readBytes (tr ++ tr') = readBytes tr ++ readBytes tr' := by
  induction tr with
  | nil => rfl
  | cons e tr ih => cases e <;> simp [readBytes, ih]

theorem writtenBytes_append (tr tr' : List Event) :
    writtenBytes (tr ++ tr') = writtenBytes tr ++ writtenBytes tr' := by
  induction tr with
  | nil => rfl
  | cons e tr ih => cases e <;> simp [writtenBytes, ih]

/-- A byte has no memory action. -/
theorem bytes_byteTrace (cpol cpha : Bool) (bs rs : List Level) :
    readBytes (byteTrace cpol cpha bs rs) = [] ∧ writtenBytes (byteTrace cpol cpha bs rs) = [] := by
  induction bs generalizing rs with
  | nil => exact ⟨rfl, rfl⟩
  | cons b bs ih =>
    cases rs with
    | nil => exact ⟨rfl, rfl⟩
    | cons r rs =>
      have hbit : readBytes (bitTrace cpol cpha b r) = [] ∧ writtenBytes (bitTrace cpol cpha b r) = [] := by
        cases cpha <;> exact ⟨rfl, rfl⟩
      simp [readBytes_append, writtenBytes_append, hbit, ih]

theorem bytes_elementTrace (s : State) (rd wr : Bool) (k : Nat) (e : Element) :
    readBytes (elementTrace s rd wr k e) = (if wr then [e.t] else []) ∧
      writtenBytes (elementTrace s rd wr k e) = if rd then [e.r] else [] := by
  cases rd <;> cases wr <;>
    simp [elementTrace, readBytes_append, writtenBytes_append, bytes_byteTrace, readBytes, writtenBytes]

/-- The MemReads of a transfer return the bytes sent, its MemWrites store the bytes received. -/
theorem bytes_bufferTrace (s : State) (rd wr : Bool) (els : List Element) :
    readBytes (bufferTrace s rd wr els) = (if wr then els.map Element.t else []) ∧
      writtenBytes (bufferTrace s rd wr els) = if rd then els.map Element.r else [] := by
  induction els using List.reverseRecOn with
  | nil => cases rd <;> cases wr <;> exact ⟨rfl, rfl⟩
  | append_singleton els e ih =>
    obtain ⟨hread, hwritten⟩ := ih
    obtain ⟨hread', hwritten'⟩ := bytes_elementTrace s rd wr els.length e
    rw [bufferTrace_concat, readBytes_append, writtenBytes_append, hread, hwritten, hread', hwritten']
    cases rd <;> cases wr <;> simp

/-- What every bit's trace has `c` of, and the memory actions none, a transfer has `c` of for each bit. -/
theorem countP_bufferTrace {p : Event → Bool} {c : Nat}
    (hbit : ∀ b r, (bitTrace s.cpol s.cpha b r).countP p = c)
    (hmem : ∀ a v, p (.memRd a v) = false ∧ p (.memWr a v) = false)
    (hgot : ∀ e ∈ els, e.got.length = s.wordSize) :
    (bufferTrace s rd wr els).countP p = c * els.length * s.wordSize := by
  induction els using List.reverseRecOn with
  | nil => simp [bufferTrace]
  | append_singleton els e ih =>
    have hlast : (elementTrace s rd wr els.length e).countP p = c * s.wordSize := by
      have hbyte := countP_byteTrace s.cpol s.cpha hbit
        ((hgot e (by simp)).trans (length_wireBits s.lsbf s.wordSize e.t).symm)
      rw [length_wireBits] at hbyte
      cases rd <;> cases wr <;> simp [elementTrace, hbyte, hmem]
    rw [bufferTrace_concat, List.countP_append, hlast, ih fun d hd => hgot d (by simp [hd]), List.length_append,
      List.length_singleton, Nat.mul_succ, Nat.add_mul]

/-- The bits of a byte with no 1 drive MOSI to 0 only. -/
theorem drivesMosiHigh_byteTrace (cpol cpha : Bool) (n : Nat) (rs : List Level) :
    ∀ ev ∈ byteTrace cpol cpha (List.replicate n false) rs, drivesMosiHigh ev = false := by
  induction n generalizing rs with
  | zero => simp [byteTrace]
  | succ n ih =>
    cases rs with
    | nil => simp [byteTrace]
    | cons r rs =>
      have hbit : ∀ ev ∈ bitTrace cpol cpha false r, drivesMosiHigh ev = false := by
        cases cpha <;> simp [bitTrace, drivesMosiHigh]
      rw [List.replicate_succ, byteTrace_cons]
      exact List.forall_mem_append.2 ⟨hbit, ih rs⟩

theorem drivesMosiHigh_bufferTrace (hzero : ∀ e ∈ els, e.t = 0x00#8) :
    ∀ ev ∈ bufferTrace s rd wr els, drivesMosiHigh ev = false := by
  induction els using List.reverseRecOn with
  | nil => simp [bufferTrace]
  | append_singleton els e ih =>
    have hlast : ∀ ev ∈ elementTrace s rd wr els.length e, drivesMosiHigh ev = false := by
      have hbyte := drivesMosiHigh_byteTrace s.cpol s.cpha s.wordSize e.got
      rw [← wireBits_zero s.lsbf, ← hzero e (by simp)] at hbyte
      cases rd <;> cases wr <;> simpa [elementTrace, drivesMosiHigh, or_imp, forall_and] using hbyte
    rw [bufferTrace_concat]
    exact List.forall_mem_append.2 ⟨ih fun d hd => hzero d (by simp [hd]), hlast⟩

theorem length_flatten_got {n : Nat} (h : ∀ e ∈ els, e.got.length = n) :
    (els.map Element.got).flatten.length = els.length * n := by
  have hlen : (els.map Element.got).map List.length = List.replicate els.length n := by
    simpa [List.eq_replicate_iff] using h
  rw [List.length_flatten, hlen, List.sum_replicate, smul_eq_mul]

/-- With both buffers absent the trace is that of one run of 0 bits (43_buffer_transfer R145). -/
theorem bufferTrace_clocks (hzero : ∀ e ∈ els, e.t = 0x00#8) (hgot : ∀ e ∈ els, e.got.length = s.wordSize) :
    bufferTrace s false false els =
      byteTrace s.cpol s.cpha (List.replicate (els.length * s.wordSize) false) (els.map Element.got).flatten := by
  induction els using List.reverseRecOn with
  | nil => simp [bufferTrace]
  | append_singleton els e ih =>
    have hgot' : ∀ d ∈ els, d.got.length = s.wordSize := fun d hd => hgot d (by simp [hd])
    have hlast : elementTrace s false false els.length e =
        byteTrace s.cpol s.cpha (List.replicate s.wordSize false) e.got := by
      simp [elementTrace, hzero e, wireBits_zero]
    rw [bufferTrace_concat, ih (fun d hd => hzero d (by simp [hd])) hgot', hlast,
      ← byteTrace_append _ _ (by rw [List.length_replicate, length_flatten_got hgot'])]
    simp [Nat.succ_mul]

end Readings

/-! ### The obligations -/

/-- Settles O42: the run is the elements' actions one after the other and the completion step. -/
theorem xferBufRuns : Obligations.XferBufRuns := by
  intro s rd wr h ha
  obtain ⟨t, hissue, hbusy, hrun⟩ := xferBuf_runs h ha
  refine ⟨elements rd wr s s.count.toNat, t, afterXferBuf rd wr s, length_elements _ _ _ _, hissue, hbusy, hrun,
    afterElements_hist _ _ _ _, afterElements_mem _ _ _ _, fun k hk => ?_, fun hc => ?_, afterXferBuf_frame _ _ _⟩
  · have he := List.getElem_mem hk
    exact ⟨elements_length_got he, elements_received he, elements_sent hk⟩
  · exact afterXferBuf_sclk rd wr hc

/-- Settles O43: every element sends a zero byte, so no event of the trace drives MOSI high. -/
theorem readOnlySendsZeros : Obligations.ReadOnlySendsZeros := by
  intro s h ha
  obtain ⟨t, hissue, -, hrun⟩ := xferBuf_runs h ha
  obtain ⟨hread, -⟩ := bytes_bufferTrace s true false (elements true false s s.count.toNat)
  exact ⟨t, afterXferBuf true false s, _, hissue, hrun, rfl, afterElements_hist _ _ _ _,
    drivesMosiHigh_bufferTrace fun _ => elements_zero, hread, afterXferBuf_mosi true⟩

/-- Settles O44: without buffers no address needs to be admitted, and the bytes sent are one run of 0 bits. -/
theorem clockOnlyTransfer : Obligations.ClockOnlyTransfer := by
  intro s h
  obtain ⟨t, hissue, -, hrun⟩ := xferBuf_runs (rd := false) (wr := false) h fun _ _ => ⟨nofun, nofun⟩
  have hlen := length_elements false false s s.count.toNat
  have hgot : ∀ e ∈ elements false false s s.count.toNat, e.got.length = s.wordSize := fun _ => elements_length_got
  have hhist := afterElements_hist false false s s.count.toNat
  rw [bufferTrace_clocks (fun _ => elements_zero) hgot, hlen] at hhist
  obtain ⟨hrx, -⟩ := afterElements_frame false false s s.count.toNat
  refine ⟨t, afterXferBuf false false s, _, hissue, ?_, by rw [length_flatten_got hgot, hlen], hhist,
    (afterElements_mem _ _ _ _).trans (storeElements_absent _ _ _ _), hrx, rfl, afterElements_operands _ _ _ _⟩
  simpa [State.actionsPerElement] using hrun

/-- Settles O47: one sample and two waits for each bit, one memory action of each kind for each element. -/
theorem bufferCounts : Obligations.BufferCounts := by
  intro s rd wr h ha
  obtain ⟨t, hissue, -, hrun⟩ := xferBuf_runs h ha
  have hlen := length_elements rd wr s s.count.toNat
  have hgot : ∀ e ∈ elements rd wr s s.count.toNat, e.got.length = s.wordSize := fun _ => elements_length_got
  obtain ⟨hread, hwritten⟩ := bytes_bufferTrace s rd wr (elements rd wr s s.count.toNat)
  refine ⟨t, afterXferBuf rd wr s, _, hissue, hrun, rfl, afterElements_hist _ _ _ _, ?_, ?_, ?_, ?_⟩
  · rw [countP_bufferTrace (bitTrace_samples _ _) (fun _ _ => ⟨rfl, rfl⟩) hgot, hlen, Nat.one_mul]
  · exact (countP_bufferTrace (bitTrace_waits _ _) (fun _ _ => ⟨rfl, rfl⟩) hgot).trans (by rw [hlen])
  · rw [hread]
    cases wr <;> simp [hlen]
  · rw [hwritten]
    cases rd <;> simp [hlen]

/-- Settles O45: with COUNT = 0 the command is issued at its completion step. -/
theorem countZero : Obligations.CountZero := by
  intro s rd wr h hc
  obtain ⟨hb, hw, -⟩ := (ready_iff s).1 h
  refine ⟨_, exec_idle hb, ?_⟩
  rw [startOf_xferBuf_zero rd wr hc]
  exact exec_xferBuf_done rfl hw rfl

end Sys2Proof.Machine
end

section
/-! SUPPORT. The family 60_exceptions: a turn without a step of the sequencer and without a wait, and the obligations O41
and O57. -/

namespace Sys2Proof.Machine

variable {s t u : State}

/-! ### A block that stays as it is -/

/-- From `s` to `t` the block and the platform's address map stay as they are; a host write may have come to be held, but
only by the stall (10_state R31). -/
structure BlockStays (s t : State) : Prop where
  registers : SameRegisters s t
  sclk : t.sclk = s.sclk
  mosi : t.mosi = s.mosi
  waitReq : t.waitReq = s.waitReq
  cur : t.cur = s.cur
  hist : t.hist = s.hist
  admits : t.env.admits = s.env.admits
  held : t.held = s.held ∨ (s.held = none ∧ s.busy = true)

theorem BlockStays.refl (s : State) : BlockStays s s := ⟨.refl s, rfl, rfl, rfl, rfl, rfl, rfl, .inl rfl⟩

/-- The host's part of the environment is no part of the block. -/
theorem BlockStays.of_host (s : State) (m : Memory) (prog : List HostOp) (log : List ReadBack) :
    BlockStays s { s with mem := m, env := { s.env with hostProg := prog, readLog := log } } :=
  ⟨.refl s, rfl, rfl, rfl, rfl, rfl, rfl, .inl rfl⟩

theorem SameOperands.trans (h : SameOperands s t) (h' : SameOperands t u) : SameOperands s u := by
  obtain ⟨hcfg, hraddr, hwaddr, hcount⟩ := h
  obtain ⟨hcfg', hraddr', hwaddr', hcount'⟩ := h'
  exact ⟨hcfg'.trans hcfg, hraddr'.trans hraddr, hwaddr'.trans hwaddr, hcount'.trans hcount⟩

theorem BlockStays.trans (h : BlockStays s t) (h' : BlockStays t u) : BlockStays s u := by
  obtain ⟨hops, hrx, hbusy⟩ := h.registers
  obtain ⟨hops', hrx', hbusy'⟩ := h'.registers
  refine ⟨⟨hops.trans hops', hrx'.trans hrx, hbusy'.trans hbusy⟩, h'.sclk.trans h.sclk, h'.mosi.trans h.mosi,
    h'.waitReq.trans h.waitReq, h'.cur.trans h.cur, h'.hist.trans h.hist, h'.admits.trans h.admits, ?_⟩
  rcases h.held with hsame | hnew
  · rw [← hsame, ← hbusy]
    exact h'.held
  · exact .inr hnew

/-- A write held by the stall stays held (10_state R31). -/
theorem BlockStays.keeps_held (h : BlockStays s t) {w : RegWrite} (hs : s.held = some w) : t.held = some w := by
  rcases h.held with hsame | ⟨hnone, -⟩
  · exact hsame.trans hs
  · cases hnone.symm.trans hs

/-! ### A turn without a step of the sequencer -/

/-- The turn of `a` accepts a host write, the held one or the one the host's turn offers (10_state R31). -/
def AcceptsWrite (s : State) (a : Agent) (w : RegWrite) : Prop :=
  s.held = some w ∨ (a = .host ∧ s.held = none ∧ s.env.hostProg.head? = some (.write w.offset 32 w.value))

/-- An accepted host write is no action of the block: it issues a command at most (10_state R32). -/
theorem acceptWrite_no_action {w : RegWrite} (hb : s.busy = false) (h : acceptWrite w s = .next t) :
    t.hist = s.hist ∧ t.sclk = s.sclk ∧ t.mosi = s.mosi ∧ t.waitReq = s.waitReq := by
  rcases acceptWrite_next h with ⟨i, -, -, he⟩ | ⟨r, -, -, rfl⟩ | rfl
  · cases (exec_idle hb).symm.trans he
    exact ⟨rfl, rfl, rfl, rfl⟩
  · cases r <;> exact ⟨rfl, rfl, rfl, rfl⟩
  · exact ⟨rfl, rfl, rfl, rfl⟩

/-- Where the sequencer has no step and no wait is outstanding, a turn that is no reset leaves the block as it is, or
accepts a host write with BUSY = 0. -/
theorem agentTurn_without_step {a : Agent} (hstep : ∀ run, s.cur = some run → ∀ u, exec run.cmd s ≠ .next u)
    (hw : s.waitReq = false) (ha : a ≠ .reset) (h : agentTurn a s = .next t) :
    BlockStays s t ∨ (s.busy = false ∧ (∃ w, AcceptsWrite s a w) ∧
      t.hist = s.hist ∧ t.sclk = s.sclk ∧ t.mosi = s.mosi ∧ t.waitReq = s.waitReq) := by
  cases agentTurn_next h with
  | reset => exact absurd rfl ha
  | rest _ => exact .inl (.refl s)
  | command run _ hc he => exact absurd he (hstep run hc t)
  | acknowledge hreq => cases hw.symm.trans hreq
  | acceptHeld _ w _ hheld hb he =>
    exact .inr ⟨hb, ⟨w, .inl hheld⟩, acceptWrite_no_action (s := { s with held := none }) hb he⟩
  | acceptFresh w hn hb hp _ he =>
    exact .inr ⟨hb, ⟨w, .inr ⟨rfl, hn, hp⟩⟩, acceptWrite_no_action (s := hostAdvance s) hb he⟩
  | hold w hn hb _ _ _ => exact .inl ⟨.refl s, rfl, rfl, rfl, rfl, rfl, rfl, .inr ⟨hn, hb⟩⟩
  | look prog log _ _ => exact .inl (.of_host s _ _ _)
  | store b v _ _ _ => exact .inl (.of_host s _ _ _)

/-! ### The sequencer stuck at a memory action -/

/-- The sequencer stands at a MemRead or MemWrite of the address `a`, which is not admitted (60_exceptions R164). -/
structure StuckAt (s : State) (rd wr : Bool) (pos : Pos) (w : Work) (a : Addr) : Prop where
  inProgress : InProgress s ⟨.xferBuf rd wr, pos, w⟩
  address : pos = .load ∧ a = s.waddr + w.k ∨ pos = .store ∧ a = s.raddr + w.k
  notAdmitted : s.admitted a = false

section Stuck

variable {rd wr : Bool} {pos : Pos} {w : Work} {a : Addr}

theorem StuckAt.exec_eq (h : StuckAt s rd wr pos w a) : exec (.xferBuf rd wr) s = .fault (.notAdmitted a) := by
  obtain ⟨⟨hb, hw, hc⟩, ⟨rfl, rfl⟩ | ⟨rfl, rfl⟩, hno⟩ := h
  · rw [exec_xferBuf_load hb hw hc]
    exact ((loadStep_cases _ s).resolve_left fun hyes => by cases hno.symm.trans hyes.1).2
  · rw [exec_xferBuf_store hb hw hc]
    exact ((storeStep_cases wr _ s).resolve_left fun hyes => by cases hno.symm.trans hyes.1).2

theorem StuckAt.of_stays (h : StuckAt s rd wr pos w a) (hs : BlockStays s t) : StuckAt t rd wr pos w a := by
  obtain ⟨hb, hw, hc⟩ := h.inProgress
  obtain ⟨⟨-, hraddr, hwaddr, -⟩, -, hbusy⟩ := hs.registers
  refine ⟨⟨hbusy.trans hb, hs.waitReq.trans hw, hs.cur.trans hc⟩, ?_, ?_⟩
  · rw [hraddr, hwaddr]
    exact h.address
  · rw [State.admitted, hs.admits]
    exact h.notAdmitted

theorem StuckAt.turn {g : Agent} (h : StuckAt s rd wr pos w a) (hg : g ≠ .reset) (ht : agentTurn g s = .next t) :
    BlockStays s t := by
  obtain ⟨hb, hw, hc⟩ := h.inProgress
  have hstep : ∀ run, s.cur = some run → ∀ u, exec run.cmd s ≠ .next u := by
    intro run hrun u he
    cases hc.symm.trans hrun
    cases h.exec_eq.symm.trans he
  rcases agentTurn_without_step hstep hw hg ht with hs | ⟨hidle, -⟩
  · exact hs
  · cases hb.symm.trans hidle

/-- No turns without a reset move a stuck block (60_exceptions R164). -/
theorem StuckAt.turns {turns : List Agent} (h : StuckAt s rd wr pos w a) (hg : ∀ g ∈ turns, g ≠ .reset)
    (hu : runTurns turns s = .next u) : BlockStays s u := by
  induction turns generalizing s with
  | nil => cases hu; exact .refl _
  | cons g gs ih =>
    obtain ⟨hhead, htail⟩ := List.forall_mem_cons.1 hg
    rw [runTurns] at hu
    split at hu
    next t ht =>
      have hs : BlockStays s t := h.turn hhead ht
      exact hs.trans (ih (h.of_stays hs) htail hu)
    next => cases hu
    next => cases hu

end Stuck

/-! ### The obligations -/

/-- Settles O41: the stuck command has no step, so every turn leaves the block as it is, by induction over the turns. -/
theorem unadmittedAddressSticks : Obligations.UnadmittedAddressSticks := by
  intro s rd wr pos w a hp haddr hno
  have hstuck : StuckAt s rd wr pos w a := ⟨hp, haddr, hno⟩
  refine ⟨hstuck.exec_eq, fun turns u hg hu => ?_⟩
  have hs : BlockStays s u := hstuck.turns hg hu
  obtain ⟨hops, -, hbusy⟩ := hs.registers
  exact ⟨hbusy.trans hp.1, hs.cur, hs.hist, hops, fun _ => hs.keeps_held⟩

/-- Settles O57: an idle sequencer has no step, so a turn accepts a host write or leaves the block as it is. -/
theorem idleBlockIsQuiescent : Obligations.IdleBlockIsQuiescent := by
  intro s t hb hw hc ha h
  have hstep : ∀ run, (tick s).cur = some run → ∀ u, exec run.cmd (tick s) ≠ .next u :=
    fun _ hrun => by cases hc.symm.trans hrun
  rcases agentTurn_without_step (s := tick s) hstep hw ha h with
    hs | ⟨-, ⟨w, hacc⟩, hhist, hsclk, hmosi, hwait⟩
  · refine ⟨⟨hs.hist, hs.sclk, hs.mosi, hs.waitReq.trans hw⟩, ?_⟩
    obtain ⟨hops, hrx, hbusy⟩ := hs.registers
    cases hheld : s.held with
    | some w => exact .inl ⟨w, rfl⟩
    | none =>
      have hkeeps : t.held = s.held := hs.held.resolve_right fun hnew => by cases hb.symm.trans hnew.2
      exact .inr (.inr ⟨hops, hrx, hbusy.trans hb, hs.cur.trans hc, hkeeps.trans hheld⟩)
  · refine ⟨⟨hhist, hsclk, hmosi, hwait.trans hw⟩, ?_⟩
    rcases hacc with hheld | ⟨hhost, hn, hp⟩
    · exact .inl ⟨w, hheld⟩
    · exact .inr (.inl ⟨w.offset, w.value, hhost, hn, hp⟩)

end Sys2Proof.Machine
end

section
/-! SUPPORT. The family 70_reset: the step a hardware reset takes, the fields of CFG after it, turns with nothing of a
command left to do, and the obligations O11 and O12. -/

namespace Sys2Proof.Machine

variable {s : State}

/-! ### The reset step -/

/-- A hardware reset comes in any step and leaves nothing of the block's own state (70_reset R181). -/
theorem step_reset (ha : nextAgent s = .reset) : step s = .next (hardwareReset (tick s)) := by
  rw [step, ha, agentTurn]

/-- CFG = 0 is SPI mode 0, MSB-first, with words of 8 bits (70_reset R180). -/
theorem cfg_zero_fields (h : s.cfg = 0#32) :
    s.cpol = false ∧ s.cpha = false ∧ s.lsbf = false ∧ s.ws = 0#4 ∧ s.wordSize = 8 := by
  have hws : s.ws = 0#4 := by rw [State.ws, h]; rfl
  refine ⟨?_, ?_, ?_, hws, ?_⟩
  · rw [State.cpol, h]; rfl
  · rw [State.cpha, h]; rfl
  · rw [State.lsbf, h]; rfl
  · rw [State.wordSize, hws]; rfl

/-! ### Turns with nothing of a command left to do -/

theorem sequencerTurn_none (hc : s.cur = none) : sequencerTurn s = .next s := by
  simp [sequencerTurn, hc]

theorem delayTurn_no_request (hw : s.waitReq = false) : delayTurn s = s := by
  simp [delayTurn, hw]

/-- With no command in progress, no wait outstanding and no write held, turns of the sequencer and the delay unit
change nothing. -/
theorem runTurns_none {turns : List Agent} (hc : s.cur = none) (hw : s.waitReq = false) (hh : s.held = none)
    (hturns : ∀ a ∈ turns, a = .sequencer ∨ a = .delayUnit) : runTurns turns s = .next s := by
  induction turns with
  | nil => rfl
  | cons a as ih =>
    obtain ⟨hhead, htail⟩ := List.forall_mem_cons.1 hturns
    have hturn : agentTurn a s = .next s := by
      rcases hhead with rfl | rfl
      · rw [agentTurn, orAcceptHeld_none hh, sequencerTurn_none hc]
      · rw [agentTurn, orAcceptHeld_none hh, delayTurn_no_request hw]
    rw [runTurns, hturn]
    exact ih htail

/-! ### The obligations -/

/-- Settles O12: the reset leaves no command, no wait and no held write, so no turn of the sequencer or the delay unit
finds anything to do. -/
theorem hardwareResetAbandonsCommand : Obligations.HardwareResetAbandonsCommand := by
  intro s ha
  refine ⟨_, step_reset ha, rfl, rfl, rfl, rfl, rfl, rfl, rfl, rfl, rfl, rfl, rfl, rfl, rfl, fun turns hturns => ?_⟩
  exact runTurns_none (hardwareReset_cur _) (hardwareReset_waitReq _) (hardwareReset_held _) hturns

/-- Settles O11: each register and pin of the reset state, and the fields of CFG = 0. -/
theorem hardwareResetValues : Obligations.HardwareResetValues := by
  refine ⟨fun s ha => ?_, rfl, rfl, rfl, rfl, rfl, rfl, rfl, rfl, rfl, rfl, rfl, rfl⟩
  obtain ⟨hcpol, hcpha, hlsbf, hws, hsize⟩ := cfg_zero_fields (hardwareReset_cfg (tick s))
  exact ⟨_, step_reset ha, rfl, rfl, rfl, rfl, rfl, rfl, rfl, rfl, rfl, rfl, rfl, rfl,
    hcpol, hcpha, hlsbf, hws, hsize, hcpol.symm⟩

end Sys2Proof.Machine
end

section
/-! SUPPORT. The family other, encoding: a word from the command it decodes to, and the obligations O1 to O3. -/

namespace Sys2Proof

variable {w : Word}

/-! ### The word of a decoded command (30_encoding R73) -/

theorem commandIf_eq_command_iff (zeros : Bool) (i j : Instr) :
    commandIf zeros i = .command j ↔ zeros = true ∧ i = j := by
  cases zeros <;> simp [commandIf]

/-- The one operand bit of an XFER_BIT word, as a field. -/
theorem slice_encode_xferBit (w : Word) : slice 8 1 (encode (.xferBit (w.getLsbD 8))) = slice 8 1 w := by
  ext j hj
  obtain rfl : j = 0 := by omega
  rw [getElem_slice, getElem_slice]
  cases w.getLsbD 8 <;> rfl

/-- The two operand bits of an XFER_BUF word, as a field. -/
theorem slice_encode_xferBuf (w : Word) :
    slice 4 2 (encode (.xferBuf (w.getLsbD 4) (w.getLsbD 5))) = slice 4 2 w := by
  ext j hj
  rw [getElem_slice, getElem_slice]
  obtain rfl | rfl : j = 0 ∨ j = 1 := by omega
  · cases w.getLsbD 4 <;> cases w.getLsbD 5 <;> rfl
  · cases w.getLsbD 4 <;> cases w.getLsbD 5 <;> rfl

theorem slice_op_eq {n : Nat} (h : (slice 0 4 w).toNat = n) : slice 0 4 w = BitVec.ofNat 4 n := by
  rw [← h, BitVec.ofNat_toNat, BitVec.setWidth_eq]

/-- A word that decodes to a command is that command's word: OP, the must-be-zero bits and the operand fields agree. -/
theorem encode_of_decode {i : Instr} (h : decode w = .command i) : encode i = w := by
  rcases decode_cases w with ⟨hop, hd⟩ | ⟨hop, hd⟩ | ⟨hop, hd⟩ | ⟨hop, hd⟩ | ⟨-, hd⟩
  · obtain ⟨hz, rfl⟩ := (commandIf_eq_command_iff _ _ _).1 (hd.symm.trans h)
    have hzero : slice 4 28 w = 0 := by simpa using hz
    refine (word_eq_iff_fields 28 0 0 rfl _ _).2 ⟨?_, ?_, BitVec.eq_of_zero_length rfl, BitVec.eq_of_zero_length rfl⟩
    · rw [slice_op_eq hop]; rfl
    · rw [hzero]; rfl
  · obtain ⟨hz, rfl⟩ := (commandIf_eq_command_iff _ _ _).1 (hd.symm.trans h)
    obtain ⟨hhigh, hlow⟩ : slice 9 23 w = 0 ∧ slice 4 4 w = 0 := by simpa using hz
    refine (word_eq_iff_fields 4 1 23 rfl _ _).2 ⟨?_, ?_, slice_encode_xferBit w, ?_⟩
    · rw [slice_op_eq hop]; cases w.getLsbD 8 <;> rfl
    · rw [hlow]; cases w.getLsbD 8 <;> rfl
    · rw [hhigh]; cases w.getLsbD 8 <;> rfl
  · obtain ⟨hz, rfl⟩ := (commandIf_eq_command_iff _ _ _).1 (hd.symm.trans h)
    obtain ⟨hhigh, hlow⟩ : slice 16 16 w = 0 ∧ slice 4 4 w = 0 := by simpa using hz
    obtain ⟨hop', hlow', hoperand, hhigh'⟩ := slice_encode_xferByte (slice 8 8 w)
    exact (word_eq_iff_fields 4 8 16 rfl _ _).2
      ⟨hop'.trans (slice_op_eq hop).symm, hlow'.trans hlow.symm, hoperand, hhigh'.trans hhigh.symm⟩
  · obtain ⟨hz, rfl⟩ := (commandIf_eq_command_iff _ _ _).1 (hd.symm.trans h)
    have hzero : slice 6 26 w = 0 := by simpa using hz
    refine (word_eq_iff_fields 0 2 26 rfl _ _).2 ⟨?_, BitVec.eq_of_zero_length rfl, slice_encode_xferBuf w, ?_⟩
    · rw [slice_op_eq hop]; cases w.getLsbD 4 <;> cases w.getLsbD 5 <;> rfl
    · rw [hzero]; cases w.getLsbD 4 <;> cases w.getLsbD 5 <;> rfl
  · cases hd.symm.trans h

/-- A word of OP alone is reserved from OP = 5 on. -/
theorem decode_op_reserved (op : BitVec 4) (h : 5 ≤ op.toNat) : decode (op.setWidth 32) = .reserved .opcode := by
  have hop : slice 0 4 (op.setWidth 32) = op := by
    ext j hj
    simp [getElem_slice, hj, show j < 32 by omega]
  exact (decode_reserved_iff _).1.2 (.inr (by rwa [hop]))

end Sys2Proof

namespace Sys2Proof.Machine

/-! ### The obligations -/

/-- Settles O2: the layout of each command puts every operand into the field the decoder reads it from. -/
theorem encodeThenDecode : Obligations.EncodeThenDecode := decode_encode

/-- Settles O3: the arm of the decoder a word selects fixes every field of the word. -/
theorem decodeThenEncode : Obligations.DecodeThenEncode := fun _ _ => encode_of_decode

/-- Settles O1: each row of the table by computation, the reserved values of OP by the decoder's last arm. -/
theorem specWordsDecode : Obligations.SpecWordsDecode :=
  ⟨rfl, rfl, rfl, rfl, rfl, rfl, rfl, rfl, rfl, rfl, rfl, rfl, rfl, rfl, rfl, rfl, decode_op_reserved, rfl⟩

end Sys2Proof.Machine
end

section
/-! SUPPORT. The family other, the invariant: what each agent's turn leaves of it, and the obligations O50 and O51. -/

namespace Sys2Proof.Machine

variable {s t : State} {run : Running}

/-! ### Every turn keeps the invariant -/

/-- A hardware reset leaves no command, no wait and no held write (70_reset R180). -/
theorem inv_hardwareReset (hm : Memory.wf s.mem = true) : InvParts (hardwareReset s) where
  cfg := BitVec.zero_and
  rxdata := BitVec.zero_and
  busy := rfl
  wait := nofun
  legal := nofun
  held := nofun
  mem := hm

/-- The position after a wait is one of the same bit. -/
theorem afterWait_legal (hl : run.legal s = true) (hp : run.pos.isWait = true) : run.afterWait.legal s = true := by
  obtain ⟨cmd, pos, w⟩ := run
  have key : ∀ p q : BitPos, pos = .bit p → q ≠ .drive → (⟨cmd, .bit q, w⟩ : Running).legal s = true := by
    rintro p q rfl hq
    cases cmd with
    | busReset => cases hl
    | xferBit b => exact ofPhase_of_ne hq
    | xferByte d =>
      simp only [Running.legal, Bool.and_eq_true, ofPhase_of_ne hq, true_and] at hl ⊢
      exact hl.2
    | xferBuf rd wr =>
      simp only [Running.legal, Bool.and_eq_true, ofPhase_of_ne hq, true_and] at hl ⊢
      exact ⟨hl.1.2, hl.2⟩
  cases pos with
  | bit p =>
    cases p with
    | wait1 => exact key _ .lead rfl (by simp)
    | wait2 => exact key _ .trail rfl (by simp)
    | _ => cases hp
  | _ => cases hp

/-- The acknowledgement of a wait moves the command on to a position of its own. -/
theorem inv_endWait (h : InvParts s) (hw : s.waitReq = true) : InvParts (endWait s) := by
  obtain ⟨run, hc, hp⟩ := h.wait hw
  have hcur : (endWait s).cur = some run.afterWait := by rw [endWait_cur, hc, Option.map_some]
  refine ⟨h.cfg, h.rxdata, ?_, nofun, fun r hr => ?_, h.held, h.mem⟩
  · rw [hcur, endWait_busy, h.busy, hc, Option.isSome_some, Option.isSome_some]
  · cases hcur.symm.trans hr
    exact (legal_congr _ rfl rfl).trans (afterWait_legal (h.legal run hc) hp)

/-- A held write is one of the window; releasing it leaves the block otherwise as it is. -/
theorem inv_held (h : InvParts s) (w : Option RegWrite)
    (hw : ∀ v, w = some v → accessShape v.offset 32 = true ∧ inWindow v.offset = true) :
    InvParts { s with held := w } :=
  ⟨h.cfg, h.rxdata, h.busy, h.wait, fun r hr => (legal_congr r rfl rfl).trans (h.legal r hr), hw, h.mem⟩

theorem inv_setByte (h : InvParts s) (a : Addr) (v : Byte) : InvParts (s.setByte a v) :=
  ⟨h.cfg, h.rxdata, h.busy, h.wait, fun r hr => (legal_congr r rfl rfl).trans (h.legal r hr), h.held,
    wf_put h.mem a v⟩

theorem turn_keeps_inv {a : Agent} (h : InvParts s) (ht : Turn s a t) : InvParts t := by
  cases ht with
  | reset => exact inv_hardwareReset h.mem
  | rest _ => exact h
  | command run _ _ he => exact exec_keeps_inv h he
  | acknowledge hw => exact inv_endWait h hw
  | acceptHeld _ w _ _ hb he => exact acceptWrite_inv (inv_held h none nofun) hb he
  | acceptFresh w _ hb _ _ he => exact acceptWrite_inv (s := hostAdvance s) (inv_env h _) hb he
  | hold w _ _ _ hs hw =>
    refine inv_held (inv_env h _) (some w) fun v hv => ?_
    cases hv
    exact ⟨hs, hw⟩
  | look prog log _ _ => exact inv_env h _
  | store a v _ _ _ => exact inv_setByte (inv_env h _) a v

/-! ### The obligations -/

/-- Settles O51: a step is one agent's turn, and every turn keeps each part of the invariant. -/
theorem invariantKeptByStep : Obligations.InvariantKeptByStep := fun s t hs h =>
  (inv_iff t).2 (turn_keeps_inv (inv_env ((inv_iff s).1 hs) _) (step_next h))

/-- Settles O50: nothing is in progress at reset, and H is the reset alone. -/
theorem invariantAtReset : Obligations.InvariantAtReset :=
  ⟨(inv_iff _).2 ⟨rfl, rfl, rfl, nofun, nofun, nofun, reset_mem_wf⟩, rfl, rfl, rfl⟩

end Sys2Proof.Machine
end

section
/-! SUPPORT. The family other, the steps of a command: the actions of a bit, the held wait, the memory actions, the
events and the memory of a step, the frames, and the obligations O26 to O28, O40 and O54 to O56. -/

namespace Sys2Proof.Machine

variable {s t u : State} {i : Instr} {run : Running}

/-! ### The actions of a bit (41_bit_transfer R101) -/

/-- At a `WaitHalf` the step requests the wait and does nothing else. -/
theorem exec_wait {p : BitPos} (h : InProgress s run) (hc : run.cmd ≠ .busReset) (hp : run.pos = .bit p)
    (hwait : p = .wait1 ∨ p = .wait2) : exec run.cmd s = .next (raiseWait s) := by
  obtain ⟨fin, -, -, -, he⟩ := exec_bit h hc hp
  rcases hwait with rfl | rfl <;> exact he

/-- The trailing-edge action returns SCLK to the idle level, with a sample where CPHA = 1, and ends the bit. -/
theorem exec_trail (h : InProgress s run) (hc : run.cmd ≠ .busReset) (hp : run.pos = .bit .trail) :
    ∃ run' : Running, run'.cmd = run.cmd ∧ run'.pos.betweenBits s.cpha ∧
      (∀ b, run.cmd = .xferBit b → run'.pos = .done) ∧
      exec run.cmd s = .next (goto run' (if s.cpha then setClkSample s.idle s else setClk s.idle s)) := by
  obtain ⟨fin, hcmd, hbetween, hlast, he⟩ := exec_bit h hc hp
  rw [he, bitStep]
  split_ifs
  · exact ⟨fin { run with work := { run.work with r := s.misoAnswer s.idle } }, hcmd _, hbetween _,
      fun b => hlast b _, rfl⟩
  · exact ⟨fin run, hcmd _, hbetween _, fun b => hlast b _, rfl⟩

/-! ### A held wait (41_bit_transfer R107) -/

/-- While a wait is held, turns of the sequencer and the host leave the block as it is. -/
theorem waiting_turn_stays {a : Agent} (hb : s.busy = true) (hw : s.waitReq = true) (ha : a = .sequencer ∨ a = .host)
    (h : agentTurn a s = .next t) : BlockStays s t := by
  cases agentTurn_next h with
  | reset => rcases ha with ha | ha <;> cases ha
  | rest _ => exact .refl s
  | command run _ _ he => cases (exec_waiting hb hw).symm.trans he; exact .refl s
  | acknowledge _ => rcases ha with ha | ha <;> cases ha
  | acceptHeld _ w _ _ hidle _ => cases hb.symm.trans hidle
  | acceptFresh w _ hidle _ _ _ => cases hb.symm.trans hidle
  | hold w hn _ _ _ _ => exact ⟨.refl s, rfl, rfl, rfl, rfl, rfl, rfl, .inr ⟨hn, hb⟩⟩
  | look prog log _ _ => exact .of_host s _ _ _
  | store b v _ _ _ => exact .of_host s _ _ _

theorem waiting_turns_stay {turns : List Agent} (hb : s.busy = true) (hw : s.waitReq = true)
    (ha : ∀ a ∈ turns, a = .sequencer ∨ a = .host) (h : runTurns turns s = .next u) : BlockStays s u := by
  induction turns generalizing s with
  | nil => cases h; exact .refl _
  | cons a as ih =>
    obtain ⟨hhead, htail⟩ := List.forall_mem_cons.1 ha
    rw [runTurns] at h
    split at h
    next t ht =>
      have hs : BlockStays s t := waiting_turn_stays hb hw hhead ht
      exact hs.trans (ih (hs.registers.2.2.trans hb) (hs.waitReq.trans hw) htail h)
    next => cases h
    next => cases h

/-! ### The memory actions (43_buffer_transfer R141) -/

/-- After the MemWrite of an element: the completion step, or the next element's first action. -/
theorem nextElement_spec (wr : Bool) (s : State) (run : Running) :
    (run.work.k + 1#32 = s.count → (nextElement wr s run).pos = .done) ∧
    (run.work.k + 1#32 ≠ s.count → (nextElement wr s run).work.k = run.work.k + 1#32 ∧
      (nextElement wr s run).pos = if wr then .load else .bit (BitPos.first s.cpha)) := by
  by_cases h : run.work.k + 1#32 = s.count
  · rw [nextElement, if_pos h]
    exact ⟨fun _ => rfl, fun hne => absurd h hne⟩
  · rw [nextElement, if_neg h]
    refine ⟨fun he => absurd he h, fun _ => ?_⟩
    cases wr <;> exact ⟨rfl, rfl⟩

theorem byteAt_put_other {a c : Addr} {v : Byte} (hm : t.mem = Memory.put s.mem a.toNat v) (h : c ≠ a) :
    t.byteAt c = s.byteAt c := by
  rw [State.byteAt, hm, lookup_put_other _ _ fun he => h (BitVec.eq_of_toNat_eq he)]
  rfl

/-! ### The positions of a command -/

/-- A command that moves stands at one of its own positions (10_state R36). -/
theorem exec_position (h : InProgress s run) (he : exec run.cmd s = .next t) :
    run.pos = .done ∨ (run.cmd = .busReset ∧ run.pos = .lines) ∨
    (run.cmd ≠ .busReset ∧ ∃ p, run.pos = .bit p) ∨
    ∃ rd wr, run.cmd = .xferBuf rd wr ∧ (run.pos = .load ∨ run.pos = .store) := by
  obtain ⟨hb, hw, hc⟩ := h
  obtain ⟨cmd, pos, w⟩ := run
  cases cmd <;> cases pos
  case busReset.load | busReset.bit | busReset.store | xferBit.lines | xferBit.load | xferBit.store | xferByte.lines |
      xferByte.load | xferByte.store | xferBuf.lines =>
    cases (sequence_running hb hw hc rfl).symm.trans he
  case busReset.done | xferBit.done | xferByte.done | xferBuf.done => exact .inl rfl
  case busReset.lines => exact .inr (.inl ⟨rfl, rfl⟩)
  case xferBit.bit | xferByte.bit | xferBuf.bit => exact .inr (.inr (.inl ⟨nofun, _, rfl⟩))
  case xferBuf.load => exact .inr (.inr (.inr ⟨_, _, rfl, .inl rfl⟩))
  case xferBuf.store => exact .inr (.inr (.inr ⟨_, _, rfl, .inr rfl⟩))

/-- At a position of its own a command moves, or is held at an address that is not admitted (60_exceptions R164). -/
theorem exec_legal (h : InProgress s run) (hl : run.legal s = true) :
    (∃ t, exec run.cmd s = .next t) ∨ ∃ a, exec run.cmd s = .fault (.notAdmitted a) := by
  obtain ⟨hb, hw, hc⟩ := id h
  obtain ⟨cmd, pos, w⟩ := run
  cases pos with
  | lines =>
    obtain rfl : cmd = .busReset := legal_lines hl rfl
    exact .inl ⟨_, exec_busReset_lines hb hw hc⟩
  | bit p =>
    obtain ⟨hcmd, -⟩ := legal_bit hl rfl
    obtain ⟨fin, -, -, -, he⟩ := exec_bit h hcmd rfl
    exact .inl ⟨_, he⟩
  | load =>
    obtain ⟨rd, wr, rfl⟩ := legal_memory hl (.inl rfl)
    rw [exec_xferBuf_load hb hw hc]
    exact (loadStep_cases _ s).imp (fun hx => ⟨_, hx.2⟩) (fun hx => ⟨_, hx.2⟩)
  | store =>
    obtain ⟨rd, wr, rfl⟩ := legal_memory hl (.inr rfl)
    rw [exec_xferBuf_store hb hw hc]
    exact (storeStep_cases wr _ s).imp (fun hx => ⟨_, hx.2⟩) (fun hx => ⟨_, hx.2⟩)
  | done =>
    obtain ⟨r, he⟩ := exec_done h rfl
    exact .inl ⟨_, he⟩

/-! ### The events of a command's step -/

/-- From `s` to `t` H stays and so do the pins, or H grows by one event that gives the new pin levels (00_scope R12). -/
def LogsPins (s t : State) : Prop :=
  (t.hist = s.hist ∧ t.sclk = s.sclk ∧ t.mosi = s.mosi) ∨
    ∃ e : Event, t.hist = s.hist ++ [e] ∧ (t.sclk, t.mosi) = pinsAfter (s.sclk, s.mosi) e

theorem LogsPins.refl (s : State) : LogsPins s s := .inl ⟨rfl, rfl, rfl⟩

/-- Every primitive action is one event. -/
theorem Primitive.event (h : Primitive s t) :
    ∃ e : Event, t.hist = s.hist ++ [e] ∧ (t.sclk, t.mosi) = pinsAfter (s.sclk, s.mosi) e := by
  cases h with
  | clk l => exact ⟨.clk l, rfl, rfl⟩
  | mosi l => exact ⟨.mosi l, rfl, rfl⟩
  | clkMosi c d => exact ⟨.clkMosi c d, rfl, rfl⟩
  | clkSample l => exact ⟨.clkSample l (s.misoAnswer l), rfl, rfl⟩
  | memRd a _ => exact ⟨.memRd a (s.byteAt a), rfl, rfl⟩
  | memWr a v _ => exact ⟨.memWr a v, rfl, rfl⟩

/-- A command's step is one event, or leaves pins, memory and the collaborators alone. -/
theorem exec_event (h : exec i s = .next t) :
    (t.hist = s.hist ∧ t.sclk = s.sclk ∧ t.mosi = s.mosi ∧ t.env = s.env ∧ t.mem = s.mem) ∨
      ∃ e : Event, t.hist = s.hist ++ [e] ∧ (t.sclk, t.mosi) = pinsAfter (s.sclk, s.mosi) e := by
  rcases exec_next_cases h with ⟨-, rfl⟩ | ⟨-, rfl⟩ | ⟨run, -, -, -, -, ha⟩
  · exact .inl ⟨rfl, rfl, rfl, rfl, rfl⟩
  · exact .inl ⟨rfl, rfl, rfl, rfl, rfl⟩
  · cases ha with
    | wait _ => exact .inl ⟨rfl, rfl, rfl, rfl, rfl⟩
    | action run' hp _ => exact .inr hp.event
    | complete r _ => exact .inl ⟨rfl, rfl, rfl, rfl, rfl⟩

theorem exec_silent (h : exec i s = .next t) (hh : t.hist = s.hist) :
    t.sclk = s.sclk ∧ t.mosi = s.mosi ∧ t.env = s.env ∧ t.mem = s.mem := by
  rcases exec_event h with ⟨-, hquiet⟩ | ⟨e, he, -⟩
  · exact hquiet
  · simp [hh] at he

/-! ### The frame of a command's step -/

theorem Primitive.collaborators (h : Primitive s t) : t.held = s.held ∧ SameEnv s t := by
  cases h <;> exact ⟨rfl, rfl, rfl, rfl, rfl, rfl⟩

/-- No command touches the held write or the collaborators, but for the peripheral's answers it uses up. -/
theorem exec_collaborators (h : exec i s = .next t) : t.held = s.held ∧ SameEnv s t := by
  rcases exec_next_cases h with ⟨-, rfl⟩ | ⟨-, rfl⟩ | ⟨run, -, -, -, -, ha⟩
  · exact ⟨rfl, rfl, rfl, rfl, rfl, rfl⟩
  · exact ⟨rfl, rfl, rfl, rfl, rfl, rfl⟩
  · cases ha with
    | wait _ => exact ⟨rfl, rfl, rfl, rfl, rfl, rfl⟩
    | action run' hp _ => exact hp.collaborators
    | complete r _ => exact ⟨rfl, rfl, rfl, rfl, rfl, rfl⟩

theorem bitStep_mem (b : Level) (p : BitPos) (fin : Running → Running) (run : Running) (s : State) :
    (bitStep b p fin run s).mem = s.mem := by
  cases p with
  | drive => rfl
  | wait1 => rfl
  | wait2 => rfl
  | lead => rw [bitStep]; split_ifs <;> rfl
  | trail => rw [bitStep]; split_ifs <;> rfl

/-- Only the MemWrite of an XFER_BUF writes buffer memory. -/
theorem exec_mem (h : exec i s = .next t) :
    t.mem = s.mem ∨ ∃ rd wr w, i = .xferBuf rd wr ∧ InProgress s ⟨.xferBuf rd wr, .store, w⟩ ∧
      t.mem = Memory.put s.mem (s.storeAddr w.k).toNat w.rx := by
  rcases exec_next_cases h with ⟨-, rfl⟩ | ⟨-, rfl⟩ | ⟨run, hb, hw, hc, rfl, -⟩
  · exact .inl rfl
  · exact .inl rfl
  · have hp : InProgress s run := ⟨hb, hw, hc⟩
    obtain ⟨cmd, pos, w⟩ := run
    rcases exec_position hp h with rfl | ⟨rfl, rfl⟩ | ⟨hcmd, p, rfl⟩ | ⟨rd, wr, rfl, rfl | rfl⟩
    · obtain ⟨r, he⟩ := exec_done hp rfl
      cases he.symm.trans h
      exact .inl rfl
    · cases (exec_busReset_lines hb hw hc).symm.trans h
      exact .inl rfl
    · obtain ⟨fin, -, -, -, he⟩ := exec_bit hp hcmd rfl
      cases he.symm.trans h
      exact .inl (bitStep_mem _ _ _ _ _)
    · rcases loadStep_cases ⟨.xferBuf rd wr, .load, w⟩ s with ⟨-, he⟩ | ⟨-, he⟩
      · cases ((exec_xferBuf_load hb hw hc).trans he).symm.trans h
        exact .inl rfl
      · cases ((exec_xferBuf_load hb hw hc).trans he).symm.trans h
    · rcases storeStep_cases wr ⟨.xferBuf rd wr, .store, w⟩ s with ⟨-, he⟩ | ⟨-, he⟩
      · cases ((exec_xferBuf_store hb hw hc).trans he).symm.trans h
        exact .inr ⟨rd, wr, w, rfl, hp, rfl⟩
      · cases ((exec_xferBuf_store hb hw hc).trans he).symm.trans h

/-- BUSRESET and XFER_BUF have no result (10_state R28). -/
theorem exec_rxdata_of_no_result (h : exec i s = .next t) (hi : i = .busReset ∨ ∃ rd wr, i = .xferBuf rd wr) :
    t.rxdata = s.rxdata := by
  rcases exec_registers h with ⟨-, rfl⟩ | ⟨-, -, hrx, -⟩ | ⟨⟨cmd, pos, w⟩, ⟨hb, hw, hc⟩, rfl, rfl, -⟩
  · rfl
  · exact hrx
  · rcases hi with rfl | ⟨rd, wr, rfl⟩
    · cases (exec_busReset_done hb hw hc).symm.trans h
      rfl
    · cases (exec_xferBuf_done hb hw hc).symm.trans h
      rfl

/-- BUSRESET requests no wait and takes no sample (40_bus_reset R90). -/
theorem exec_busReset_quiet (h : exec .busReset s = .next t) : t.waitReq = s.waitReq ∧ t.env = s.env := by
  rcases exec_next_cases h with ⟨-, rfl⟩ | ⟨-, rfl⟩ | ⟨⟨cmd, pos, w⟩, hb, hw, hc, rfl, -⟩
  · exact ⟨rfl, rfl⟩
  · exact ⟨rfl, rfl⟩
  · rcases exec_position (run := ⟨.busReset, pos, w⟩) ⟨hb, hw, hc⟩ h with
      rfl | ⟨-, rfl⟩ | ⟨hcmd, -⟩ | ⟨rd, wr, hcmd, -⟩
    · cases (exec_busReset_done hb hw hc).symm.trans h
      exact ⟨rfl, rfl⟩
    · cases (exec_busReset_lines hb hw hc).symm.trans h
      exact ⟨rfl, rfl⟩
    · exact absurd rfl hcmd
    · cases hcmd

/-! ### No turn faults -/

theorem acceptWrite_not_fault {w : RegWrite} (hb : s.busy = false) (f : Fault) : acceptWrite w s ≠ .fault f := by
  unfold acceptWrite
  split
  · unfold acceptCommand
    split
    · rw [exec_idle hb]; nofun
    · nofun
  · nofun
  · nofun

theorem sequencerTurn_not_fault (h : InvParts s) (f : Fault) : sequencerTurn s ≠ .fault f := by
  unfold sequencerTurn
  split
  · nofun
  next run hc =>
    have hb : s.busy = true := by rw [h.busy, hc, Option.isSome_some]
    have hmove : (∃ t, exec run.cmd s = .next t) ∨ ∃ a, exec run.cmd s = .fault (.notAdmitted a) := by
      cases hw : s.waitReq with
      | true => exact .inl ⟨s, exec_waiting hb hw⟩
      | false => exact exec_legal ⟨hb, hw, hc⟩ (h.legal run hc)
    rcases hmove with ⟨t, he⟩ | ⟨a, he⟩ <;> simp [he]

theorem hostTurn_not_fault (s : State) (f : Fault) : hostTurn s ≠ .fault f := by
  unfold hostTurn
  split
  · nofun
  · split
    · nofun
    · unfold hostWrite
      split_ifs with _ _ hb
      · nofun
      · exact acceptWrite_not_fault (s := hostAdvance s) (by simpa using hb) f
      · nofun
      · nofun
    · unfold hostRead
      split_ifs
      · split <;> nofun
      · nofun
    · unfold hostSync
      dsimp only
      split_ifs <;> nofun
    · unfold hostStore
      split_ifs <;> nofun
    · unfold hostLoad
      split_ifs <;> nofun

theorem orAcceptHeld_not_fault {turn : State → Out} {f : Fault} (h : turn s ≠ .fault f) :
    orAcceptHeld turn s ≠ .fault f := by
  unfold orAcceptHeld
  split
  · exact h
  · split_ifs with hb
    · exact h
    · exact acceptWrite_not_fault (s := { s with held := none }) (by simpa using hb) f

/-! ### The obligations -/

/-- Settles O26: at each position of the phase the step is the action of `TransferBit` there. -/
theorem leadingSampleActions : Obligations.LeadingSampleActions := by
  intro s run h hc hph
  refine ⟨fun hp => ?_, fun hp => ?_, fun hp => exec_lead_sample h hc hp hph, fun hp => ?_, fun hp => ?_⟩
  · obtain ⟨fin, -, -, -, he⟩ := exec_bit h hc hp
    exact he
  · exact ⟨exec_wait h hc hp (.inl rfl), delayUnit_acknowledges h hp⟩
  · exact ⟨exec_wait h hc hp (.inr rfl), delayUnit_acknowledges h hp⟩
  · obtain ⟨run', hcmd, hbetween, hlast, he⟩ := exec_trail h hc hp
    rw [hph] at hbetween he
    exact ⟨run', hcmd, he, hbetween, hlast⟩

/-- Settles O27: at each position of the phase the step is the action of `TransferBit` there. -/
theorem trailingSampleActions : Obligations.TrailingSampleActions := by
  intro s run h hc hph
  refine ⟨fun hp => ?_, fun hp => exec_lead_drive h hc hp hph, fun hp => ?_, fun hp => ?_⟩
  · exact ⟨exec_wait h hc hp (.inl rfl), delayUnit_acknowledges h hp⟩
  · exact ⟨exec_wait h hc hp (.inr rfl), delayUnit_acknowledges h hp⟩
  · obtain ⟨run', hcmd, hbetween, hlast, he⟩ := exec_trail h hc hp
    rw [hph] at hbetween he
    exact ⟨run', hcmd, he, hbetween, hlast⟩

/-- Settles O28: no command moves while a wait is held, so the block stays as it is, by induction over the turns. -/
theorem waitHoldsUntilAcknowledged : Obligations.WaitHoldsUntilAcknowledged := by
  refine ⟨fun i s => exec_waiting, fun turns s u hb hw ha h => ?_⟩
  have hs := waiting_turns_stay hb hw ha h
  obtain ⟨-, hrx, hbusy⟩ := hs.registers
  exact ⟨hs.waitReq.trans hw, hbusy.trans hb, hs.cur, hs.hist, hs.sclk, hs.mosi, hrx⟩

/-- Settles O40: the memory actions at admitted addresses, and a read of memory after a write. -/
theorem bufferMemorySteps : Obligations.BufferMemorySteps := by
  refine fun s rd wr w => ⟨BitVec.toNat_add _ _, BitVec.toNat_add _ _, fun ⟨hb, hw, hc⟩ ha => ?_,
    fun ⟨hb, hw, hc⟩ ha => ?_⟩
  · exact ⟨_, (exec_xferBuf_load hb hw hc).trans (loadStep_admitted ha), rfl, rfl, rfl, rfl, rfl, rfl, rfl⟩
  · obtain ⟨hlast, hnext⟩ := nextElement_spec wr s ⟨.xferBuf rd wr, .store, w⟩
    refine ⟨_, _, (exec_xferBuf_store hb hw hc).trans (storeStep_admitted ha), rfl, nextElement_cmd _ _ _, hlast, hnext,
      fun a hne => byteAt_put_other rfl hne, fun hm => ⟨lookup_put_same hm _ _, wf_put hm _ _⟩⟩

/-- Settles O54: a command's step is one event at most, only a completion step writes RXDATA, only XFER_BUF stores. -/
theorem registerCommandsFrame : Obligations.RegisterCommandsFrame := by
  intro i s t hi h
  obtain ⟨hheld, henv⟩ := exec_collaborators h
  have hmem : t.mem = s.mem := (exec_mem h).resolve_right fun ⟨rd, wr, _, he, _⟩ => hi rd wr he
  refine ⟨exec_sameOperands h, hheld, henv, fun a => by rw [State.byteAt, hmem]; rfl, fun hne => ?_, fun hh => ?_, ?_⟩
  · refine ⟨fun hbr => hne (exec_rxdata_of_no_result h (.inl hbr)), ?_⟩
    rcases exec_registers h with ⟨-, rfl⟩ | ⟨-, -, hrx, -⟩ | ⟨run, ⟨hb, -, -⟩, -, -, r, rfl⟩
    · exact absurd rfl hne
    · exact absurd hrx hne
    · exact ⟨hb, rfl⟩
  · obtain ⟨hsclk, hmosi, henv, -⟩ := exec_silent h hh
    exact ⟨hsclk, hmosi, henv⟩
  · rintro rfl
    exact exec_busReset_quiet h

/-- Settles O55: XFER_BUF has no result, and its one step that writes memory is the MemWrite. -/
theorem xferBufFrame : Obligations.XferBufFrame := by
  intro rd wr s t h
  obtain ⟨hheld, henv⟩ := exec_collaborators h
  refine ⟨exec_sameOperands h, hheld, henv, exec_rxdata_of_no_result h (.inr ⟨rd, wr, rfl⟩), exec_silent h,
    fun w hp a hne => ?_, fun hno a => ?_⟩
  · rcases exec_mem h with hm | ⟨rd', wr', w', -, ⟨-, -, hc⟩, hm⟩
    · rw [State.byteAt, hm]; rfl
    · cases hp.2.2.symm.trans hc
      exact byteAt_put_other hm hne
  · rcases exec_mem h with hm | ⟨rd', wr', w', hcmd, hp, -⟩
    · rw [State.byteAt, hm]; rfl
    · cases hcmd
      exact absurd hp (hno w')

/-- Settles O56: the command in progress stands at a position of its own, where it moves or is held, and the host's turn
answers no fault. -/
theorem stepNeverFaults : Obligations.StepNeverFaults := by
  intro s hs f
  have hi : InvParts (tick s) := inv_env ((inv_iff s).1 hs) _
  unfold step
  cases nextAgent s with
  | reset => nofun
  | sequencer => exact orAcceptHeld_not_fault (sequencerTurn_not_fault hi f)
  | delayUnit => exact orAcceptHeld_not_fault (turn := fun s => .next (delayTurn s)) nofun
  | host => exact orAcceptHeld_not_fault (hostTurn_not_fault _ f)

end Sys2Proof.Machine
end

section
/-! SUPPORT. The family other, the history H: what a step appends to it, and the obligations O52 and O53. -/

namespace Sys2Proof.Machine

variable {s t : State}

/-! ### What a step appends to H -/

theorem pinsOf_append (h : List Event) (e : Event) : pinsOf (h ++ [e]) = pinsAfter (pinsOf h) e := by
  simp [pinsOf]

theorem exec_logsPins {i : Instr} (h : exec i s = .next t) : LogsPins s t :=
  (exec_event h).imp_left fun ⟨hh, hc, hm, _⟩ => ⟨hh, hc, hm⟩

theorem acceptWrite_logsPins {w : RegWrite} (hb : s.busy = false) (h : acceptWrite w s = .next t) : LogsPins s t :=
  let ⟨hh, hc, hm, _⟩ := acceptWrite_no_action hb h
  .inl ⟨hh, hc, hm⟩

/-- A step appends one event at most, and the pins change only with it. -/
theorem step_logsPins (h : step s = .next t) : LogsPins s t := by
  have hT := step_next h
  generalize nextAgent s = a at hT
  cases hT with
  | reset => exact .inr ⟨.reset, rfl, rfl⟩
  | rest _ => exact .refl s
  | command run _ _ he => exact exec_logsPins (s := tick s) he
  | acknowledge _ => exact .inr ⟨.wait, rfl, rfl⟩
  | acceptHeld _ w _ _ hb he => exact acceptWrite_logsPins (s := { tick s with held := none }) hb he
  | acceptFresh w _ hb _ _ he => exact acceptWrite_logsPins (s := hostAdvance (tick s)) hb he
  | hold w _ _ _ _ _ => exact .refl s
  | look prog log _ _ => exact .refl s
  | store a v _ _ _ => exact .refl s

/-! ### The obligations -/

/-- Settles O52: the one event a step appends gives the pin levels after it. -/
theorem pinsFollowHistory : Obligations.PinsFollowHistory := by
  intro s t hpins h
  rcases step_logsPins h with ⟨hhist, hsclk, hmosi⟩ | ⟨e, hhist, hafter⟩
  · rw [hhist, hsclk, hmosi, hpins]
  · rw [hhist, pinsOf_append, hpins, hafter]

/-- Settles O53: a step appends one event at most, and the pins change only with it. -/
theorem historyGrowsByAtMostOneEvent : Obligations.HistoryGrowsByAtMostOneEvent := fun _ _ h =>
  (step_logsPins h).imp_right fun ⟨e, hhist, _⟩ => ⟨e, hhist⟩

end Sys2Proof.Machine
end

section
/-! SUPPORT. The family other, the host: the step that performs an offered access, what each access does, the step of
the command in progress, and the obligations O7 to O9, O13 to O15, O17, O18 and O58. -/

namespace Sys2Proof.Machine

variable {s t : State}

/-! ### The step that performs the host's offered access -/

/-- The host's access `op` (10_state R30, R31; 20_memory R60, R61). -/
def hostAccess : HostOp → State → Out
  | .write offset width v => hostWrite offset width v
  | .read offset width => hostRead offset width
  | .sync => hostSync
  | .store a v => hostStore a v
  | .load a => hostLoad a

/-- With no write held the host's turn performs its next access. -/
theorem hostTurn_access {op : HostOp} (hn : s.held = none) (hp : s.env.hostProg.head? = some op) :
    hostTurn s = hostAccess op s := by
  obtain ⟨rest, hrest⟩ := List.head?_eq_some_iff.1 hp
  rw [hostTurn, hn, hrest]
  cases op <;> rfl

theorem agentTurn_host {op : HostOp} (hn : s.held = none) (hp : s.env.hostProg.head? = some op) :
    agentTurn .host s = hostAccess op s := by
  rw [agentTurn, orAcceptHeld_none hn, hostTurn_access hn hp]

theorem step_offers {op : HostOp} (h : HostOffers s op) : step s = hostAccess op (tick s) := by
  obtain ⟨ha, hn, hp⟩ := h
  rw [step, ha]
  exact agentTurn_host (s := tick s) hn hp

/-! ### Register accesses (10_state R30, R31) -/

theorem accessShape_iff (offset width : Nat) : accessShape offset width = true ↔ width = 32 ∧ offset % 4 = 0 := by
  simp [accessShape]

theorem accessShape_false {offset width : Nat} (h : width ≠ 32 ∨ offset % 4 ≠ 0) :
    accessShape offset width = false := by
  rw [← Bool.not_eq_true, accessShape_iff]
  omega

/-- The eight registers stand at the aligned offsets of the window (10_state R21). -/
theorem ofOffset_window {offset : Nat} (h4 : offset % 4 = 0) (h32 : offset < 32) :
    ∃ r, Reg.ofOffset offset = some r := by
  have hall : offset = 0x00 ∨ offset = 0x04 ∨ offset = 0x08 ∨ offset = 0x0C ∨ offset = 0x10 ∨ offset = 0x14 ∨
      offset = 0x18 ∨ offset = 0x1C := by omega
  rcases hall with rfl | rfl | rfl | rfl | rfl | rfl | rfl | rfl <;> exact ⟨_, rfl⟩

theorem ofOffset_beyond {offset : Nat} (h : 32 ≤ offset) : Reg.ofOffset offset = none := by
  unfold Reg.ofOffset
  split
  case h_9 => rfl
  all_goals omega

/-- An access of another shape is refused. -/
theorem hostAccess_shape {offset width : Nat} (h : width ≠ 32 ∨ offset % 4 ≠ 0) (v : Word) (s : State) :
    hostWrite offset width v s = .refused (.hostAccessShape offset width) ∧
      hostRead offset width s = .refused (.hostAccessShape offset width) := by
  simp [hostWrite, hostRead, accessShape_false h]

/-- While BUSY = 1 a write to the window is held. -/
theorem hostWrite_busy {offset : Nat} (h4 : offset % 4 = 0) (h32 : offset < 32) (v : Word) (hb : s.busy = true) :
    hostWrite offset 32 v s = .next { hostAdvance s with held := some ⟨offset, v⟩ } := by
  simp [hostWrite, accessShape, inWindow, h4, h32, hb]

theorem hostRead_register {offset : Nat} {r : Reg} (h4 : offset % 4 = 0) (hr : Reg.ofOffset offset = some r) :
    hostRead offset 32 s = .next (logRead (.reg offset (readReg r s)) (hostAdvance s)) := by
  simp [hostRead, accessShape, h4, hr]

/-- A well-shaped access beyond the window does not address the block. -/
theorem hostAccess_beyond {offset : Nat} (h4 : offset % 4 = 0) (h32 : 32 ≤ offset) (v : Word) (s : State) :
    hostWrite offset 32 v s = .next (hostAdvance s) ∧ hostRead offset 32 s = .next (hostAdvance s) := by
  simp [hostWrite, hostRead, accessShape, inWindow, h4, h32, ofOffset_beyond h32]

/-- While BUSY = 1 the held write and the host stay as they are: "the host does not proceed". -/
theorem step_keeps_held {w : RegWrite} (hh : s.held = some w) (hb : s.busy = true) (ha : nextAgent s ≠ .reset)
    (h : step s = .next t) :
    t.held = some w ∧ t.env.hostProg = s.env.hostProg ∧ t.env.readLog = s.env.readLog := by
  have hT := step_next h
  generalize nextAgent s = a at hT ha
  cases hT with
  | reset => exact absurd rfl ha
  | rest _ => exact ⟨hh, rfl, rfl⟩
  | command run _ _ he =>
    obtain ⟨hheld, -, -, -, hprog, hlog⟩ := exec_collaborators he
    exact ⟨hheld.trans hh, hprog, hlog⟩
  | acknowledge _ => exact ⟨hh, rfl, rfl⟩
  | acceptHeld _ _ _ _ hidle _ => cases hb.symm.trans hidle
  | acceptFresh _ hn _ _ _ _ => cases hh.symm.trans hn
  | hold _ hn _ _ _ _ => cases hh.symm.trans hn
  | look _ _ hn _ => cases hh.symm.trans hn
  | store _ _ hn _ _ => cases hh.symm.trans hn

/-! ### The bits of CFG that exist (10_state R22) -/

theorem cfgMask_fields (v : Word) :
    (v &&& cfgMask).getLsbD 0 = v.getLsbD 0 ∧ (v &&& cfgMask).getLsbD 1 = v.getLsbD 1 ∧
      (v &&& cfgMask).getLsbD 2 = v.getLsbD 2 ∧ slice 4 4 (v &&& cfgMask) = slice 4 4 v := by
  have hmask : cfgMask.getLsbD 0 = true ∧ cfgMask.getLsbD 1 = true ∧ cfgMask.getLsbD 2 = true ∧
      slice 4 4 cfgMask = BitVec.allOnes 4 := by decide
  obtain ⟨hcpol, hcpha, hlsbf, hws⟩ := hmask
  simp only [BitVec.getLsbD_and, slice_and, hcpol, hcpha, hlsbf, hws, Bool.and_true, BitVec.and_allOnes, and_self]

/-! ### Accesses to buffer memory (20_memory R61) -/

theorem inBuffer_iff (base count : Word) (a : Addr) :
    inBuffer base count a = true ↔ ∃ k : BitVec 32, k < count ∧ a = base + k := by
  simp only [inBuffer, decide_eq_true_eq, ← BitVec.lt_def]
  constructor
  · exact fun h => ⟨a - base, h, by rw [BitVec.add_comm, BitVec.sub_add_cancel]⟩
  · rintro ⟨k, hk, rfl⟩
    rwa [BitVec.add_comm, BitVec.add_sub_cancel]

/-- While an XFER_BUF is in progress a store races where the address lies in one of the buffers, a load where it lies in
the read buffer. -/
theorem racesBuffers_iff {rd wr : Bool} {pos : Pos} {w : Work} (hb : s.busy = true)
    (hc : s.cur = some ⟨.xferBuf rd wr, pos, w⟩) (isWrite : Bool) (a : Addr) :
    racesBuffers isWrite a s = true ↔
      ∃ k : BitVec 32, k < s.count ∧ (a = s.raddr + k ∨ (isWrite = true ∧ a = s.waddr + k)) := by
  simp only [racesBuffers, hc, hb, Bool.true_and, Bool.or_eq_true, Bool.and_eq_true, inBuffer_iff, and_or_left,
    exists_or]
  simp only [and_left_comm (b := isWrite = true), exists_and_left]

/-- A racing access is refused. -/
theorem hostAccess_race {a : Addr} (v : Byte) :
    (racesBuffers true a s = true → hostStore a v s = .refused (.bufferRace a)) ∧
      (racesBuffers false a s = true → hostLoad a s = .refused (.bufferRace a)) := by
  refine ⟨fun h => ?_, fun h => ?_⟩
  · rw [hostStore, if_pos h]
  · rw [hostLoad, if_pos h]

/-- An access to an admitted address that does not race is performed. -/
theorem hostAccess_admitted {a : Addr} (v : Byte) (ha : s.admitted a = true) :
    (¬ racesBuffers true a s = true → hostStore a v s = .next ((hostAdvance s).setByte a v)) ∧
      (¬ racesBuffers false a s = true → hostLoad a s = .next (logRead (.mem a (s.byteAt a)) (hostAdvance s))) := by
  refine ⟨fun h => ?_, fun h => ?_⟩
  · rw [hostStore, if_neg h, if_pos ha]
  · rw [hostLoad, if_neg h, if_pos ha]

/-! ### A word offered from outside (log 13) -/

theorem tableWord_toNat (w : Word) : tableWord 32 w.toNat = w := by
  rw [tableWord, Nat.mod_eq_of_lt w.isLt, BitVec.ofNat_toNat, BitVec.setWidth_eq]

theorem hostOffers_withFetchWord (s : State) (w : Word) : HostOffers (s.withFetchWord 32 w.toNat) (.write 0x10 32 w) :=
  ⟨rfl, rfl, by rw [State.withFetchWord, tableWord_toNat]; rfl⟩

/-! ### The obligations -/

/-- Settles O7: the accepted write, fresh or held, runs the decoded command. -/
theorem stepRunsAcceptedCommand : Obligations.StepRunsAcceptedCommand := by
  refine fun s w i hd hb => ⟨fun ho => ?_, fun hh ha => ?_⟩
  · rw [step_offeredWrite ho hb rfl (by decide), acceptWrite_command hd]
  · rw [step_heldWrite hh hb ha, acceptWrite_command hd]

/-- Settles O8: with BUSY = 1 no held write is accepted, so the sequencer's turn is the command's step. -/
theorem stepRunsCommandInProgress : Obligations.StepRunsCommandInProgress := by
  intro s run ha hb hc
  have hstep : step s = sequencerTurn (tick s) := by
    rw [step, ha, agentTurn, orAcceptHeld_busy (s := tick s) hb]
  rw [hstep, sequencerTurn, tick_cur, hc]
  refine ⟨fun t he => ?_, fun a he => ?_, fun he => ?_⟩ <;> dsimp only <;> rw [he]

/-- Settles O9: the offered write is accepted and its word decodes to the command. -/
theorem stepRunsFetchedWord : Obligations.StepRunsFetchedWord := by
  intro s i
  rw [step_offeredWrite (hostOffers_withFetchWord s (encode i)) rfl rfl (by decide),
    acceptWrite_command (decode_encode i)]
  rfl

/-- Settles O13: the accepted write is `writeReg` of the register at its offset. -/
theorem acceptedRegisterWrites : Obligations.AcceptedRegisterWrites := by
  intro s offset v ho hb
  refine ⟨?_, ?_, ?_, ?_, ?_⟩
  · rintro rfl
    obtain ⟨hcpol, hcpha, hlsbf, hws⟩ := cfgMask_fields v
    have hread : v &&& cfgMask &&& cfgMask = v &&& cfgMask := by rw [BitVec.and_assoc, BitVec.and_self]
    exact ⟨_, step_offeredWrite ho hb rfl (by decide), rfl, hread,
      hcpol, hcpha, hlsbf, hws⟩
  · rintro rfl
    exact step_offeredWrite ho hb rfl (by decide)
  · rintro rfl
    exact step_offeredWrite ho hb rfl (by decide)
  · rintro rfl
    exact step_offeredWrite ho hb rfl (by decide)
  · rintro (rfl | rfl | rfl) <;> exact step_offeredWrite ho hb rfl (by decide)

/-- Settles O14: the write is held, no turn without a reset touches it while BUSY = 1, and the first step with BUSY = 0
accepts it. -/
theorem hostWriteStallsWhileBusy : Obligations.HostWriteStallsWhileBusy := by
  refine ⟨fun s offset v ho hb h4 h32 => ?_, fun s t w hh hb ha h => ?_, fun s w hh hb ha => step_heldWrite hh hb ha⟩
  · rw [step_offers ho]
    exact hostWrite_busy h4 h32 v hb
  · obtain ⟨hheld, hprog, hlog⟩ := step_keeps_held hh hb ha h
    exact ⟨hheld, hprog, hlog, step_busy_sameOperands h ha hb⟩

/-- Settles O15: the read returns `readReg` of the register at its offset. -/
theorem registerReadsAnyTime : Obligations.RegisterReadsAnyTime := by
  intro s offset ho h4 h32
  obtain ⟨r, hr⟩ := ofOffset_window h4 h32
  refine ⟨readReg r (tick s), (step_offers ho).trans (hostRead_register h4 hr), ?_, ?_, ?_, ?_, ?_, ?_, ?_, ?_⟩ <;>
  · rintro rfl
    cases hr
    rfl

/-- Settles O17: the shape is looked at first, then the window. -/
theorem hostAccessShapeRefused : Obligations.HostAccessShapeRefused := by
  refine fun s offset width v => ⟨fun h => ?_, ?_⟩
  · obtain ⟨hwrite, hread⟩ := hostAccess_shape h v (tick s)
    exact ⟨fun ho => (step_offers ho).trans hwrite, fun ho => (step_offers ho).trans hread⟩
  · rintro ⟨rfl, h4, h32⟩
    obtain ⟨hwrite, hread⟩ := hostAccess_beyond h4 h32 v (tick s)
    exact ⟨fun ho => (step_offers ho).trans hwrite, fun ho => (step_offers ho).trans hread⟩

/-- Settles O18: the addresses of the buffers are those the race check refuses, and no others. -/
theorem hostBufferRaceRefused : Obligations.HostBufferRaceRefused := by
  intro s rd wr pos w a v hb hc
  have hrace := racesBuffers_iff (s := tick s) hb hc
  refine ⟨fun ho => ?_, fun ho => ?_⟩
  · refine ⟨fun ⟨k, hk, hak⟩ => ?_, fun hout ha => ?_⟩
    · have h : racesBuffers true a (tick s) = true := (hrace true a).2 ⟨k, hk, by simpa using hak⟩
      exact (step_offers ho).trans ((hostAccess_race v).1 h)
    · have h : ¬ racesBuffers true a (tick s) = true := fun h => by
        obtain ⟨k, hk, hak | ⟨-, hak⟩⟩ := (hrace true a).1 h
        · exact (hout k hk).1 hak
        · exact (hout k hk).2 hak
      exact (step_offers ho).trans ((hostAccess_admitted (s := tick s) v ha).1 h)
  · refine ⟨fun ⟨k, hk, hak⟩ => ?_, fun hout ha => ?_⟩
    · have h : racesBuffers false a (tick s) = true := (hrace false a).2 ⟨k, hk, .inl hak⟩
      exact (step_offers ho).trans ((hostAccess_race v).2 h)
    · have h : ¬ racesBuffers false a (tick s) = true := fun h => by
        obtain ⟨k, hk, hak | ⟨hno, -⟩⟩ := (hrace false a).1 h
        · exact hout k hk hak
        · cases hno
      exact (step_offers ho).trans ((hostAccess_admitted (s := tick s) v ha).2 h)

/-- Settles O58: no agent but a hardware reset has anything left to do. -/
theorem endedRunStays : Obligations.EndedRunStays := by
  intro s he hc ha
  obtain ⟨⟨⟨hprog, hheld⟩, -⟩, hw⟩ :
      ((s.env.hostProg = [] ∧ s.held = none) ∧ s.busy = false) ∧ s.waitReq = false := by
    simpa [State.ended] using he
  have hkey : ∀ turn : State → Out, orAcceptHeld turn (tick s) = turn (tick s) := fun _ =>
    orAcceptHeld_none (s := tick s) hheld
  unfold step
  cases hag : nextAgent s with
  | reset => exact absurd hag ha
  | sequencer => exact (hkey _).trans (sequencerTurn_none (s := tick s) hc)
  | delayUnit => exact (hkey fun s => .next (delayTurn s)).trans (congrArg _ (delayTurn_no_request (s := tick s) hw))
  | host =>
    refine (hkey _).trans ?_
    simp [hostTurn, hheld, hprog]

end Sys2Proof.Machine
end

section
/-! SUPPORT. The family other, interleavings: what a turn does not look at in the collaborators' side, the scripted
schedule, and the obligations O10 and O16. -/

namespace Sys2Proof.Machine

variable {s t u : State} {g : Env → Env}

/-! ### A change of the collaborators' side apart from what the block asks them -/

/-- `g` leaves the address map and the peripheral's answers alone. -/
structure Env.Aside (g : Env → Env) : Prop where
  admits : ∀ e, (g e).admits = e.admits
  misoIn : ∀ e, (g e).misoIn = e.misoIn
  answers : ∀ e m, g { e with misoIn := m } = { g e with misoIn := m }

/-- The state with its collaborators' side changed. -/
def onEnv (g : Env → Env) (s : State) : State := { s with env := g s.env }

/-- A change of the state carried through an outcome. -/
def mapNext (f : State → State) : Out → Out
  | .next s => .next (f s)
  | .fault r => .fault r
  | .refused r => .refused r

@[simp] theorem mapNext_next (f : State → State) (s : State) : mapNext f (.next s) = .next (f s) := rfl

@[simp] theorem onEnv_busy (g : Env → Env) (s : State) : (onEnv g s).busy = s.busy := rfl
@[simp] theorem onEnv_held (g : Env → Env) (s : State) : (onEnv g s).held = s.held := rfl
@[simp] theorem onEnv_waitReq (g : Env → Env) (s : State) : (onEnv g s).waitReq = s.waitReq := rfl
@[simp] theorem onEnv_cur (g : Env → Env) (s : State) : (onEnv g s).cur = s.cur := rfl

/-! ### The sequencer under such a change -/

theorem admitted_onEnv (hg : Env.Aside g) (s : State) (a : Addr) : (onEnv g s).admitted a = s.admitted a := by
  rw [State.admitted, onEnv, hg.admits]
  rfl

theorem misoAnswer_onEnv (hg : Env.Aside g) (s : State) (l : Level) : (onEnv g s).misoAnswer l = s.misoAnswer l := by
  simp only [State.misoAnswer, onEnv, hg.misoIn]

theorem setClkSample_onEnv (hg : Env.Aside g) (l : Level) (s : State) :
    setClkSample l (onEnv g s) = onEnv g (setClkSample l s) := by
  have henv : { g s.env with misoIn := (g s.env).misoIn.tail } = g { s.env with misoIn := s.env.misoIn.tail } := by
    rw [hg.misoIn]
    exact (hg.answers _ _).symm
  unfold setClkSample
  rw [misoAnswer_onEnv hg]
  exact congrArg (fun e => { s with sclk := l, hist := s.hist ++ [Event.clkSample l (s.misoAnswer l)], env := e }) henv

theorem bitStep_onEnv (hg : Env.Aside g) (b : Level) (p : BitPos) (fin : Running → Running) (run : Running)
    (s : State) : bitStep b p fin run (onEnv g s) = onEnv g (bitStep b p fin run s) := by
  have hcpha : (onEnv g s).cpha = s.cpha := rfl
  have hsample : ∀ (r : Running) (l : Level),
      goto r (setClkSample l (onEnv g s)) = onEnv g (goto r (setClkSample l s)) :=
    fun r l => by rw [setClkSample_onEnv hg]; rfl
  cases p with
  | drive => rfl
  | wait1 => rfl
  | wait2 => rfl
  | lead =>
    simp only [bitStep, hcpha, misoAnswer_onEnv hg]
    split_ifs
    · rfl
    · exact hsample _ _
  | trail =>
    simp only [bitStep, hcpha, misoAnswer_onEnv hg]
    split_ifs
    · exact hsample _ _
    · rfl

theorem loadStep_onEnv (hg : Env.Aside g) (run : Running) (s : State) :
    loadStep run (onEnv g s) = mapNext (onEnv g) (loadStep run s) := by
  have ha := admitted_onEnv hg s (s.loadAddr run.work.k)
  rcases loadStep_cases run s with ⟨h, he⟩ | ⟨h, he⟩
  · rw [he, loadStep_admitted (s := onEnv g s) (ha.trans h)]
    rfl
  · rw [he]
    exact ((loadStep_cases run (onEnv g s)).resolve_left fun hx => by cases (ha.trans h).symm.trans hx.1).2

theorem storeStep_onEnv (hg : Env.Aside g) (wr : Bool) (run : Running) (s : State) :
    storeStep wr run (onEnv g s) = mapNext (onEnv g) (storeStep wr run s) := by
  have ha := admitted_onEnv hg s (s.storeAddr run.work.k)
  rcases storeStep_cases wr run s with ⟨h, he⟩ | ⟨h, he⟩
  · rw [he, storeStep_admitted (s := onEnv g s) (ha.trans h)]
    rfl
  · rw [he]
    exact ((storeStep_cases wr run (onEnv g s)).resolve_left fun hx => by cases (ha.trans h).symm.trans hx.1).2

theorem sequence_onEnv {i : Instr} {start : Running} {act act' : Running → Out}
    (hact : ∀ run, act' run = mapNext (onEnv g) (act run)) :
    sequence i start act' (onEnv g s) = mapNext (onEnv g) (sequence i start act s) := by
  cases hb : s.busy with
  | false => rw [sequence_idle hb, sequence_idle (s := onEnv g s) hb]; rfl
  | true =>
    cases hw : s.waitReq with
    | true => rw [sequence_waiting hb hw, sequence_waiting (s := onEnv g s) hb hw]; rfl
    | false =>
      cases hc : s.cur with
      | none => simp [sequence, hb, hw, hc]
      | some run =>
        by_cases hi : run.cmd = i
        · rw [sequence_running hb hw hc hi, sequence_running (s := onEnv g s) hb hw hc hi]
          exact hact run
        · rw [sequence_other hb hw hc hi, sequence_other (s := onEnv g s) hb hw hc hi]
          rfl

/-- A command's step looks at no other part of the collaborators' side. -/
theorem exec_onEnv (hg : Env.Aside g) (i : Instr) (s : State) :
    exec i (onEnv g s) = mapNext (onEnv g) (exec i s) := by
  have hbit : ∀ (b : Level) (p : BitPos) (fin : Running → Running) (run : Running),
      (.next (bitStep b p fin run (onEnv g s)) : Out) = mapNext (onEnv g) (.next (bitStep b p fin run s)) :=
    fun b p fin run => by rw [bitStep_onEnv hg]; rfl
  cases i with
  | busReset =>
    refine sequence_onEnv fun ⟨cmd, pos, w⟩ => ?_
    cases pos <;> rfl
  | xferBit b =>
    refine sequence_onEnv fun ⟨cmd, pos, w⟩ => ?_
    cases pos with
    | bit p => exact hbit _ _ _ _
    | _ => rfl
  | xferByte d =>
    refine sequence_onEnv fun ⟨cmd, pos, w⟩ => ?_
    cases pos with
    | bit p => exact hbit _ _ _ _
    | _ => rfl
  | xferBuf rd wr =>
    refine sequence_onEnv fun ⟨cmd, pos, w⟩ => ?_
    cases pos with
    | load => exact loadStep_onEnv hg _ _
    | bit p => exact hbit _ _ _ _
    | store => exact storeStep_onEnv hg _ _ _
    | _ => rfl

theorem sequencerTurn_onEnv (hg : Env.Aside g) (s : State) :
    sequencerTurn (onEnv g s) = mapNext (onEnv g) (sequencerTurn s) := by
  simp only [sequencerTurn, onEnv_cur, exec_onEnv hg]
  cases s.cur with
  | none => rfl
  | some run =>
    dsimp only
    cases exec run.cmd s with
    | next t => rfl
    | fault f => cases f <;> rfl
    | refused r => rfl

/-! ### A host read (60_exceptions R168) -/

/-- The collaborators after a read that returned `v`. -/
def Env.readBack (v : ReadBack) (e : Env) : Env := { e with hostProg := e.hostProg.tail, readLog := e.readLog ++ [v] }

theorem readBack_aside (v : ReadBack) : Env.Aside (Env.readBack v) := ⟨fun _ => rfl, fun _ => rfl, fun _ _ => rfl⟩

/-- The sequencer's turn leaves the host's next access and the held write. -/
theorem sequencer_keeps_host (hn : s.held = none) (h : agentTurn .sequencer s = .next t) :
    t.held = none ∧ t.env.hostProg = s.env.hostProg := by
  cases agentTurn_next h with
  | rest _ => exact ⟨hn, rfl⟩
  | command run _ _ he =>
    obtain ⟨hheld, -, -, -, hprog, -⟩ := exec_collaborators he
    exact ⟨hheld.trans hn, hprog⟩
  | acceptHeld _ w _ hw _ _ => cases hn.symm.trans hw

/-! ### The schedule (log 1) -/

/-- The collaborators with `l` as the scripted turns and `n` turns passed. -/
def Env.atTurn (l : List Agent) (n : Nat) (e : Env) : Env := { e with sched := l, turn := n }

theorem atTurn_aside (l : List Agent) (n : Nat) : Env.Aside (Env.atTurn l n) :=
  ⟨fun _ => rfl, fun _ => rfl, fun _ _ => rfl⟩

theorem acceptWrite_onEnv (hg : Env.Aside g) (w : RegWrite) (s : State) :
    acceptWrite w (onEnv g s) = mapNext (onEnv g) (acceptWrite w s) := by
  unfold acceptWrite
  split
  · unfold acceptCommand
    split
    · exact exec_onEnv hg _ _
    · rfl
  · rename_i r _ _
    cases r <;> rfl
  · rfl

section Schedule

variable {l : List Agent} {n : Nat}

theorem hostAccess_atTurn (op : HostOp) (s : State) :
    hostAccess op (onEnv (Env.atTurn l n) s) = mapNext (onEnv (Env.atTurn l n)) (hostAccess op s) := by
  cases op with
  | write offset width v =>
    simp only [hostAccess, hostWrite, apply_ite (mapNext _), ← acceptWrite_onEnv (atTurn_aside l n)]
    rfl
  | read offset width =>
    simp only [hostAccess, hostRead, apply_ite (mapNext _)]
    cases Reg.ofOffset offset with
    | none => rfl
    | some r => cases r <;> rfl
  | sync =>
    simp only [hostAccess, hostSync, apply_ite (mapNext _)]
    rfl
  | store a v =>
    simp only [hostAccess, hostStore, apply_ite (mapNext _)]
    rfl
  | load a =>
    simp only [hostAccess, hostLoad, apply_ite (mapNext _)]
    rfl

theorem hostTurn_atTurn (s : State) :
    hostTurn (onEnv (Env.atTurn l n) s) = mapNext (onEnv (Env.atTurn l n)) (hostTurn s) := by
  have hprog : (onEnv (Env.atTurn l n) s).env.hostProg = s.env.hostProg := rfl
  cases hn : s.held with
  | some w => simp [hostTurn, hn]
  | none =>
    cases hp : s.env.hostProg.head? with
    | none => simp [hostTurn, hn, hprog, List.head?_eq_none_iff.1 hp]
    | some op =>
      rw [hostTurn_access hn hp, hostTurn_access (s := onEnv (Env.atTurn l n) s) hn (hprog ▸ hp), hostAccess_atTurn]

theorem orAcceptHeld_atTurn {turn : State → Out}
    (h : turn (onEnv (Env.atTurn l n) s) = mapNext (onEnv (Env.atTurn l n)) (turn s)) :
    orAcceptHeld turn (onEnv (Env.atTurn l n) s) = mapNext (onEnv (Env.atTurn l n)) (orAcceptHeld turn s) := by
  cases hn : s.held with
  | none => rwa [orAcceptHeld_none hn, orAcceptHeld_none (s := onEnv (Env.atTurn l n) s) hn]
  | some w =>
    cases hb : s.busy with
    | true => rwa [orAcceptHeld_busy hb, orAcceptHeld_busy (s := onEnv (Env.atTurn l n) s) hb]
    | false =>
      rw [orAcceptHeld_accept hn hb, orAcceptHeld_accept (s := onEnv (Env.atTurn l n) s) hn hb]
      exact acceptWrite_onEnv (atTurn_aside l n) w { s with held := none }

/-- No agent's turn looks at the schedule or the turn counter. -/
theorem agentTurn_atTurn (a : Agent) (s : State) :
    agentTurn a (onEnv (Env.atTurn l n) s) = mapNext (onEnv (Env.atTurn l n)) (agentTurn a s) := by
  cases a with
  | reset => rfl
  | sequencer => exact orAcceptHeld_atTurn (sequencerTurn_onEnv (atTurn_aside l n) s)
  | delayUnit =>
    refine orAcceptHeld_atTurn (turn := fun s => .next (delayTurn s)) ?_
    cases hw : s.waitReq <;> simp only [delayTurn, onEnv_waitReq, hw] <;> rfl
  | host => exact orAcceptHeld_atTurn (hostTurn_atTurn s)

end Schedule

theorem core_run_succ (M : Host.Core) {k : Nat} {x y : M.State} (h : M.step x = .next y) :
    M.run (k + 1) x = M.run k y := by
  rw [Host.Core.run, h]

/-- Steps over a script of turns are those turns, one after the other. -/
theorem core_run_script (turns rest : List Agent) (n : Nat) (h : runTurns turns s = .next u) :
    Host.Core.run Sys2Proof.core turns.length (onEnv (Env.atTurn (turns ++ rest) n) s) =
      .next (onEnv (Env.atTurn rest (n + turns.length)) u) := by
  induction turns generalizing s n with
  | nil => cases h; rfl
  | cons a as ih =>
    rw [runTurns] at h
    split at h
    next t ht =>
      have hstep : step (onEnv (Env.atTurn (a :: as ++ rest) n) s) =
          .next (onEnv (Env.atTurn (as ++ rest) (n + 1)) t) :=
        (agentTurn_atTurn a s).trans (by rw [ht]; rfl)
      have hlen : n + (a :: as).length = n + 1 + as.length := by rw [List.length_cons, Nat.add_assoc, Nat.add_comm 1]
      rw [hlen]
      exact (core_run_succ Sys2Proof.core hstep).trans (ih (n + 1) h)
    next => cases h
    next => cases h

/-! ### The obligations -/

/-- Settles O10: each step takes the next turn of the script, and no turn looks at the script itself. -/
theorem scheduleDrivesStep : Obligations.ScheduleDrivesStep := fun turns rest s _ h =>
  core_run_script turns rest s.env.turn h

/-- Settles O16: the read changes only what no command looks at, and the sequencer leaves the host's next access. -/
theorem hostReadCommutesWithSequencer : Obligations.HostReadCommutesWithSequencer := by
  intro s t offset r hn hp h4 hr h
  obtain ⟨hn', hprog⟩ := sequencer_keeps_host hn h
  have hp' : t.env.hostProg.head? = some (.read offset 32) := by rw [hprog, hp]
  refine ⟨(agentTurn_host hn hp).trans (hostRead_register h4 hr), ?_,
    (agentTurn_host hn' hp').trans (hostRead_register h4 hr)⟩
  have hturn : sequencerTurn s = .next t := by rwa [agentTurn, orAcceptHeld_none hn] at h
  have hcomm := sequencerTurn_onEnv (readBack_aside (.reg offset (readReg r s))) s
  rw [hturn, mapNext_next] at hcomm
  rw [agentTurn, orAcceptHeld_none (by exact hn)]
  exact hcomm

end Sys2Proof.Machine
end

section
/-! SUPPORT. The family other, overlapping buffers: buffer memory between two elements of a transfer, the bytes its
trace reads and writes, and the obligation O46. -/

namespace Sys2Proof.Machine

variable {s : State} {wr : Bool} {k m : Nat} {a base : Addr}

/-! ### Element addresses (20_memory R52) -/

/-- Element addresses wrap, and two elements of a buffer still have two addresses. -/
theorem elementAddr_ne {i j : Nat} (hi : i < 2 ^ 32) (hj : j < 2 ^ 32) (hne : i ≠ j) :
    base + BitVec.ofNat 32 i ≠ base + BitVec.ofNat 32 j := by
  intro h
  have hij := BitVec.toNat_inj.2 ((BitVec.add_right_inj base).1 h)
  rw [BitVec.toNat_ofNat, BitVec.toNat_ofNat, Nat.mod_eq_of_lt hi, Nat.mod_eq_of_lt hj] at hij
  exact hne hij

theorem elementAddr_add (base : Addr) (i j : Nat) :
    base + BitVec.ofNat 32 i + BitVec.ofNat 32 j = base + BitVec.ofNat 32 (i + j) := by
  rw [BitVec.add_assoc, BitVec.ofNat_add]

/-! ### Buffer memory between two elements -/

/-- The byte element `k` stores. -/
def receivedAt (wr : Bool) (s : State) (k : Nat) : Byte :=
  (elementFrom wr (BitVec.ofNat 32 k) (afterElements true wr s k)).r

theorem afterElements_mem_succ (wr : Bool) (s : State) (m : Nat) :
    (afterElements true wr s (m + 1)).mem =
      Memory.put (afterElements true wr s m).mem (s.raddr + BitVec.ofNat 32 m).toNat (receivedAt wr s m) := by
  obtain ⟨-, hraddr, -⟩ := afterElements_operands true wr s m
  rw [← hraddr]
  rfl

theorem afterElements_wf (hm : Memory.wf s.mem = true) (m : Nat) :
    Memory.wf (afterElements true wr s m).mem = true := by
  induction m with
  | zero => exact hm
  | succ m ih =>
    rw [afterElements_mem_succ]
    exact wf_put ih _ _

/-- A byte that no element has stored to is the original one. -/
theorem byteAt_afterElements_spared (h : ∀ j, j < m → a ≠ s.raddr + BitVec.ofNat 32 j) :
    (afterElements true wr s m).byteAt a = s.byteAt a := by
  induction m with
  | zero => rfl
  | succ m ih =>
    rw [byteAt_put_other (afterElements_mem_succ wr s m) (h m (by omega))]
    exact ih fun j hj => h j (by omega)

/-- A byte that element `k` has stored to is the byte it received. -/
theorem byteAt_afterElements_stored (hm : Memory.wf s.mem = true) (hk : k < m) (h32 : m ≤ 2 ^ 32) :
    (afterElements true wr s m).byteAt (s.raddr + BitVec.ofNat 32 k) = receivedAt wr s k := by
  induction m with
  | zero => omega
  | succ m ih =>
    by_cases hlast : k = m
    · subst hlast
      rw [State.byteAt, afterElements_mem_succ]
      exact lookup_put_same (afterElements_wf hm k) _ _
    · rw [byteAt_put_other (afterElements_mem_succ wr s m) (elementAddr_ne (by omega) (by omega) hlast)]
      exact ih (by omega) (by omega)

/-! ### The bytes of the trace -/

/-- Element `k` reads the byte memory holds after the stores of the elements before it. -/
theorem readBytes_elements (hk : k < m) :
    (readBytes (bufferTrace s true true (elements true true s m)))[k]? =
      some ((afterElements true true s k).byteAt (s.waddr + BitVec.ofNat 32 k)) := by
  obtain ⟨-, -, hwaddr, -⟩ := afterElements_operands true true s k
  rw [(bytes_bufferTrace s true true _).1, ← hwaddr]
  simp [elements, hk, elementFrom, sentByte, State.loadAddr]

theorem writtenBytes_elements (hk : k < m) :
    (writtenBytes (bufferTrace s true true (elements true true s m)))[k]? = some (receivedAt true s k) := by
  rw [(bytes_bufferTrace s true true _).2]
  simp [elements, hk, receivedAt]

/-! ### The obligation -/

/-- Settles O46: element `k` reads what the stores of the elements before it have left at its address. -/
theorem overlappingBuffers : Obligations.OverlappingBuffers := by
  intro s h ha hm
  obtain ⟨t, hissue, -, hrun⟩ := xferBuf_runs h ha
  have hcount : s.count.toNat < 2 ^ 32 := s.count.isLt
  have hlen := length_elements true true s s.count.toNat
  obtain ⟨hread, hwritten⟩ := bytes_bufferTrace s true true (elements true true s s.count.toNat)
  refine ⟨t, afterXferBuf true true s, _, hissue, hrun, rfl, afterElements_hist _ _ _ _, ?_, ?_, ?_, ?_, ?_⟩
  · rw [hread]
    simp [hlen]
  · rw [hwritten]
    simp [hlen]
  · intro heq k hk
    rw [readBytes_elements hk, writtenBytes_elements hk, ← heq]
    refine ⟨congrArg some (byteAt_afterElements_spared fun j hj => elementAddr_ne (by omega) (by omega) (by omega)), ?_⟩
    exact congrArg some (byteAt_afterElements_stored hm hk hcount.le).symm
  · intro m h1 _ hahead k hmk hk
    have haddr : s.waddr + BitVec.ofNat 32 k = s.raddr + BitVec.ofNat 32 (k - m) := by
      rw [hahead, elementAddr_add, Nat.add_sub_cancel' hmk]
    rw [readBytes_elements hk, writtenBytes_elements (by omega), haddr,
      byteAt_afterElements_stored hm (by omega) (by omega)]
  · intro m h1 _ hfit hahead k hk
    rw [readBytes_elements hk, byteAt_afterElements_spared fun j hj => ?_]
    rw [hahead, elementAddr_add]
    exact elementAddr_ne (by omega) (by omega) (by omega)

end Sys2Proof.Machine
end

section
/-! SUPPORT. The family other, whole commands: the pseudocode of XFER_BUF in closed form, each command up to its
completion step, every interleaving of the sequencer and the delay unit, and the obligations O48 and O49. -/

namespace Sys2Proof.Machine

variable {s t u f x : State} {i : Instr} {rd wr : Bool} {k : BitVec 32}

/-! ### The pseudocode of XFER_BUF in closed form (43_buffer_transfer R141) -/

/-- The first part of an element's pseudocode: the byte to send. -/
theorem fetch_eq_some {v : Byte} (h : (if wr then memRead (s.loadAddr k) s else some (0x00#8, s)) = some (v, x)) :
    (wr = true → s.admitted (s.loadAddr k) = true) ∧ v = sentByte wr k s ∧ x = afterLoad wr k s := by
  cases wr with
  | false =>
    cases h
    exact ⟨nofun, rfl, by simp [afterLoad]⟩
  | true =>
    obtain ⟨ha, rfl, rfl⟩ := memRead_eq_some.1 h
    exact ⟨fun _ => ha, rfl, rfl⟩

/-- The last part: the byte received stored. -/
theorem keep_eq_some {r : Byte} (h : (if rd then memWrite (s.storeAddr k) r s else some s) = some x) :
    (rd = true → s.admitted (s.storeAddr k) = true) ∧ x = afterStore rd k r s := by
  cases rd with
  | false =>
    cases h
    exact ⟨nofun, by simp [afterStore]⟩
  | true =>
    obtain ⟨ha, rfl⟩ := memWrite_eq_some.1 h
    exact ⟨fun _ => ha, rfl⟩

theorem transferElement_eq_some (h : transferElement rd wr k s = some t) :
    s.ElementAdmitted rd wr k ∧ t = afterElement rd wr k s := by
  unfold transferElement at h
  dsimp only at h
  split at h
  · cases h
  next v x hfetch =>
    obtain ⟨hload, rfl, rfl⟩ := fetch_eq_some hfetch
    rw [transferByte_eq] at h
    obtain ⟨hstore, rfl⟩ := keep_eq_some h
    exact ⟨⟨hstore, hload⟩, rfl⟩

/-- The elements of a transfer change neither its addresses nor the address map. -/
theorem elementAdmitted_afterElements (m : Nat) :
    (afterElements rd wr s m).ElementAdmitted rd wr k ↔ s.ElementAdmitted rd wr k := by
  obtain ⟨-, hraddr, hwaddr, -⟩ := afterElements_operands rd wr s m
  rw [State.ElementAdmitted, State.storeAddr, State.loadAddr, hraddr, hwaddr, State.admitted, State.admitted,
    afterElements_env]
  rfl

/-- The pseudocode over `m` elements from element `j` on: all of them are admitted, and it ends where they do. -/
theorem transferBuffer_eq_some {m j : Nat}
    (h : transferBuffer rd wr m (BitVec.ofNat 32 j) (afterElements rd wr s j) = some t) :
    (∀ e, j ≤ e → e < j + m → s.ElementAdmitted rd wr (BitVec.ofNat 32 e)) ∧ t = afterElements rd wr s (j + m) := by
  induction m generalizing j with
  | zero =>
    cases h
    exact ⟨fun e h1 h2 => by omega, rfl⟩
  | succ m ih =>
    rw [transferBuffer] at h
    split at h
    · cases h
    next y hy =>
      obtain ⟨hadm, rfl⟩ := transferElement_eq_some hy
      rw [← BitVec.ofNat_add] at h
      obtain ⟨hrest, ht⟩ := ih (j := j + 1) h
      refine ⟨fun e h1 h2 => ?_, by rw [ht, Nat.add_right_comm, Nat.add_assoc]⟩
      by_cases he : e = j
      · subst he
        exact (elementAdmitted_afterElements e).1 hadm
      · exact hrest e (by omega) (by omega)

/-- The pseudocode of XFER_BUF ends only where its buffers are admitted, and there in the closed form. -/
theorem runCommand_xferBuf (h : runCommand (.xferBuf rd wr) s = some f) :
    s.buffersAdmitted rd wr ∧ f = afterXferBuf rd wr s := by
  obtain ⟨t, ht, rfl⟩ := Option.map_eq_some_iff.1 h
  obtain ⟨hadm, rfl⟩ := transferBuffer_eq_some (s := s) (j := 0) ht
  refine ⟨fun k hk => ?_, by rw [afterXferBuf, Nat.zero_add]⟩
  have hadm' := hadm k.toNat (Nat.zero_le _) (by rw [Nat.zero_add]; exact hk)
  rwa [BitVec.ofNat_toNat, BitVec.setWidth_eq] at hadm'

/-! ### A command up to its completion step -/

/-- Command `i` stands in `x` at its completion step, with nothing else outstanding, and that step leaves `f`. -/
structure AtCompletion (i : Instr) (x f : State) : Prop where
  running : ∃ run, x.cur = some run ∧ run.cmd = i
  busy : x.busy = true
  waitReq : x.waitReq = false
  held : x.held = none
  completes : exec i x = .next f
  result : ∃ r, f = complete r x

/-- At its completion step a command that is in progress there completes. -/
theorem AtCompletion.of_exec {w : Work} {r : Option Word} (hw : x.waitReq = false) (hh : x.held = none)
    (he : exec i (issue ⟨i, .done, w⟩ x) = .next (complete r x)) :
    AtCompletion i (issue ⟨i, .done, w⟩ x) (complete r x) :=
  ⟨⟨_, rfl, rfl⟩, rfl, hw, hh, he, r, rfl⟩

/-- Run action by action, a command is at its completion step after exactly its actions (70_reset R192). -/
theorem runTurns_actions (h : s.ready = true) (hf : runCommand i s = some f) :
    ∃ x, runTurns (promptTurns (actionCount i s)) (issue (startOf i s) s) = .next x ∧ AtCompletion i x f := by
  obtain ⟨-, hw, hh⟩ := (ready_iff s).1 h
  cases i with
  | busReset =>
    cases hf
    exact ⟨busResetDriven s, runTurns_pair_action hh rfl (exec_busReset_issued hw) hh hw,
      .of_exec hw hh (exec_busReset_driven hw)⟩
  | xferBit b =>
    rw [runCommand, transferBit_eq] at hf
    cases hf
    have hx : BitExec (.xferBit b) Work.unassigned b toDone (issue (startOf (.xferBit b) s) s) :=
      fun _ _ _ _ hi => exec_xferBit_bit hi.1 hi.2.1 hi.2.2
    have hrun := runTurns_bit (s := issue (startOf (.xferBit b) s) s) ⟨rfl, hw, rfl⟩ hh hx
    rw [transferBit_eq, bitReply_issue, afterBit_issue] at hrun
    have hdone := exec_xferBit_done (b := b) (w := { Work.unassigned with r := bitReply b s })
      (s := issue ⟨.xferBit b, .done, { Work.unassigned with r := bitReply b s }⟩ (afterBit b s)) rfl hw rfl
    exact ⟨_, hrun, .of_exec (x := afterBit b s) hw hh hdone⟩
  | xferByte d =>
    rw [runCommand, transferByte_eq] at hf
    cases hf
    obtain ⟨w, hrx, -, hrun⟩ := runTurns_byte d hw hh (byteExec_xferByte d s) .done Work.unassigned
    rw [transferByte_eq] at hrx hrun
    dsimp only at hrx
    rw [← hrx]
    exact ⟨_, hrun, .of_exec (x := afterByte d s) (w := w) hw hh (exec_xferByte_done rfl hw rfl)⟩
  | xferBuf rd wr =>
    obtain ⟨ha, rfl⟩ := runCommand_xferBuf hf
    obtain ⟨-, -, hwait, -, hheld⟩ := afterElements_frame rd wr s s.count.toNat
    obtain ⟨run, hat, hrun⟩ := runTurns_elements hw hh ha le_rfl
    refine ⟨_, hrun, ?_⟩
    cases hat with
    | start p w hlt => omega
    | done w => exact .of_exec (hwait.trans hw) (hheld.trans hh) (exec_xferBuf_done rfl (hwait.trans hw) rfl)

/-- One pair of turns later the command is over. -/
theorem runTurns_completion (h : AtCompletion i x f) : runTurns (promptTurns 1) x = .next f := by
  obtain ⟨run, hc, rfl⟩ := h.running
  obtain ⟨r, rfl⟩ := h.result
  exact runTurns_pair_action h.held hc h.completes h.held h.waitReq

/-- The state a command ends in has nothing in progress and nothing outstanding. -/
theorem AtCompletion.ends (h : AtCompletion i x f) :
    f.busy = false ∧ f.cur = none ∧ f.waitReq = false ∧ f.held = none := by
  obtain ⟨r, rfl⟩ := h.result
  exact ⟨rfl, rfl, h.waitReq, h.held⟩

/-! ### Every interleaving of the sequencer and the delay unit -/

/-- The one way on from a state, whoever of the two moves: the acknowledgement of an outstanding wait, else the
sequencer's turn. -/
def advance (s : State) : Out := if s.waitReq then .next (endWait s) else sequencerTurn s

/-- No write is held, and with BUSY = 0 nothing is in progress or outstanding. -/
structure Commanded (s : State) : Prop where
  held : s.held = none
  idle : s.busy = false → s.cur = none ∧ s.waitReq = false

/-- A turn of the sequencer or the delay unit goes the one way on, or does nothing. -/
theorem turn_advances {a : Agent} (h : Commanded s) (ha : a = .sequencer ∨ a = .delayUnit) :
    agentTurn a s = .next s ∨ agentTurn a s = advance s := by
  cases hw : s.waitReq with
  | false =>
    rcases ha with rfl | rfl
    · exact .inr (by rw [agentTurn, orAcceptHeld_none h.held, advance, hw]; rfl)
    · exact .inl (by rw [agentTurn, orAcceptHeld_none h.held, delayTurn_no_request hw])
  | true =>
    have hb : s.busy = true := by
      by_contra hb
      exact absurd (h.idle (by simpa using hb)).2 (by simp [hw])
    rcases ha with rfl | rfl
    · refine .inl ?_
      rw [agentTurn, orAcceptHeld_none h.held]
      cases hc : s.cur with
      | none => exact sequencerTurn_none hc
      | some run => exact sequencerTurn_exec hc (exec_waiting hb hw)
    · exact .inr (by rw [agentTurn, orAcceptHeld_none h.held, delayTurn, advance, hw]; rfl)

theorem exec_commanded (h : Commanded s) (he : exec i s = .next t) : Commanded t := by
  obtain ⟨hheld, -⟩ := exec_collaborators he
  refine ⟨hheld.trans h.held, fun hb => ?_⟩
  rcases exec_next_cases he with ⟨-, rfl⟩ | ⟨-, rfl⟩ | ⟨run, hbusy, hw, -, -, ha⟩
  · cases hb
  · exact h.idle hb
  · cases ha with
    | wait _ => cases hbusy.symm.trans hb
    | action run' hp _ => cases hbusy.symm.trans (hp.sameRegisters.2.2.symm.trans hb)
    | complete r _ => exact ⟨rfl, hw⟩

theorem advance_commanded (h : Commanded s) (ha : advance s = .next t) : Commanded t := by
  unfold advance at ha
  split at ha
  · cases ha
    refine ⟨h.held, fun hb => ⟨?_, rfl⟩⟩
    rw [endWait_cur, (h.idle hb).1, Option.map_none]
  · cases sequencerTurn_next (.inl h.held) ha with
    | rest _ => exact h
    | command run _ _ he => exact exec_commanded h he
    | acceptHeld _ w _ hw _ _ => cases h.held.symm.trans hw

/-- The way on from `s` leads to `f`. -/
inductive Leads (f : State) : State → Prop where
  | here : Leads f f
  | on {s t : State} : advance s = .next t → Leads f t → Leads f s

/-- Any run of turns of the two goes along the way on. -/
theorem runTurns_leads {turns : List Agent} (h : Commanded s) (hturns : ∀ a ∈ turns, a = .sequencer ∨ a = .delayUnit)
    (hu : runTurns turns s = .next u) : Leads u s := by
  induction turns generalizing s with
  | nil => cases hu; exact .here
  | cons a as ih =>
    obtain ⟨hhead, htail⟩ := List.forall_mem_cons.1 hturns
    rw [runTurns] at hu
    split at hu
    next t ht =>
      rcases turn_advances h hhead with hstay | hon
      · cases hstay.symm.trans ht
        exact ih h htail hu
      · have ha : advance s = .next t := hon.symm.trans ht
        exact .on ha (ih (advance_commanded h ha) htail hu)
    next => cases hu
    next => cases hu

/-- An idle state goes nowhere. -/
theorem advance_idle (hc : s.cur = none) (hw : s.waitReq = false) : advance s = .next s := by
  rw [advance, hw]
  exact sequencerTurn_none hc

theorem Leads.eq_of_idle (h : Leads f s) (hc : s.cur = none) (hw : s.waitReq = false) : s = f := by
  induction h with
  | here => rfl
  | on ha _ ih =>
    cases (advance_idle hc hw).symm.trans ha
    exact ih hc hw

/-- From a state that leads to an idle one any turns of the two are possible, and leave a state that leads there too. -/
theorem runTurns_of_leads {turns : List Agent} (h : Commanded s) (hl : Leads f s) (hc : f.cur = none)
    (hw : f.waitReq = false) (hturns : ∀ a ∈ turns, a = .sequencer ∨ a = .delayUnit) :
    ∃ u, runTurns turns s = .next u ∧ Commanded u ∧ Leads f u := by
  induction turns generalizing s with
  | nil => exact ⟨s, rfl, h, hl⟩
  | cons a as ih =>
    obtain ⟨hhead, htail⟩ := List.forall_mem_cons.1 hturns
    have hturn : ∃ t, agentTurn a s = .next t ∧ Commanded t ∧ Leads f t := by
      rcases turn_advances h hhead with hstay | hon
      · exact ⟨s, hstay, h, hl⟩
      · cases hl with
        | here => exact ⟨f, hon.trans (advance_idle hc hw), h, .here⟩
        | on ha hrest => exact ⟨_, hon.trans ha, advance_commanded h ha, hrest⟩
    obtain ⟨t, ht, hct, hlt⟩ := hturn
    rw [runTurns, ht]
    exact ih hct hlt htail

theorem mem_promptTurns {n : Nat} {a : Agent} (h : a ∈ promptTurns n) : a = .sequencer ∨ a = .delayUnit := by
  induction n with
  | zero => cases h
  | succ n ih =>
    simp only [promptTurns, List.mem_cons] at h
    rcases h with rfl | rfl | h
    · exact .inl rfl
    · exact .inr rfl
    · exact ih h

/-! ### The obligations -/

/-- Settles O48: a command is at its completion step after its actions, and that step leaves the pseudocode's state. -/
theorem sequencerRunsPseudocode : Obligations.SequencerRunsPseudocode := by
  intro i s f h hf
  obtain ⟨hb, -, -⟩ := (ready_iff s).1 h
  obtain ⟨x, hrun, hx⟩ := runTurns_actions h hf
  obtain ⟨hbusy, hcur, hwait, -⟩ := hx.ends
  exact ⟨_, x, exec_idle hb, hrun, hx.busy, (runTurns_promptTurns_add hrun).trans (runTurns_completion hx),
    hbusy, hcur, hwait⟩

/-- Settles O49: the prompt run shows that the issued command leads to the pseudocode's state, and every interleaving
goes the same way, in which only that state is idle. -/
theorem everyInterleavingRunsPseudocode : Obligations.EveryInterleavingRunsPseudocode := by
  intro i s f turns h hf hturns
  obtain ⟨hb, -, hh⟩ := (ready_iff s).1 h
  obtain ⟨x, hrun, hx⟩ := runTurns_actions h hf
  obtain ⟨-, hcur, hwait, -⟩ := hx.ends
  have hissued : Commanded (issue (startOf i s) s) := ⟨hh, nofun⟩
  have hleads : Leads f (issue (startOf i s) s) :=
    runTurns_leads hissued (fun _ => mem_promptTurns) ((runTurns_promptTurns_add hrun).trans (runTurns_completion hx))
  obtain ⟨u, hu, hcu, hlu⟩ := runTurns_of_leads hissued hleads hcur hwait hturns
  refine ⟨_, u, exec_idle hb, hu, fun hidle => ?_⟩
  obtain ⟨hc, hw⟩ := hcu.idle hidle
  exact hlu.eq_of_idle hc hw

end Sys2Proof.Machine
end
